-- ==== Sys2Proof/Word.lean ====
section
/-! DEFINITION. The unit's word types (spec/00_scope.md R6, R8; spec/10_state.md R20). -/

namespace Sys2Proof

/-- One byte of the register window or of the string buffer. -/
abbrev Byte := BitVec 8

/-- A 32-bit command word or control register (R8 CMD_BITS, R20). -/
abbrev Word := BitVec 32

/-- A 64-bit scalar register's pattern (R27). -/
abbrev Scalar := BitVec 64

/-- A 128-bit decimal register's raw pattern, the 16-byte wire format (R21). -/
abbrev Dec := BitVec 128

/-- A 256-bit wide register's pattern, limb 0 least significant (R29). -/
abbrev Wide := BitVec 256

end Sys2Proof
end

