-- ==== Sys2Proof/Machine/Value.lean ====
section
/-! DEFINITION. Numbers and patterns: the value functions of spec/00_scope.md R11, R12 and the constants of R6, R7. -/

namespace Sys2Proof.Machine

/-- R7: POW10[k], used for k in 0..38 only. -/
def pow10 (k : Nat) : Nat := 10 ^ k

/-- R6: MAX_UNSCALED, 10^38 − 1. -/
def maxUnscaled : Nat := 99999999999999999999999999999999999999

/-- R6: MIN_UNSCALED, −(10^38 − 1). -/
def minUnscaled : Int := -99999999999999999999999999999999999999

/-- R12: `sign(b) = b[127]`. -/
def sign (b : Dec) : Bool := b.getLsbD 127

/-- R12: `mag(b) = b[126:0]`, as a natural number. -/
def mag (b : Dec) : Nat := b.toNat % 2 ^ 127

/-- R12: the integer a pattern stands for. -/
def val (b : Dec) : Int := if sign b then -(mag b : Int) else (mag b : Int)

/-- R12: `isneg(b) = (sign(b) = 1 and mag(b) ≠ 0)`. -/
def isneg (b : Dec) : Bool := sign b && mag b != 0

/-- R12: the pattern `{s, m}`, or the all-zero pattern when m = 0; for m of at most 127 bits. -/
def enc (s : Bool) (m : Nat) : Dec :=
  if m = 0 then 0 else BitVec.ofNat 128 ((if s then 2 ^ 127 else 0) + m)

/-- R12: the canonical pattern of an integer of at most 127 bits of magnitude. -/
def encz (z : Int) : Dec := enc (decide (z < 0)) z.natAbs

/-- Glossary: canonical zero, the all-zero pattern. -/
def canonicalZero : Dec := 0

/-- Glossary: negative zero, the pattern with only bit 127 set. -/
def negativeZero : Dec := BitVec.ofNat 128 (2 ^ 127)

/-- R11: `s64(p)`, the signed reading of a 64-bit pattern: p if p < 2^63, else p − 2^64. -/
def s64 (p : Scalar) : Int := if p.toNat < 2 ^ 63 then (p.toNat : Int) else (p.toNat : Int) - 2 ^ 64

/-- R11: `u64(z)`, z mod 2^64 as a 64-bit pattern. -/
def u64 (z : Int) : Scalar := BitVec.ofInt 64 z

/-- R10: byte k of a pattern, `b[8k+7 : 8k]`. -/
def byteOf {n : Nat} (b : BitVec n) (k : Nat) : Byte := b.extractLsb' (8 * k) 8

/-- R10, R54: the pattern with byte k replaced by `v` and every other bit as it was. -/
def withByte {n : Nat} (b : BitVec n) (k : Nat) (v : Byte) : BitVec n :=
  (b &&& ~~~((0xFF#8).setWidth n <<< (8 * k))) ||| (v.setWidth n <<< (8 * k))

/-- R13, R29: limb j of a wide register, `W[k][32j+31 : 32j]`. -/
def limb (v : Wide) (j : Nat) : BitVec 32 := v.extractLsb' (32 * j) 32

end Sys2Proof.Machine
end

