-- ==== Sys2Proof/Machine/Flags.lean ====
section
/-! DEFINITION. The unit has no condition flags (spec/10_state.md R39): predicates, comparisons and carries are
delivered as words in a scalar register (R28). -/

namespace Sys2Proof.Machine

/-- R28: "a Boolean is the 64-bit pattern 0 or 1". -/
def boolWord (p : Bool) : Scalar := if p then 1 else 0

/-- R143: −1, 0 or +1 as 64-bit two's complement, by the order of the integers. -/
def orderWord (x y : Int) : Scalar := if x < y then u64 (-1) else if x = y then u64 0 else u64 1

/-- R141: the carry out of the adder as a signed word, k with the sign of the sum. -/
def deltaWord (negative : Bool) (k : Nat) : Scalar := u64 (if negative then -(k : Int) else k)

end Sys2Proof.Machine
end

