-- ==== Sys2Proof/Syntax.lean ====
section
/-! DEFINITION. The command set of spec/30_encoding.md R78 as one inductive, one constructor per row of
spec/opcode_table.json, the operands in the order of the assembler syntax (R82): destinations first. -/

namespace Sys2Proof

/-- The number of a decimal register D0..D7 (R26, R73). -/
abbrev DReg := Fin 8

/-- The number of a scalar register X0..X7 (R27, R73). -/
abbrev XReg := Fin 8

/-- The number of a wide register W0, W1: the field "must hold 0 or 1" (R74). -/
abbrev WReg := Fin 2

/-- The twenty-nine commands (R78). -/
inductive Instr where
  /-- `zero dd` (R100) -/
  | zero (dd : DReg)
  /-- `empty dd` (R101) -/
  | empty (dd : DReg)
  /-- `fromlong dd, xs` (R102) -/
  | fromlong (dd : DReg) (xs : XReg)
  /-- `tolong xd, ds` (R103) -/
  | tolong (xd : XReg) (ds : DReg)
  /-- `frombig dd, ws, xsign` (R104) -/
  | frombig (dd : DReg) (ws : WReg) (xsign : XReg)
  /-- `tobig wd, xsign, ds` (R105) -/
  | tobig (wd : WReg) (xsign : XReg) (ds : DReg)
  /-- `pack dd, xlo, xhi` (R106) -/
  | pack (dd : DReg) (xlo xhi : XReg)
  /-- `split xlo, xhi, ds` (R107) -/
  | split (xlo xhi : XReg) (ds : DReg)
  /-- `li xd, imm` (R108) -/
  | li (xd : XReg) (imm : BitVec 16)
  /-- `shld dd, xn` (R120) -/
  | shld (dd : DReg) (xn : XReg)
  /-- `shlp dd, ds, xn` (R121) -/
  | shlp (dd ds : DReg) (xn : XReg)
  /-- `shr dd, ds, xn` with `roundUp = false`, `shr.ru dd, ds, xn` with `roundUp = true` (R122, R76) -/
  | shr (roundUp : Bool) (dd ds : DReg) (xn : XReg)
  /-- `shlmp wd, xnew, xlen, xn` (R123) -/
  | shlmp (wd : WReg) (xnew xlen xn : XReg)
  /-- `shrmp wd, xlen, xn` (R124) -/
  | shrmp (wd : WReg) (xlen xn : XReg)
  /-- `add dd, da, db` (R140) -/
  | add (dd da db : DReg)
  /-- `addo dd, xdelta, da, db` (R141) -/
  | addo (dd : DReg) (xdelta : XReg) (da db : DReg)
  /-- `neg dd, ds` (R142) -/
  | neg (dd ds : DReg)
  /-- `cmp xd, da, db` (R143) -/
  | cmp (xd : XReg) (da db : DReg)
  /-- `isneg xd, ds` (R144) -/
  | isneg (xd : XReg) (ds : DReg)
  /-- `iszero xd, ds` (R145) -/
  | iszero (xd : XReg) (ds : DReg)
  /-- `mul dd, da, db` (R160) -/
  | mul (dd da db : DReg)
  /-- `mull dd, da, xk` (R161) -/
  | mull (dd da : DReg) (xk : XReg)
  /-- `mul256 wd, db` (R162) -/
  | mul256 (wd : WReg) (db : DReg)
  /-- `div dq, dr, da, xa, db, xb` (R180) -/
  | div (dq dr da : DReg) (xa : XReg) (db : DReg) (xb : XReg)
  /-- `rescale dd, ds, xe` (R200) -/
  | rescale (dd ds : DReg) (xe : XReg)
  /-- `ovf xd, ds, xp` (R201) -/
  | ovf (xd : XReg) (ds : DReg) (xp : XReg)
  /-- `tio ds` (R202) -/
  | tio (ds : DReg)
  /-- `tio2 xlo, xhi` (R203) -/
  | tio2 (xlo xhi : XReg)
  /-- `tostr ds` (R220) -/
  | tostr (ds : DReg)
deriving DecidableEq, Repr

end Sys2Proof
end

