-- ==== Sys2Proof/WellFormed.lean ====
section
/-! DEFINITION. Which instruction terms are commands (spec/30_encoding.md R80 step 4). Every other bound of the
encoding is in the types of the operands. -/

namespace Sys2Proof

/-- R80 step 4, R263: the two destinations of SPLIT, and of DIV, lie in one register file and must differ. -/
def Instr.wellFormed : Instr → Bool
  | .split xlo xhi _ => xlo != xhi
  | .div dq dr _ _ _ _ => dq != dr
  | .zero _ | .empty _ | .fromlong _ _ | .tolong _ _ | .frombig _ _ _ | .tobig _ _ _ | .pack _ _ _ | .li _ _
  | .shld _ _ | .shlp _ _ _ | .shr _ _ _ _ | .shlmp _ _ _ _ | .shrmp _ _ _
  | .add _ _ _ | .addo _ _ _ _ | .neg _ _ | .cmp _ _ _ | .isneg _ _ | .iszero _ _
  | .mul _ _ _ | .mull _ _ _ | .mul256 _ _ | .rescale _ _ _ | .ovf _ _ _ | .tio _ | .tio2 _ _ | .tostr _ => true

end Sys2Proof
end

