-- ==== Sys2Proof/Decode.lean ====
section
/-! DEFINITION. Decoding and encoding of command words (spec/30_encoding.md R70 to R81). -/

namespace Sys2Proof

/-! ### The fields of a word (R71, R72) -/

/-- Bits 7:0, which select the command. -/
def opcodeOf (w : Word) : BitVec 8 := w.extractLsb' 0 8

/-- A 3-bit register field whose lowest bit is bit `lo` (R71, R73). -/
def regField (w : Word) (lo : Nat) : Fin 8 := (w.extractLsb' lo 3).toFin

/-- Bits 10:8: first destination. -/
def fieldR1 (w : Word) : Fin 8 := regField w 8
/-- Bits 13:11: first source. -/
def fieldR2 (w : Word) : Fin 8 := regField w 11
/-- Bits 16:14: second source. -/
def fieldR3 (w : Word) : Fin 8 := regField w 14
/-- Bits 19:17: second destination. -/
def fieldR4 (w : Word) : Fin 8 := regField w 17
/-- Bits 22:20: third source. -/
def fieldR5 (w : Word) : Fin 8 := regField w 20
/-- Bits 25:23: fourth source. -/
def fieldR6 (w : Word) : Fin 8 := regField w 23
/-- Bit 26: the modifier m (R76). -/
def fieldM (w : Word) : Bool := w.getLsbD 26
/-- Bits 31:16: the immediate of format I (R72). -/
def fieldImm (w : Word) : BitVec 16 := w.extractLsb' 16 16

/-- The wide register a field names; its two upper bits are 0 once the row's mask has matched (R74). -/
def wideReg (r : Fin 8) : WReg := ⟨r.val % 2, Nat.mod_lt _ (by decide)⟩

/-! ### The rows (R78, R81) -/

/-- One row of the opcode table: the bits the command fixes, their required value, and how its fields are read. -/
structure Row where
  mnemonic : String
  mask : Word
  pattern : Word
  build : Word → Instr

/-- R78, R81: opcodes 0x0_, the codec. -/
def codecRows : List Row :=
  [ ⟨"ZERO",     0xFFFFF8FF, 0x00000001, fun w => .zero (fieldR1 w)⟩,
    ⟨"EMPTY",    0xFFFFF8FF, 0x00000002, fun w => .empty (fieldR1 w)⟩,
    ⟨"FROMLONG", 0xFFFFC0FF, 0x00000003, fun w => .fromlong (fieldR1 w) (fieldR2 w)⟩,
    ⟨"TOLONG",   0xFFFFC0FF, 0x00000004, fun w => .tolong (fieldR1 w) (fieldR2 w)⟩,
    ⟨"FROMBIG",  0xFFFE30FF, 0x00000005, fun w => .frombig (fieldR1 w) (wideReg (fieldR2 w)) (fieldR3 w)⟩,
    ⟨"TOBIG",    0xFFF1C6FF, 0x00000006, fun w => .tobig (wideReg (fieldR1 w)) (fieldR4 w) (fieldR2 w)⟩,
    ⟨"PACK",     0xFFFE00FF, 0x00000007, fun w => .pack (fieldR1 w) (fieldR2 w) (fieldR3 w)⟩,
    ⟨"SPLIT",    0xFFF1C0FF, 0x00000008, fun w => .split (fieldR1 w) (fieldR4 w) (fieldR2 w)⟩,
    ⟨"LI",       0x0000F8FF, 0x00000009, fun w => .li (fieldR1 w) (fieldImm w)⟩ ]

/-- R78, R81: opcodes 0x1_, the shifts. -/
def shiftRows : List Row :=
  [ ⟨"SHLD",     0xFFFFC0FF, 0x00000010, fun w => .shld (fieldR1 w) (fieldR2 w)⟩,
    ⟨"SHLP",     0xFFFE00FF, 0x00000011, fun w => .shlp (fieldR1 w) (fieldR2 w) (fieldR3 w)⟩,
    ⟨"SHR",      0xFBFE00FF, 0x00000012, fun w => .shr (fieldM w) (fieldR1 w) (fieldR2 w) (fieldR3 w)⟩,
    ⟨"SHLMP",    0xFFF006FF, 0x00000013, fun w => .shlmp (wideReg (fieldR1 w)) (fieldR4 w) (fieldR2 w) (fieldR3 w)⟩,
    ⟨"SHRMP",    0xFFFE06FF, 0x00000014, fun w => .shrmp (wideReg (fieldR1 w)) (fieldR2 w) (fieldR3 w)⟩ ]

/-- R78, R81: opcodes 0x2_, the additive commands. -/
def additiveRows : List Row :=
  [ ⟨"ADD",      0xFFFE00FF, 0x00000020, fun w => .add (fieldR1 w) (fieldR2 w) (fieldR3 w)⟩,
    ⟨"ADDO",     0xFFF000FF, 0x00000021, fun w => .addo (fieldR1 w) (fieldR4 w) (fieldR2 w) (fieldR3 w)⟩,
    ⟨"NEG",      0xFFFFC0FF, 0x00000022, fun w => .neg (fieldR1 w) (fieldR2 w)⟩,
    ⟨"CMP",      0xFFFE00FF, 0x00000023, fun w => .cmp (fieldR1 w) (fieldR2 w) (fieldR3 w)⟩,
    ⟨"ISNEG",    0xFFFFC0FF, 0x00000024, fun w => .isneg (fieldR1 w) (fieldR2 w)⟩,
    ⟨"ISZERO",   0xFFFFC0FF, 0x00000025, fun w => .iszero (fieldR1 w) (fieldR2 w)⟩ ]

/-- R78, R81: opcodes 0x3_ to 0x6_, multiplication, division, rescale and range checks, text. -/
def arithmeticRows : List Row :=
  [ ⟨"MUL",      0xFFFE00FF, 0x00000030, fun w => .mul (fieldR1 w) (fieldR2 w) (fieldR3 w)⟩,
    ⟨"MULL",     0xFFFE00FF, 0x00000031, fun w => .mull (fieldR1 w) (fieldR2 w) (fieldR3 w)⟩,
    ⟨"MUL256",   0xFFFFC6FF, 0x00000032, fun w => .mul256 (wideReg (fieldR1 w)) (fieldR2 w)⟩,
    ⟨"DIV",      0xFC0000FF, 0x00000040, fun w =>
      .div (fieldR1 w) (fieldR4 w) (fieldR2 w) (fieldR5 w) (fieldR3 w) (fieldR6 w)⟩,
    ⟨"RESCALE",  0xFFFE00FF, 0x00000050, fun w => .rescale (fieldR1 w) (fieldR2 w) (fieldR3 w)⟩,
    ⟨"OVF",      0xFFFE00FF, 0x00000051, fun w => .ovf (fieldR1 w) (fieldR2 w) (fieldR3 w)⟩,
    ⟨"TIO",      0xFFFFC7FF, 0x00000052, fun w => .tio (fieldR2 w)⟩,
    ⟨"TIO2",     0xFFFE07FF, 0x00000053, fun w => .tio2 (fieldR2 w) (fieldR3 w)⟩,
    ⟨"TOSTR",    0xFFFFC7FF, 0x00000060, fun w => .tostr (fieldR2 w)⟩ ]

/-- The complete command set (R78). -/
def opcodeTable : List Row := codecRows ++ shiftRows ++ additiveRows ++ arithmeticRows

/-! ### Decoding (R80) -/

/-- Why a word is the encoding of no command; each is reported to the host as IllegalCommand (R230). -/
inductive Reject where
  /-- R80 step 2, R79: no row has this opcode. -/
  | reservedOpcode
  /-- R80 step 3, R74, R75: an unused field, a zero field or the upper bits of a wide-register field is not 0. -/
  | fixedBitsWrong
  /-- R80 step 4: SPLIT or DIV with r1 = r4. -/
  | equalDestinations
deriving DecidableEq, Repr

/-- R80 steps 2 to 4, in that order; total on all 2^32 words. -/
def decode (w : Word) : Except Reject Instr :=
  match opcodeTable.find? (fun r => opcodeOf r.pattern == opcodeOf w) with
  | none => .error .reservedOpcode
  | some r =>
    if w &&& r.mask ≠ r.pattern then .error .fixedBitsWrong
    else if (r.build w).wellFormed then .ok (r.build w)
    else .error .equalDestinations

/-! ### Encoding -/

/-- A register number placed at its field, whose lowest bit is bit `lo` (R73). -/
def regAt (r : Fin 8) (lo : Nat) : Word := (BitVec.ofFin r : BitVec 3).setWidth 32 <<< lo

/-- Format R (R71): opcode, r1 to r6 and m at their bits, the bits 31:27 zero. -/
def formatR (op : BitVec 8) (r1 r2 r3 r4 r5 r6 : Fin 8) (m : Bool) : Word :=
  op.setWidth 32 ||| regAt r1 8 ||| regAt r2 11 ||| regAt r3 14 ||| regAt r4 17 ||| regAt r5 20 ||| regAt r6 23
    ||| (BitVec.ofBool m).setWidth 32 <<< 26

/-- Format I (R72): opcode, r1 and imm16 at their bits, the bits 15:11 zero. -/
def formatI (op : BitVec 8) (r1 : Fin 8) (imm : BitVec 16) : Word :=
  op.setWidth 32 ||| regAt r1 8 ||| imm.setWidth 32 <<< 16

/-- The 3-bit field that names a wide register (R74). -/
def wideField (k : WReg) : Fin 8 := ⟨k.val, by omega⟩

/-- The command word of an instruction (R78); fields the command does not use are 0 (R75). -/
def encode : Instr → Word
  | .zero dd                  => formatR 0x01 dd 0 0 0 0 0 false
  | .empty dd                 => formatR 0x02 dd 0 0 0 0 0 false
  | .fromlong dd xs           => formatR 0x03 dd xs 0 0 0 0 false
  | .tolong xd ds             => formatR 0x04 xd ds 0 0 0 0 false
  | .frombig dd ws xsign      => formatR 0x05 dd (wideField ws) xsign 0 0 0 false
  | .tobig wd xsign ds        => formatR 0x06 (wideField wd) ds 0 xsign 0 0 false
  | .pack dd xlo xhi          => formatR 0x07 dd xlo xhi 0 0 0 false
  | .split xlo xhi ds         => formatR 0x08 xlo ds 0 xhi 0 0 false
  | .li xd imm                => formatI 0x09 xd imm
  | .shld dd xn               => formatR 0x10 dd xn 0 0 0 0 false
  | .shlp dd ds xn            => formatR 0x11 dd ds xn 0 0 0 false
  | .shr roundUp dd ds xn     => formatR 0x12 dd ds xn 0 0 0 roundUp
  | .shlmp wd xnew xlen xn    => formatR 0x13 (wideField wd) xlen xn xnew 0 0 false
  | .shrmp wd xlen xn         => formatR 0x14 (wideField wd) xlen xn 0 0 0 false
  | .add dd da db             => formatR 0x20 dd da db 0 0 0 false
  | .addo dd xdelta da db     => formatR 0x21 dd da db xdelta 0 0 false
  | .neg dd ds                => formatR 0x22 dd ds 0 0 0 0 false
  | .cmp xd da db             => formatR 0x23 xd da db 0 0 0 false
  | .isneg xd ds              => formatR 0x24 xd ds 0 0 0 0 false
  | .iszero xd ds             => formatR 0x25 xd ds 0 0 0 0 false
  | .mul dd da db             => formatR 0x30 dd da db 0 0 0 false
  | .mull dd da xk            => formatR 0x31 dd da xk 0 0 0 false
  | .mul256 wd db             => formatR 0x32 (wideField wd) db 0 0 0 0 false
  | .div dq dr da xa db xb    => formatR 0x40 dq da db dr xa xb false
  | .rescale dd ds xe         => formatR 0x50 dd ds xe 0 0 0 false
  | .ovf xd ds xp             => formatR 0x51 xd ds xp 0 0 0 false
  | .tio ds                   => formatR 0x52 0 ds 0 0 0 0 false
  | .tio2 xlo xhi             => formatR 0x53 0 xlo xhi 0 0 0 false
  | .tostr ds                 => formatR 0x60 0 ds 0 0 0 0 false

/-! ### Words as the opcode table numbers them -/

/-- The command word whose low `nbits` bits are those of `w` and whose other bits are 0. A command is one 32-bit word
and its bit 0 is the table's bit 0 (R70), so no byte is moved. -/
def tableWord (nbits w : Nat) : Word := BitVec.ofNat 32 (w % 2 ^ nbits)

/-- What the decoder reads from a word numbered as spec/opcode_table.json numbers it; none where it refuses. -/
def decodeTableWord (nbits w : Nat) : Option Instr := (decode (tableWord nbits w)).toOption

end Sys2Proof
end

