-- ==== Sys2Proof/Config.lean ====
section
/-! DEFINITION. What an implementation fixes (spec/00_scope.md R9) and the free values (spec/10_state.md R40). -/

namespace Sys2Proof

/-- R9 NEGZERO_POLICY: what a value read does with the pattern sign = 1, magnitude = 0. -/
inductive NegzeroPolicy where
  | canonicalise
  | reject
deriving DecidableEq, Repr

/-- R9: the two parameters the spec leaves open, fixed properties of an implementation (R262). -/
structure Config where
  /-- NEGZERO_POLICY. -/
  negzeroPolicy : NegzeroPolicy
  /-- TOLONG_ACCEPTS_MIN: whether TOLONG converts −2^63 (R103). -/
  tolongAcceptsMin : Bool
deriving DecidableEq, Repr

/-- R9: the spec's defaults. -/
def Config.standard : Config := { negzeroPolicy := .canonicalise, tolongAcceptsMin := true }

/- R40: after a reset the data registers are "unspecified: each bit may be 0 or 1, independently", and "A model must
not take an unspecified register as zero". DESIGN CHOICE (log 1): each is a free value, an opaque function of the
number of resets before this one and of the register's number, about which nothing can be proved. -/

/-- D[i] after reset number n (DESIGN CHOICE, log 1). -/
opaque Config.resetD : Nat → Nat → Dec

/-- X[i] after reset number n (DESIGN CHOICE, log 1). -/
opaque Config.resetX : Nat → Nat → Scalar

/-- W[k] after reset number n (DESIGN CHOICE, log 1). -/
opaque Config.resetW : Nat → Nat → Wide

/-- S[i] after reset number n (DESIGN CHOICE, log 1). -/
opaque Config.resetS : Nat → Nat → Byte

/-- What SLEN is reduced from after reset number n (DESIGN CHOICE, log 1). -/
opaque Config.resetSlen : Nat → Nat

end Sys2Proof
end

