-- ==== Sys2Proof/Machine/State.lean ====
section
/-! DEFINITION. The unit's state (spec/10_state.md R20), the stops of a step, and the state after reset (R40). -/

namespace Sys2Proof.Machine

/-- One step of the host (spec/00_scope.md R13, spec/10_state.md R38): a window access or reset. -/
inductive HostStep where
  /-- `WinRead(addr, n)`. -/
  | read (addr n : Nat)
  /-- `WinWrite(addr, n, v)`; the low `n` bytes of `v` are the data (log 8). -/
  | write (addr n : Nat) (v : BitVec 64)
  /-- The reset event of spec/70_reset_and_hazards.md R260. -/
  | reset
deriving DecidableEq, Repr

/-- Everything the spec gives the unit (R20), its configuration (R9), and three fields that are the model's own. -/
structure State where
  /-- R9: NEGZERO_POLICY and TOLONG_ACCEPTS_MIN; no step changes them (log 2). -/
  cfg : Config
  /-- R21, R26: D0..D7. -/
  dregs : Vector Dec 8
  /-- R27: X0..X7. -/
  xregs : Vector Scalar 8
  /-- R29, R30: W0, W1, each as one 256-bit pattern, limb j being bits 32j+31:32j. -/
  wregs : Vector Wide 2
  /-- R31: S[0..39]. -/
  str : Vector Byte 40
  /-- R31: SLEN. -/
  slen : Word
  /-- R32: STATUS; bit 0 is ERR. -/
  status : Word
  /-- R33: CAUSE. -/
  cause : Word
  /-- R34: ECMD. -/
  ecmd : Word
  /-- The model's own: the host's steps still to come, in issue order (R38, R60; log 3). -/
  host : List HostStep
  /-- The model's own: what the last completed host read returned (R54; log 5). -/
  readData : Option (BitVec 64)
  /-- The model's own: how many resets there have been; it selects fresh free values at the next one (R40; log 1). -/
  resets : Nat
deriving DecidableEq, Repr

/-- Reasons a step stops the machine with a fault. There is none: the unit's four faults are NEXT states, entered by
`State.raise` (spec/60_exceptions.md R234), and "Nothing in the unit is `stuck`"
(spec/93_implementation_defined.md; R266). -/
inductive Fault where
deriving DecidableEq, Repr

/-- Reasons a step has no meaning. -/
inductive Refusal where
  /-- Raised by an arm of `exec` for an instruction that has no meaning yet. Safe. -/
  | notModelled (mnemonic : String)
  /-- Raised by `hostStep` for a host access that is not admitted (spec/20_memory.md R56: "A model should give a host
  step that makes such an access no meaning (a refusal)"). Safe (log 4). -/
  | accessError
deriving DecidableEq, Repr

/-- R40: the state after reset number `n`, out of reset for the configuration `cfg`. STATUS, CAUSE and ECMD are 0;
every data register is a free value (log 1); SLEN is a free value of at most 40. -/
def State.afterReset (cfg : Config) (n : Nat) : State :=
  { cfg := cfg
    dregs := #v[Config.resetD n 0, Config.resetD n 1, Config.resetD n 2, Config.resetD n 3,
                Config.resetD n 4, Config.resetD n 5, Config.resetD n 6, Config.resetD n 7]
    xregs := #v[Config.resetX n 0, Config.resetX n 1, Config.resetX n 2, Config.resetX n 3,
                Config.resetX n 4, Config.resetX n 5, Config.resetX n 6, Config.resetX n 7]
    wregs := #v[Config.resetW n 0, Config.resetW n 1]
    str := Vector.ofFn fun i => Config.resetS n i.val
    slen := BitVec.ofNat 32 (Config.resetSlen n % 41)
    status := 0
    cause := 0
    ecmd := 0
    host := []
    readData := none
    resets := n + 1 }

/-- The unit right after reset (R40, R260), with the spec's default configuration (R9) and an idle host. -/
def State.reset : State := State.afterReset Config.standard 0

end Sys2Proof.Machine
end

