-- ==== Sys2Proof/Machine/Ops.lean ====
section
/-! DEFINITION. The named operations over the state: register access (spec/00_scope.md R13), fault entry and the
return from it (spec/60_exceptions.md R230 to R236), performing a command (spec/30_encoding.md R80), and the reset
event (spec/70_reset_and_hazards.md R260). -/

namespace Sys2Proof.Machine

/-! ### Registers (R13, R26, R27, R29, R31) -/

/-- `D[i]`, the raw pattern. -/
def State.d (s : State) (i : DReg) : Dec := s.dregs.get i
/-- `X[i]`. -/
def State.x (s : State) (i : XReg) : Scalar := s.xregs.get i
/-- `W[k]`, as one 256-bit pattern. -/
def State.w (s : State) (k : WReg) : Wide := s.wregs.get k

/-- `D[i] <- v`. -/
def State.setD (s : State) (i : DReg) (v : Dec) : State := { s with dregs := s.dregs.set i.val v i.isLt }
/-- `X[i] <- v`. -/
def State.setX (s : State) (i : XReg) (v : Scalar) : State := { s with xregs := s.xregs.set i.val v i.isLt }
/-- `W[k] <- v`. -/
def State.setW (s : State) (k : WReg) (v : Wide) : State := { s with wregs := s.wregs.set k.val v k.isLt }
/-- R31, R220: the string buffer and its length, written together. -/
def State.setText (s : State) (str : Vector Byte 40) (slen : Word) : State := { s with str := str, slen := slen }

/-! ### Faults (R230 to R236) -/

/-- R230: the four fault kinds. -/
inductive FaultKind where
  | overflow
  | divisionByZero
  | illegalCommand
  | operandRange
deriving DecidableEq, Repr

/-- R230, R33: the code CAUSE holds. -/
def FaultKind.code : FaultKind → Word
  | .overflow => 1
  | .divisionByZero => 2
  | .illegalCommand => 3
  | .operandRange => 4

/-- R32: STATUS.ERR, the unit's only flag. -/
def State.err (s : State) : Bool := s.status.getLsbD 0

/-- R238: the output line `err_o`, "whose level is STATUS.ERR at all times". -/
def State.errO (s : State) : Bool := s.err

/-- R234: fault entry. STATUS.ERR, CAUSE and ECMD are written and nothing else changes. -/
def State.raise (s : State) (F : FaultKind) (w : Word) : State :=
  { s with status := s.status ||| 1, cause := F.code, ecmd := w }

/-- R236: the host's write of `w` to STATUS. Bits 31:1 ignore writes (R32, R58). -/
def State.clearFault (s : State) (w : Word) : State :=
  if s.err && w.getLsbD 0 then { s with status := s.status &&& ~~~1, cause := 0, ecmd := 0 } else s

/-- R80 steps 1 and 5, R235: command word `w`, whose whole effect is `effect`, given to the unit. In the fault state
it is dropped; a fault of the command is entered with no destination written (R234). -/
def State.command (s : State) (w : Word) (effect : Except FaultKind State) : State :=
  if s.err then s
  else
    match effect with
    | .ok s' => s'
    | .error F => s.raise F w

/-- A command performed by its rule. ECMD is to hold "the whole 32-bit command word" (R232), which is the
instruction's encoding because a word has at most one reading (R75; DEDUCED, log 10). -/
def perform (i : Instr) (s : State) (effect : Except FaultKind State) : Host.Outcome State Fault Refusal :=
  .next (s.command (encode i) effect)

/-! ### Reset -/

/-- R260: the reset event. The control registers become 0 and every data register is a fresh free value (log 1). What
is the host's own (the steps still to come, the data it has read) and the configuration are not the unit's to reset. -/
def State.hardReset (s : State) : State :=
  { State.afterReset s.cfg s.resets with host := s.host, readData := s.readData }

end Sys2Proof.Machine
end

