-- ==== Sys2Proof/Machine/Operands.lean ====
section
/-! DEFINITION. Operand reading: the value read Dv (spec/00_scope.md R13, spec/10_state.md R23) and the readings and
legal ranges of scalar operands (R28). -/

namespace Sys2Proof.Machine

/-- R13 `Dv`, on a pattern: negative zero is read as canonical zero, or raises OperandRange under `reject`. -/
def valueRead (policy : NegzeroPolicy) (b : Dec) : Except FaultKind Dec :=
  if sign b && mag b == 0 then
    match policy with
    | .reject => .error .operandRange
    | .canonicalise => .ok canonicalZero
  else .ok b

/-- R13: `Dv(i)`, the value read of a decimal register. -/
def State.dv (s : State) (i : DReg) : Except FaultKind Dec := valueRead s.cfg.negzeroPolicy (s.d i)

/-- R28: a scalar operand read unsigned, legal range `lo..hi`, else OperandRange. -/
def unsignedInRange (p : Scalar) (hi : Nat) : Except FaultKind Nat :=
  if p.toNat > hi then .error .operandRange else .ok p.toNat

/-- R28: a scalar operand read signed, legal range `lo..hi` of naturals, else OperandRange. -/
def signedInRange (p : Scalar) (lo hi : Nat) : Except FaultKind Nat :=
  if s64 p < lo ∨ s64 p > hi then .error .operandRange else .ok (s64 p).toNat

/-- R25, Glossary "checked": a result magnitude above MAX_UNSCALED raises Overflow. -/
def checked (m : Nat) : Except FaultKind Nat :=
  if m > maxUnscaled then .error .overflow else .ok m

end Sys2Proof.Machine
end

