-- ==== Sys2Proof/Machine/Additive.lean ====
section
/-! DEFINITION. The additive commands (spec/42_additive.md R140 to R145). -/

namespace Sys2Proof.Machine

/-- R140: the exact sum, checked on the sum alone. -/
def execAdd (dd da db : DReg) (s : State) : Host.Outcome State Fault Refusal :=
  perform (.add dd da db) s do
    let a ← s.dv da
    let b ← s.dv db
    let _ ← checked (val a + val b).natAbs
    .ok (s.setD dd (encz (val a + val b)))

/-- R141: the sum's magnitude modulo 2^127 with the sum's sign, and its bit 127 as a signed word; never a fault. -/
def execAddo (dd : DReg) (xdelta : XReg) (da db : DReg) (s : State) : Host.Outcome State Fault Refusal :=
  perform (.addo dd xdelta da db) s do
    let a ← s.dv da
    let b ← s.dv db
    let sum := val a + val b
    let sg := decide (sum < 0)
    .ok ((s.setD dd (enc sg (sum.natAbs % 2 ^ 127))).setX xdelta (deltaWord sg (sum.natAbs / 2 ^ 127)))

/-- R142: the sign is toggled; zero stays canonical. -/
def execNeg (dd ds : DReg) (s : State) : Host.Outcome State Fault Refusal :=
  perform (.neg dd ds) s do
    let b ← s.dv ds
    .ok (s.setD dd (enc (!sign b) (mag b)))

/-- R143: the order of the integers. -/
def execCmp (xd : XReg) (da db : DReg) (s : State) : Host.Outcome State Fault Refusal :=
  perform (.cmp xd da db) s do
    let a ← s.dv da
    let b ← s.dv db
    .ok (s.setX xd (orderWord (val a) (val b)))

/-- R144. -/
def execIsneg (xd : XReg) (ds : DReg) (s : State) : Host.Outcome State Fault Refusal :=
  perform (.isneg xd ds) s do
    let b ← s.dv ds
    .ok (s.setX xd (boolWord (isneg b)))

/-- R145. -/
def execIszero (xd : XReg) (ds : DReg) (s : State) : Host.Outcome State Fault Refusal :=
  perform (.iszero xd ds) s do
    let b ← s.dv ds
    .ok (s.setX xd (boolWord (mag b == 0)))

end Sys2Proof.Machine
end

