-- ==== Sys2Proof/Machine/Codec.lean ====
section
/-! DEFINITION. The codec commands (spec/40_codec.md R100 to R108). -/

namespace Sys2Proof.Machine

/-- R100. -/
def execZero (dd : DReg) (s : State) : Host.Outcome State Fault Refusal :=
  perform (.zero dd) s (.ok (s.setD dd canonicalZero))

/-- R101: "The effect is the same as ZERO's". -/
def execEmpty (dd : DReg) (s : State) : Host.Outcome State Fault Refusal :=
  perform (.empty dd) s (.ok (s.setD dd canonicalZero))

/-- R102. -/
def execFromlong (dd : DReg) (xs : XReg) (s : State) : Host.Outcome State Fault Refusal :=
  perform (.fromlong dd xs) s (.ok (s.setD dd (encz (s64 (s.x xs)))))

/-- R103: the least integer TOLONG converts. -/
def tolongLowest (acceptsMin : Bool) : Int := if acceptsMin then -2 ^ 63 else -(2 ^ 63 - 1)

/-- R103. -/
def execTolong (xd : XReg) (ds : DReg) (s : State) : Host.Outcome State Fault Refusal :=
  perform (.tolong xd ds) s do
    let b ← s.dv ds
    if val b < tolongLowest s.cfg.tolongAcceptsMin ∨ val b > 2 ^ 63 - 1 then .error .overflow
    else .ok (s.setX xd (u64 (val b)))

/-- R104: OperandRange before Overflow (R233). -/
def execFrombig (dd : DReg) (ws : WReg) (xsign : XReg) (s : State) : Host.Outcome State Fault Refusal :=
  perform (.frombig dd ws xsign) s do
    let sgn ← unsignedInRange (s.x xsign) 1
    let m ← checked (s.w ws).toNat
    .ok (s.setD dd (enc (sgn == 1) m))

/-- R105. -/
def execTobig (wd : WReg) (xsign : XReg) (ds : DReg) (s : State) : Host.Outcome State Fault Refusal :=
  perform (.tobig wd xsign ds) s do
    let b ← s.dv ds
    .ok ((s.setW wd (BitVec.ofNat 256 (mag b))).setX xsign (boolWord (isneg b)))

/-- R106: `{ X[xhi], X[xlo] }`; bits are moved, nothing is checked. -/
def execPack (dd : DReg) (xlo xhi : XReg) (s : State) : Host.Outcome State Fault Refusal :=
  perform (.pack dd xlo xhi) s (.ok (s.setD dd (s.x xhi ++ s.x xlo)))

/-- R107: the raw pattern. Equal destinations are IllegalCommand (R80 step 4); decoding has refused them already, so
this check speaks only of terms no word decodes to (log 11). -/
def execSplit (xlo xhi : XReg) (ds : DReg) (s : State) : Host.Outcome State Fault Refusal :=
  perform (.split xlo xhi ds) s
    (if xlo = xhi then .error .illegalCommand
     else .ok ((s.setX xlo ((s.d ds).extractLsb' 0 64)).setX xhi ((s.d ds).extractLsb' 64 64)))

/-- R108, R77: imm16 sign-extended to 64 bits. -/
def execLi (xd : XReg) (imm : BitVec 16) (s : State) : Host.Outcome State Fault Refusal :=
  perform (.li xd imm) s (.ok (s.setX xd (imm.signExtend 64)))

end Sys2Proof.Machine
end

