-- ==== Sys2Proof/Machine/Division.lean ====
section
/-! DEFINITION. The division command (spec/44_division.md R180). -/

namespace Sys2Proof.Machine

/-- R180: quotient and remainder of the rescaled magnitudes U and V. DivisionByZero comes before Overflow (R233), and
Overflow is raised when either output is 10^38 or more. -/
def divideMags (U V : Nat) : Except FaultKind (Nat × Nat) :=
  if V = 0 then .error .divisionByZero
  else if U / V ≥ 10 ^ 38 ∨ U % V ≥ 10 ^ 38 then .error .overflow
  else .ok (U / V, U % V)

/-- R180: truncated division of the rescaled operands. The remainder takes the dividend's sign. Equal destinations
are IllegalCommand (R80 step 4); decoding has refused them already (log 11). -/
def execDiv (dq dr da : DReg) (xa : XReg) (db : DReg) (xb : XReg) (s : State) :
    Host.Outcome State Fault Refusal :=
  perform (.div dq dr da xa db xb) s
    (if dq = dr then .error .illegalCommand
     else do
      let a ← s.dv da
      let b ← s.dv db
      let ea ← signedInRange (s.x xa) 0 38
      let eb ← signedInRange (s.x xb) 0 38
      let qr ← divideMags (mag a * pow10 ea) (mag b * pow10 eb)
      .ok ((s.setD dq (enc (sign a ^^ sign b) qr.1)).setD dr (enc (sign a) qr.2)))

end Sys2Proof.Machine
end

