-- ==== Sys2Proof/Machine/Multiplicative.lean ====
section
/-! DEFINITION. The multiplicative commands (spec/43_multiplicative.md R160 to R162). -/

namespace Sys2Proof.Machine

/-- R160: the exact product of the magnitudes, checked; the sign is the XOR of the operands' signs. -/
def execMul (dd da db : DReg) (s : State) : Host.Outcome State Fault Refusal :=
  perform (.mul dd da db) s do
    let a ← s.dv da
    let b ← s.dv db
    let p ← checked (mag a * mag b)
    .ok (s.setD dd (enc (sign a ^^ sign b) p))

/-- R161: the second operand is a signed 64-bit word. -/
def execMull (dd da : DReg) (xk : XReg) (s : State) : Host.Outcome State Fault Refusal :=
  perform (.mull dd da xk) s do
    let a ← s.dv da
    let k := s64 (s.x xk)
    let p ← checked (mag a * k.natAbs)
    .ok (s.setD dd (enc (sign a ^^ decide (k < 0)) p))

/-- R162: limbs 0..3 of the wide register times the raw 128-bit pattern, as an unsigned 256-bit product. -/
def execMul256 (wd : WReg) (db : DReg) (s : State) : Host.Outcome State Fault Refusal :=
  perform (.mul256 wd db) s
    (.ok (s.setW wd (BitVec.ofNat 256 ((s.w wd).toNat % 2 ^ 128 * (s.d db).toNat))))

end Sys2Proof.Machine
end

