-- ==== Sys2Proof/Machine/Rescale.lean ====
section
/-! DEFINITION. Rescale and the range checks (spec/45_rescale_range.md R200 to R203). -/

namespace Sys2Proof.Machine

/-- R200, e > 0: m · 10^e, checked; POW10 is never indexed above 38. -/
def scaledUp (m e : Nat) : Except FaultKind Nat :=
  if m = 0 then .ok 0
  else if e > 38 then .error .overflow
  else checked (m * pow10 e)

/-- R200, e < 0, with `k = −e`: m / 10^k rounded half-up; 0 for k ≥ 39. -/
def scaledDown (m k : Nat) : Nat :=
  if k ≥ 39 then 0
  else if 2 * (m % pow10 k) ≥ pow10 k then m / pow10 k + 1
  else m / pow10 k

/-- R200: the magnitude of the result; e = 0 makes no range check (R200, R231, R245; R25 (2) beside it: log 13). -/
def rescaledMag (m : Nat) (e : Int) : Except FaultKind Nat :=
  if e = 0 then .ok m
  else if e > 0 then scaledUp m e.toNat
  else .ok (scaledDown m (-e).toNat)

/-- R200: the magnitude is rescaled, the sign is kept. -/
def execRescale (dd ds : DReg) (xe : XReg) (s : State) : Host.Outcome State Fault Refusal :=
  perform (.rescale dd ds xe) s do
    let b ← s.dv ds
    let q ← rescaledMag (mag b) (s64 (s.x xe))
    .ok (s.setD dd (enc (sign b) q))

/-- R201: a precision outside 1..38 is OperandRange. -/
def execOvf (xd : XReg) (ds : DReg) (xp : XReg) (s : State) : Host.Outcome State Fault Refusal :=
  perform (.ovf xd ds xp) s do
    let b ← s.dv ds
    let p ← signedInRange (s.x xp) 1 38
    .ok (s.setX xd (boolWord (decide (mag b ≥ pow10 p))))

/-- R202: "A TIO that does not fault changes no state at all". -/
def execTio (ds : DReg) (s : State) : Host.Outcome State Fault Refusal :=
  perform (.tio ds) s do
    let b ← s.dv ds
    let _ ← checked (mag b)
    .ok s

/-- R203: the magnitude of the pair (low64, high64); bit 63 of the high word, the sign position, is left out. -/
def pairMag (lo hi : Scalar) : Nat := hi.toNat % 2 ^ 63 * 2 ^ 64 + lo.toNat

/-- R203. -/
def execTio2 (xlo xhi : XReg) (s : State) : Host.Outcome State Fault Refusal :=
  perform (.tio2 xlo xhi) s do
    let _ ← checked (pairMag (s.x xlo) (s.x xhi))
    .ok s

end Sys2Proof.Machine
end

