-- ==== Sys2Proof/Machine/Shift.lean ====
section
/-! DEFINITION. The shift commands (spec/41_shift.md R120 to R124). Counts are unsigned 64-bit numbers and are never
masked (R28). -/

namespace Sys2Proof.Machine

/-- R120: the magnitude m · 2^n, checked; 2^n is formed only for n < 127. -/
def shiftedMag (m n : Nat) : Except FaultKind Nat :=
  if m = 0 then .ok 0
  else if n ≥ 127 then .error .overflow
  else checked (m * 2 ^ n)

/-- R120: the sign is preserved, the magnitude is shifted and checked at every count. -/
def execShld (dd : DReg) (xn : XReg) (s : State) : Host.Outcome State Fault Refusal :=
  perform (.shld dd xn) s do
    let b ← s.dv dd
    let p ← shiftedMag (mag b) (s.x xn).toNat
    .ok (s.setD dd (enc (sign b) p))

/-- R121: all 128 bits shift, bit 127 is an ordinary bit. -/
def patternShifted (b : Dec) (n : Nat) : Dec :=
  if n ≥ 128 then 0 else BitVec.ofNat 128 (b.toNat * 2 ^ n)

/-- R121: the raw pattern, unchecked. -/
def execShlp (dd ds : DReg) (xn : XReg) (s : State) : Host.Outcome State Fault Refusal :=
  perform (.shlp dd ds xn) s (.ok (s.setD dd (patternShifted (s.d ds) (s.x xn).toNat)))

/-- R122: the magnitude shifted right, incremented under round_up when any lost bit was 1 (sticky rounding). -/
def stickyShifted (roundUp : Bool) (m n : Nat) : Nat :=
  let q := if n ≥ 127 then 0 else m / 2 ^ n
  let lost := if n ≥ 127 then m else m % 2 ^ n
  if roundUp && lost != 0 then q + 1 else q

/-- R122. -/
def execShr (roundUp : Bool) (dd ds : DReg) (xn : XReg) (s : State) : Host.Outcome State Fault Refusal :=
  perform (.shr roundUp dd ds xn) s do
    let b ← s.dv ds
    .ok (s.setD dd (enc (sign b) (stickyShifted roundUp (mag b) (s.x xn).toNat)))

/-- R123: `ceil(n / 32)`, the limbs a left shift by n adds. -/
def limbsFor (n : Nat) : Nat := (n + 31) / 32

/-- R123: limbs 0..new−1 become those of U · 2^n, U being limbs 0..len−1; limbs new..7 are kept. -/
def limbsShiftedLeft (v : Wide) (len n : Nat) : Wide :=
  let new := len + limbsFor n
  let U := v.toNat % 2 ^ (32 * len)
  BitVec.ofNat 256 (v.toNat / 2 ^ (32 * new) * 2 ^ (32 * new) + U * 2 ^ n)

/-- R123: "the eight-limb buffer is not large enough" raises OperandRange. -/
def execShlmp (wd : WReg) (xnew xlen xn : XReg) (s : State) : Host.Outcome State Fault Refusal :=
  perform (.shlmp wd xnew xlen xn) s do
    let len ← unsignedInRange (s.x xlen) 8
    let n := (s.x xn).toNat
    if len + limbsFor n > 8 then .error .operandRange
    else .ok ((s.setW wd (limbsShiftedLeft (s.w wd) len n)).setX xnew (BitVec.ofNat 64 (len + limbsFor n)))

/-- R124: limbs 0..len−1 become those of floor(U / 2^n); limbs len..7 are kept. -/
def limbsShiftedRight (v : Wide) (len n : Nat) : Wide :=
  let U := v.toNat % 2 ^ (32 * len)
  let Q := if n ≥ 32 * len then 0 else U / 2 ^ n
  BitVec.ofNat 256 (v.toNat / 2 ^ (32 * len) * 2 ^ (32 * len) + Q)

/-- R124. -/
def execShrmp (wd : WReg) (xlen xn : XReg) (s : State) : Host.Outcome State Fault Refusal :=
  perform (.shrmp wd xlen xn) s do
    let len ← unsignedInRange (s.x xlen) 8
    .ok (s.setW wd (limbsShiftedRight (s.w wd) len (s.x xn).toNat))

end Sys2Proof.Machine
end

