-- ==== Sys2Proof/Machine/Text.lean ====
section
/-! DEFINITION. The text conversion command (spec/46_text.md R220). -/

namespace Sys2Proof.Machine

/-- R220: "k is the least number with m < 10^k, or 1 for m = 0"; a 127-bit magnitude has at most 39 digits. -/
def digitCount (m : Nat) : Nat := ((List.range' 1 39).find? (fun k => decide (m < 10 ^ k))).getD 39

/-- R220: digit i from the right. -/
def digit (m i : Nat) : Nat := m / 10 ^ i % 10

/-- R220: `code` of a digit, 0x30 + c. -/
def digitCode (c : Nat) : Byte := BitVec.ofNat 8 (0x30 + c)

/-- R220: `code('-')`. -/
def minusCode : Byte := 0x2D

/-- R220: the k digits, most significant first. -/
def digitCodes (m : Nat) : List Byte :=
  (List.range (digitCount m)).map fun j => digitCode (digit m (digitCount m - 1 - j))

/-- R220: the characters of the string, a leading minus sign for a negative value. -/
def textOf (b : Dec) : List Byte := (if isneg b then [minusCode] else []) ++ digitCodes (mag b)

/-- R220: the whole buffer, 0x00 after the string. -/
def textBuffer (chars : List Byte) : Vector Byte 40 := Vector.ofFn fun i => chars.getD i.val 0

/-- R220: no range check; S and SLEN are overwritten entirely. -/
def execTostr (ds : DReg) (s : State) : Host.Outcome State Fault Refusal :=
  perform (.tostr ds) s do
    let b ← s.dv ds
    .ok (s.setText (textBuffer (textOf b)) (BitVec.ofNat 32 (textOf b).length))

end Sys2Proof.Machine
end

