-- ==== Sys2Proof/Machine/Dispatch.lean ====
section
/-! DEFINITION. One arm per command (spec/30_encoding.md R78, R80 step 5). -/

namespace Sys2Proof.Machine

def exec (i : Instr) (s : State) : Host.Outcome State Fault Refusal :=
  match i with
  | .zero dd => Sys2Proof.Machine.execZero dd s
  | .empty dd => Sys2Proof.Machine.execEmpty dd s
  | .fromlong dd xs => Sys2Proof.Machine.execFromlong dd xs s
  | .tolong xd ds => Sys2Proof.Machine.execTolong xd ds s
  | .frombig dd ws xsign => Sys2Proof.Machine.execFrombig dd ws xsign s
  | .tobig wd xsign ds => Sys2Proof.Machine.execTobig wd xsign ds s
  | .pack dd xlo xhi => Sys2Proof.Machine.execPack dd xlo xhi s
  | .split xlo xhi ds => Sys2Proof.Machine.execSplit xlo xhi ds s
  | .li xd imm => Sys2Proof.Machine.execLi xd imm s
  | .shld dd xn => Sys2Proof.Machine.execShld dd xn s
  | .shlp dd ds xn => Sys2Proof.Machine.execShlp dd ds xn s
  | .shr roundUp dd ds xn => Sys2Proof.Machine.execShr roundUp dd ds xn s
  | .shlmp wd xnew xlen xn => Sys2Proof.Machine.execShlmp wd xnew xlen xn s
  | .shrmp wd xlen xn => Sys2Proof.Machine.execShrmp wd xlen xn s
  | .add dd da db => Sys2Proof.Machine.execAdd dd da db s
  | .addo dd xdelta da db => Sys2Proof.Machine.execAddo dd xdelta da db s
  | .neg dd ds => Sys2Proof.Machine.execNeg dd ds s
  | .cmp xd da db => Sys2Proof.Machine.execCmp xd da db s
  | .isneg xd ds => Sys2Proof.Machine.execIsneg xd ds s
  | .iszero xd ds => Sys2Proof.Machine.execIszero xd ds s
  | .mul dd da db => Sys2Proof.Machine.execMul dd da db s
  | .mull dd da xk => Sys2Proof.Machine.execMull dd da xk s
  | .mul256 wd db => Sys2Proof.Machine.execMul256 wd db s
  | .div dq dr da xa db xb => Sys2Proof.Machine.execDiv dq dr da xa db xb s
  | .rescale dd ds xe => Sys2Proof.Machine.execRescale dd ds xe s
  | .ovf xd ds xp => Sys2Proof.Machine.execOvf xd ds xp s
  | .tio ds => Sys2Proof.Machine.execTio ds s
  | .tio2 xlo xhi => Sys2Proof.Machine.execTio2 xlo xhi s
  | .tostr ds => Sys2Proof.Machine.execTostr ds s

end Sys2Proof.Machine
end

