-- ==== Sys2Proof/Machine/Window.lean ====
section
/-! DEFINITION. The register window (spec/20_memory.md R50 to R58): its map, its byte image of the registers, which
accesses are admitted, and what reads and writes do. The unit has no other address space (R50). -/

namespace Sys2Proof.Machine

/-! ### The map (R51) -/

/-- R51: the four data regions. -/
inductive DataRegion where
  | d | x | w | s
deriving DecidableEq, Repr

/-- R51: the five control registers. -/
inductive ControlReg where
  | slen | cmd | status | cause | ecmd
deriving DecidableEq, Repr

/-- R51: the data region an offset lies in. -/
def dataRegion (a : Nat) : Option DataRegion :=
  if a < 0x080 then some .d
  else if a < 0x0C0 then some .x
  else if a < 0x100 then none
  else if a < 0x140 then some .w
  else if a < 0x168 then some .s
  else none

/-- R51: the control register whose four bytes an offset lies in. -/
def controlReg (a : Nat) : Option ControlReg :=
  if a < 0x168 then none
  else if a < 0x16C then some .slen
  else if a < 0x170 then none
  else if a < 0x174 then some .cmd
  else if a < 0x178 then some .status
  else if a < 0x17C then some .cause
  else if a < 0x180 then some .ecmd
  else none

/-- R51, R52: the decimal register that holds offset `a` of the D region. -/
def dregAt (a : Nat) : DReg := ⟨a / 16 % 8, Nat.mod_lt _ (by decide)⟩
/-- R51: the scalar register that holds offset `a` of the X region. -/
def xregAt (a : Nat) : XReg := ⟨(a - 0x080) / 8 % 8, Nat.mod_lt _ (by decide)⟩
/-- R51, R53: the wide register that holds offset `a` of the W region. -/
def wregAt (a : Nat) : WReg := ⟨(a - 0x100) / 32 % 2, Nat.mod_lt _ (by decide)⟩
/-- R51: the character of S at offset `a` of the S region. -/
def strAt (a : Nat) : Fin 40 := ⟨(a - 0x140) % 40, Nat.mod_lt _ (by decide)⟩

/-! ### Admitted accesses (R55) -/

/-- R55 (c), first half: every byte lies in one and the same data region. -/
def insideOneRegion (a n : Nat) : Bool :=
  (dataRegion a).isSome && (List.range n).all fun i => dataRegion (a + i) == dataRegion a

/-- R55 (c), second half: four bytes exactly at a control register. -/
def atControlReg (a n : Nat) : Bool := n == 4 && a % 4 == 0 && (controlReg a).isSome

/-- R55: size, natural alignment, and place. Anything else is an access error (R56). -/
def admitted (a n : Nat) : Bool :=
  (n == 1 || n == 2 || n == 4 || n == 8) && a % n == 0 && (insideOneRegion a n || atControlReg a n)

/-! ### Reading (R52 to R54) -/

/-- What a control register reads as: CMD as 0 (R35), reserved bits as 0 (R31, R32, R33). -/
def State.controlWord (s : State) : ControlReg → Word
  | .slen => s.slen &&& 0x3F
  | .cmd => 0
  | .status => s.status &&& 1
  | .cause => s.cause &&& 7
  | .ecmd => s.ecmd

/-- R52, R53: the byte of a data region at offset `a`, little-endian in every register. -/
def State.dataByte (s : State) (a : Nat) : DataRegion → Byte
  | .d => byteOf (s.d (dregAt a)) (a % 16)
  | .x => byteOf (s.x (xregAt a)) (a % 8)
  | .w => byteOf (s.w (wregAt a)) (a % 32)
  | .s => s.str.get (strAt a)

/-- R54: `byte(a)`, the window byte at offset `a`; none at a reserved offset. -/
def State.windowByte (s : State) (a : Nat) : Option Byte :=
  match dataRegion a, controlReg a with
  | some r, _ => some (s.dataByte a r)
  | none, some c => some (byteOf (s.controlWord c) (a % 4))
  | none, none => none

/-- R54: the n bytes from `a`, the first the least significant. -/
def State.windowNat (s : State) (a : Nat) : Nat → Nat
  | 0 => 0
  | n + 1 => ((s.windowByte a).getD 0).toNat + 256 * s.windowNat (a + 1) n

/-- R54: what an admitted `WinRead(a, n)` returns. -/
def State.winRead (s : State) (a n : Nat) : BitVec 64 := BitVec.ofNat 64 (s.windowNat a n)

/-! ### Writing (R54, R57, R58) -/

/-- R54: one byte of a data region stored; S drops writes (R58). -/
def State.writeByte (s : State) (a : Nat) (v : Byte) : State :=
  match dataRegion a with
  | some .d => s.setD (dregAt a) (withByte (s.d (dregAt a)) (a % 16) v)
  | some .x => s.setX (xregAt a) (withByte (s.x (xregAt a)) (a % 8) v)
  | some .w => s.setW (wregAt a) (withByte (s.w (wregAt a)) (a % 32) v)
  | some .s => s
  | none => s

/-- R54: `byte(a + i) <- v[8i+7:8i]` for each i below n. -/
def State.writeBytes (s : State) (a : Nat) (v : BitVec 64) : Nat → State
  | 0 => s
  | n + 1 => (s.writeBytes a v n).writeByte (a + n) (byteOf v n)

/-- An admitted `WinWrite(a, n, v)` other than to CMD. STATUS clears the fault state (R57 (b), R236); SLEN, CAUSE and
ECMD drop writes (R58). -/
def State.winWrite (s : State) (a n : Nat) (v : BitVec 64) : State :=
  match controlReg a with
  | some .status => s.clearFault (v.setWidth 32)
  | some .slen => s
  | some .cmd => s
  | some .cause => s
  | some .ecmd => s
  | none => s.writeBytes a v n

/-- The window offset of CMD (R35, R51). -/
def cmdOffset : Nat := 0x170

/-- The window offset of STATUS (R32, R51). -/
def statusOffset : Nat := 0x174

end Sys2Proof.Machine
end

