-- ==== Sys2Proof/Machine/Execute.lean ====
section
/-! DEFINITION. What the unit does with a command word (spec/30_encoding.md R80), and one step of the host
(spec/20_memory.md R56, R57, R60; spec/70_reset_and_hazards.md R260). -/

namespace Sys2Proof.Machine

/-- R80: `Execute(w)`. In the fault state the word is dropped, legal or not (R235): both branches go through
`State.command`. -/
def execute (w : Word) (s : State) : Host.Outcome State Fault Refusal :=
  match decode w with
  | .ok i => exec i s
  | .error _ => .next (s.command w (.error .illegalCommand))

/-- One host step. A write to CMD gives its word to the unit, which executes it to completion (R57 (a), R59). An access
that is not admitted has no meaning (R56; log 4). -/
def hostStep (h : HostStep) (s : State) : Host.Outcome State Fault Refusal :=
  match h with
  | .read a n => if admitted a n then .next { s with readData := some (s.winRead a n) } else .refused .accessError
  | .write a n v =>
    if admitted a n then
      if a = cmdOffset then execute (v.setWidth 32) s else .next (s.winWrite a n v)
    else .refused .accessError
  | .reset => .next s.hardReset

/-- R60: the host's steps take effect in the order it issued them, one at a time. With none to come the unit is idle:
"nothing runs until the host writes CMD" (R260; log 7). -/
def advance (s : State) : Host.Outcome State Fault Refusal :=
  match s.host with
  | [] => .next s
  | h :: rest => hostStep h { s with host := rest }

/-- The host step that gives the unit a command word (R57 (a)). -/
def commandWrite (w : Word) : HostStep := .write cmdOffset 4 (w.setWidth 64)

/-- The state in which the host's next step is to write command word `w` to CMD. -/
def State.withCommand (s : State) (w : Word) : State := { s with host := commandWrite w :: s.host }

end Sys2Proof.Machine
end

