-- ==== Sys2Proof/Machine/Step.lean ====
section
/-! DEFINITION. One step of the machine, and how an instruction word is placed for the next step. -/

namespace Sys2Proof.Machine

/-- One step: the host's next step, taken in issue order (spec/20_memory.md R60). -/
def step (s : State) : Host.Outcome State Fault Refusal := advance s

/-- The unit does not fetch (spec/10_state.md R38, spec/20_memory.md R62): a command reaches it by value, as the data
of the host's write to CMD. So the word is placed as the host's very next step, ahead of any already to come. -/
def State.withFetchWord (s : State) (nbits w : Nat) : State := s.withCommand (tableWord nbits w)

end Sys2Proof.Machine
end

