-- ==== Sys2Proof/Machine/Adder.lean ====
section
/-! DEFINITION. The carry-detecting adder on two 64-bit halves (spec/42_additive.md R146). The meanings of ADD and ADDO
are the contracts R140 and R141; that this datapath delivers the same is a statement of its own. -/

namespace Sys2Proof.Machine

/-- R146: `lo(x) = x[63:0]`. -/
def lowHalf (b : Dec) : Nat := b.toNat % 2 ^ 64

/-- R146: `hi(x) = x[126:64]`, 63 bits. -/
def highHalf (b : Dec) : Nat := b.toNat / 2 ^ 64 % 2 ^ 63

/-- What the adder delivers: the result's sign, its magnitude below 2^127, and the carry detected in bit 127. -/
structure AdderResult where
  negative : Bool
  magnitude : Nat
  carry : Nat
deriving DecidableEq, Repr

/-- R146, same sign: the magnitudes added with the carry across the halves. -/
def addHalves (a b : Dec) : AdderResult :=
  let t := lowHalf a + lowHalf b
  let c := t / 2 ^ 64
  let h := highHalf a + highHalf b + c
  { negative := sign a, magnitude := h % 2 ^ 63 * 2 ^ 64 + t % 2 ^ 64, carry := h / 2 ^ 63 }

/-- R146, opposite signs: the smaller magnitude subtracted from the larger with the borrow across the halves. -/
def subHalves (big small : Dec) : AdderResult :=
  let t : Int := (lowHalf big : Int) - lowHalf small
  let bw : Int := if t < 0 then 1 else 0
  let h : Int := (highHalf big : Int) - highHalf small - bw
  { negative := sign big, magnitude := (h * 2 ^ 64 + t % 2 ^ 64).toNat, carry := 0 }

/-- R146: the adder, on operand patterns already canonicalised. -/
def adder (a b : Dec) : AdderResult :=
  if sign a = sign b then addHalves a b
  else if mag a ≥ mag b then subHalves a b else subHalves b a

/-- R146: ADD's check and result from the adder's output. -/
def adderAdd (a b : Dec) : Except FaultKind Dec :=
  let r := adder a b
  if r.carry = 1 ∨ r.magnitude > maxUnscaled then .error .overflow else .ok (enc r.negative r.magnitude)

/-- R146: ADDO's two results from the adder's output. -/
def adderAddo (a b : Dec) : Dec × Scalar :=
  let r := adder a b
  (enc r.negative r.magnitude, deltaWord r.negative r.carry)

end Sys2Proof.Machine
end

