-- ==== Sys2Proof/Machine/Assembler.lean ====
section
/-! DEFINITION. Assembler syntax and pseudo-instructions (spec/30_encoding.md R82, R83). Neither introduces an
encoding: what reaches the unit is the encoded commands. -/

namespace Sys2Proof.Machine

/-- R82: a decimal register's name. -/
def dregName (i : DReg) : String := "d" ++ toString i.val
/-- R82: a scalar register's name. -/
def xregName (i : XReg) : String := "x" ++ toString i.val
/-- R82: a wide register's name. -/
def wregName (k : WReg) : String := "w" ++ toString k.val

/-- R82: `mnemonic operand, operand, ...`. -/
def asmLine (mnemonic : String) (operands : List String) : String :=
  mnemonic ++ " " ++ String.intercalate ", " operands

/-- R82: the assembly of a command, destinations first. -/
def assembly : Instr → String
  | .zero dd => asmLine "zero" [dregName dd]
  | .empty dd => asmLine "empty" [dregName dd]
  | .fromlong dd xs => asmLine "fromlong" [dregName dd, xregName xs]
  | .tolong xd ds => asmLine "tolong" [xregName xd, dregName ds]
  | .frombig dd ws xsign => asmLine "frombig" [dregName dd, wregName ws, xregName xsign]
  | .tobig wd xsign ds => asmLine "tobig" [wregName wd, xregName xsign, dregName ds]
  | .pack dd xlo xhi => asmLine "pack" [dregName dd, xregName xlo, xregName xhi]
  | .split xlo xhi ds => asmLine "split" [xregName xlo, xregName xhi, dregName ds]
  | .li xd imm => asmLine "li" [xregName xd, toString imm.toInt]
  | .shld dd xn => asmLine "shld" [dregName dd, xregName xn]
  | .shlp dd ds xn => asmLine "shlp" [dregName dd, dregName ds, xregName xn]
  | .shr roundUp dd ds xn => asmLine (if roundUp then "shr.ru" else "shr") [dregName dd, dregName ds, xregName xn]
  | .shlmp wd xnew xlen xn => asmLine "shlmp" [wregName wd, xregName xnew, xregName xlen, xregName xn]
  | .shrmp wd xlen xn => asmLine "shrmp" [wregName wd, xregName xlen, xregName xn]
  | .add dd da db => asmLine "add" [dregName dd, dregName da, dregName db]
  | .addo dd xdelta da db => asmLine "addo" [dregName dd, xregName xdelta, dregName da, dregName db]
  | .neg dd ds => asmLine "neg" [dregName dd, dregName ds]
  | .cmp xd da db => asmLine "cmp" [xregName xd, dregName da, dregName db]
  | .isneg xd ds => asmLine "isneg" [xregName xd, dregName ds]
  | .iszero xd ds => asmLine "iszero" [xregName xd, dregName ds]
  | .mul dd da db => asmLine "mul" [dregName dd, dregName da, dregName db]
  | .mull dd da xk => asmLine "mull" [dregName dd, dregName da, xregName xk]
  | .mul256 wd db => asmLine "mul256" [wregName wd, dregName db]
  | .div dq dr da xa db xb =>
    asmLine "div" [dregName dq, dregName dr, dregName da, xregName xa, dregName db, xregName xb]
  | .rescale dd ds xe => asmLine "rescale" [dregName dd, dregName ds, xregName xe]
  | .ovf xd ds xp => asmLine "ovf" [xregName xd, dregName ds, xregName xp]
  | .tio ds => asmLine "tio" [dregName ds]
  | .tio2 xlo xhi => asmLine "tio2" [xregName xlo, xregName xhi]
  | .tostr ds => asmLine "tostr" [dregName ds]

/-- R82: an immediate is in −32768..32767; "an assembler must refuse one outside that range". -/
def assembleLi (xd : XReg) (imm : Int) : Option Instr :=
  if -32768 ≤ imm ∧ imm ≤ 32767 then some (.li xd (BitVec.ofInt 16 imm)) else none

/-- R83: `sub dd, da, db, dt`, with the condition dt ≠ da. -/
def pseudoSub (dd da db dt : DReg) : Option (List Instr) :=
  if dt = da then none else some [.neg dt db, .add dd da dt]

/-- R83: `mov dd, ds, xt`. -/
def pseudoMov (dd ds : DReg) (xt : XReg) : List Instr := [.li xt 0, .shr false dd ds xt]

end Sys2Proof.Machine
end

