-- ==== Sys2Proof/Machine/LimbMultiplier.lean ====
section
/-! DEFINITION. Limb arrays, and the limb multiplier with destructive accumulation (spec/43_multiplicative.md R163,
R160). The meanings of MUL, MULL and MUL256 are the exact products of R160 to R162; that this array delivers them is a
statement of its own. A limb array is a list of naturals below 2^32, the least significant first. -/

namespace Sys2Proof.Machine

/-- Glossary "Limb": a digit of the base-2^32 representation. -/
def limbBase : Nat := 2 ^ 32

/-- The low `n` limbs of a natural. -/
def toLimbs : Nat → Nat → List Nat
  | 0, _ => []
  | n + 1, v => v % limbBase :: toLimbs n (v / limbBase)

/-- R29: `sum over j of limb[j] · 2^(32j)`. -/
def fromLimbs : List Nat → Nat
  | [] => 0
  | x :: xs => x + limbBase * fromLimbs xs

/-- R163: "ripple the last carry upward" while it is not 0. -/
def ripple : List Nat → Nat → List Nat
  | [], _ => []
  | l :: ls, carry =>
    if carry = 0 then l :: ls
    else (l + carry) % limbBase :: ripple ls ((l + carry) / limbBase)

/-- R163, the loop over j: x · r added into the limbs, then the ripple. -/
def accumulateRow (x : Nat) : List Nat → List Nat → Nat → List Nat
  | r :: rs, l :: ls, carry =>
    (x * r + l + carry) % limbBase :: accumulateRow x rs ls ((x * r + l + carry) / limbBase)
  | [], ls, carry => ripple ls carry
  | _ :: _, [], _ => []

/-- R163, the pass for limb i: "take the multiplicand limb out, free its place", and accumulate from there. -/
def multiplyPass (r l : List Nat) (i : Nat) : List Nat :=
  l.take i ++ accumulateRow (l.getD i 0) r (0 :: l.drop (i + 1)) 0

/-- R163: limbs 4..7 cleared, then the passes for i = 3 down to 0. -/
def limbMultiply (l r : List Nat) : List Nat :=
  [3, 2, 1, 0].foldl (multiplyPass r) (l.take 4 ++ [0, 0, 0, 0])

/-- R160: MUL's product and check on limbs: Overflow iff any of limbs 4..7 is nonzero or the low four exceed
MAX_UNSCALED. -/
def limbProduct (m k : Nat) : Except FaultKind Nat :=
  let p := limbMultiply (toLimbs 8 m) (toLimbs 4 k)
  if (p.drop 4).any (· != 0) ∨ fromLimbs (p.take 4) > maxUnscaled then .error .overflow
  else .ok (fromLimbs (p.take 4))

end Sys2Proof.Machine
end

