-- ==== Sys2Proof/Machine/Divider.lean ====
section
/-! DEFINITION. The divider's datapath, Knuth's Algorithm D over base-2^32 limbs (spec/44_division.md R182 to R186),
and RESCALE's use of the multiplier and the divider (spec/45_rescale_range.md R200). The meanings of DIV and RESCALE
are the contracts R180 and R200; that this datapath delivers the same is a statement of its own. The scratch arrays
are hidden (spec/10_state.md R36): they are values inside these functions, not state. -/

namespace Sys2Proof.Machine

/-- R183: "index of the highest nonzero limb + 1"; 0 for the value 0. -/
def significantLimbs : List Nat → Nat
  | [] => 0
  | x :: xs => if significantLimbs xs = 0 then (if x = 0 then 0 else 1) else significantLimbs xs + 1

/-- R183: "a multi-limb unsigned comparison from the top limb down", of arrays of one length. -/
def limbsBelow : List Nat → List Nat → Bool
  | x :: xs, y :: ys => limbsBelow xs ys || (xs == ys && decide (x < y))
  | _, _ => false

/-- R11: `clz32(x)` for a 32-bit x ≠ 0. -/
def clz32 (x : Nat) : Nat := 31 - Nat.log2 x

/-! ### The single-limb divisor (R183) -/

/-- R183: one pass from the top limb down with a 64-bit accumulator; the quotient limbs and the remainder. -/
def divideByLimb (v0 : Nat) : List Nat → List Nat × Nat
  | [] => ([], 0)
  | u :: us =>
    let (q, rem) := divideByLimb v0 us
    let acc := rem * limbBase + u
    (acc / v0 :: q, acc % v0)

/-! ### The general case (R184) -/

/-- R184: the correction loop on the trial quotient limb. `fuel` bounds it at the two decrements that the guard
`rhat < 2^32` allows when the divisor's top limb has its high bit set (DEDUCED, log 12). -/
def correctQhat (vTop vNext uNext : Nat) : Nat → Nat → Nat → Nat
  | 0, qhat, _ => qhat
  | fuel + 1, qhat, rhat =>
    if rhat < limbBase ∧ qhat * vNext > rhat * limbBase + uNext then
      correctQhat vTop vNext uNext fuel (qhat - 1) (rhat + vTop)
    else qhat

/-- R184: the trial quotient limb of a window of n + 1 limbs, after correction. -/
def trialQuotient (n : Nat) (vn window : List Nat) : Nat :=
  let vTop := vn.getD (n - 1) 0
  let num := window.getD n 0 * limbBase + window.getD (n - 1) 0
  let qhat := min (num / vTop) (limbBase - 1)
  correctQhat vTop (vn.getD (n - 2) 0) (window.getD (n - 2) 0) 2 qhat (num - qhat * vTop)

/-- R184: multiply and subtract `qhat · vn` from the window; the new window and the final borrow. -/
def mulSub (qhat : Nat) : List Nat → List Nat → Nat → Nat → List Nat × Nat
  | v :: vs, u :: us, carry, borrow =>
    let p := qhat * v + carry
    let t : Int := (u : Int) - ((p % limbBase : Nat) : Int) - borrow
    let (w, b) := mulSub qhat vs us (p / limbBase) (if t < 0 then 1 else 0)
    ((t % (limbBase : Int)).toNat :: w, b)
  | [], u :: _, carry, borrow =>
    let t : Int := (u : Int) - carry - borrow
    ([(t % (limbBase : Int)).toNat], if t < 0 then 1 else 0)
  | _, [], _, borrow => ([], borrow)

/-- R184: add `vn` back once; the final carry "cancels the borrow and is dropped". -/
def addBack : List Nat → List Nat → Nat → List Nat
  | v :: vs, u :: us, c => (u + v + c) % limbBase :: addBack vs us ((u + v + c) / limbBase)
  | [], u :: _, c => [(u + c) % limbBase]
  | _, [], _ => []

/-- R184: one quotient limb: the new window `un[j .. j+n]` and q[j]. -/
def quotientStep (n : Nat) (vn window : List Nat) : List Nat × Nat :=
  let qhat := trialQuotient n vn window
  let (w, borrow) := mulSub qhat vn window 0 0
  if borrow = 1 then (addBack vn w 0, qhat - 1) else (w, qhat)

/-- R184: the loop over j, for the `count` limbs j = count − 1 down to 0; the quotient limbs and what is left of `un`. -/
def quotientLoop (n : Nat) (vn : List Nat) : Nat → List Nat → List Nat × List Nat
  | 0, un => ([], un)
  | j + 1, un =>
    let (w, qj) := quotientStep n vn ((un.drop j).take (n + 1))
    let (q, un') := quotientLoop n vn j (un.take j ++ w ++ un.drop (j + n + 1))
    (q ++ [qj], un')

/-- R184, R185: the general case for n ≥ 2, m = L − n ≥ 0: normalise by s, run the loop, de-normalise the remainder.
`un` has L + 1 limbs (R186). -/
def divideGeneral (L n : Nat) (u v : List Nat) : Nat × Nat :=
  let s := clz32 (v.getD (n - 1) 0)
  let vn := toLimbs n (fromLimbs v * 2 ^ s)
  let un := toLimbs (L + 1) (fromLimbs u * 2 ^ s)
  let (q, rest) := quotientLoop n vn (L - n + 1) un
  (fromLimbs q, fromLimbs (rest.take n) / 2 ^ s)

/-- R183: the divider on two limb arrays of one length, the divisor not 0: the short dividend first, then the
single-limb divisor, then the general case. -/
def limbDivide (u v : List Nat) : Nat × Nat :=
  let L := significantLimbs u
  let n := significantLimbs v
  if limbsBelow u v then (0, fromLimbs u)
  else if n = 1 then
    let (q, rem) := divideByLimb (v.getD 0 0) (u.take L)
    (fromLimbs q, rem)
  else divideGeneral L n u v

/-- R182: an operand's magnitude in limbs 0..3 of a scratch array, multiplied in place by a power of ten. -/
def rescaledLimbs (m e : Nat) : List Nat := limbMultiply (toLimbs 8 m) (toLimbs 4 (pow10 e))

/-- R182, R183, R185: quotient and remainder magnitudes of a DIV, with its faults. -/
def datapathDivide (ma ea mb eb : Nat) : Except FaultKind (Nat × Nat) :=
  let u := rescaledLimbs ma ea
  let v := rescaledLimbs mb eb
  if significantLimbs v = 0 then .error .divisionByZero
  else if (limbDivide u v).1 ≥ 10 ^ 38 ∨ (limbDivide u v).2 ≥ 10 ^ 38 then .error .overflow
  else .ok (limbDivide u v)

/-- R200, "The datapath": scaling up by the limb multiplier with the check of R160. -/
def datapathScaleUp (m e : Nat) : Except FaultKind Nat := limbProduct m (pow10 e)

/-- R200, "The datapath": scaling down, for k in 1..38, by the divider and a comparison of 2r with d. -/
def datapathScaleDown (m k : Nat) : Nat :=
  let qr := limbDivide (toLimbs 8 m) (toLimbs 8 (pow10 k))
  if 2 * qr.2 ≥ pow10 k then qr.1 + 1 else qr.1

end Sys2Proof.Machine
end

