-- ==== Sys2Proof/Safety.lean ====
section
/-! DEFINITION. What counts as safe, in the terms the statements use: the control invariant, fault entry seen from
outside, what a command may change, and which command reads and writes what (spec/30_encoding.md R78). -/

namespace Sys2Proof.Machine

/-! ### Comparing two states -/

/-- Every decimal, scalar and wide register outside the three lists holds in `t` what it held in `s`. -/
def SameRegistersExcept (s t : State) (ds : List DReg) (xs : List XReg) (ws : List WReg) : Prop :=
  (∀ i, i ∉ ds → t.d i = s.d i) ∧ (∀ i, i ∉ xs → t.x i = s.x i) ∧ (∀ k, k ∉ ws → t.w k = s.w k)

/-- The string buffer and its length are as they were. -/
def SameText (s t : State) : Prop := t.str = s.str ∧ t.slen = s.slen

/-- STATUS, CAUSE and ECMD are as they were. -/
def SameControl (s t : State) : Prop := t.status = s.status ∧ t.cause = s.cause ∧ t.ecmd = s.ecmd

/-- The configuration, the host's steps to come, the data it has read and the reset counter are as they were. -/
def SameOutside (s t : State) : Prop :=
  t.cfg = s.cfg ∧ t.host = s.host ∧ t.readData = s.readData ∧ t.resets = s.resets

/-- `t` differs from `s` at most in the registers of the three lists: the frame of a command that completes and does
not write text (R234, R264). -/
def ChangesOnly (s t : State) (ds : List DReg) (xs : List XReg) (ws : List WReg) : Prop :=
  SameRegistersExcept s t ds xs ws ∧ SameText s t ∧ SameControl s t ∧ SameOutside s t

/-- R234: fault F was entered from `s` by command word `w`, and nothing but STATUS.ERR, CAUSE and ECMD changed. -/
def FaultEntered (s t : State) (F : FaultKind) (w : Word) : Prop :=
  t.err = true ∧ t.status >>> 1 = s.status >>> 1 ∧ t.cause = F.code ∧ t.ecmd = w
    ∧ SameRegistersExcept s t [] [] [] ∧ SameText s t ∧ SameOutside s t

/-! ### The control invariant -/

/-- R31 to R34, R237: STATUS has no bit set above ERR; CAUSE is 0 exactly when ERR is 0, and at most 4; ECMD is 0 when
ERR is 0; SLEN is at most 40. -/
structure ControlInvariant (s : State) : Prop where
  status_reserved : s.status.toNat ≤ 1
  cause_zero_iff : s.cause = 0 ↔ s.err = false
  cause_range : s.cause.toNat ≤ 4
  ecmd_zero : s.err = false → s.ecmd = 0
  slen_range : s.slen.toNat ≤ 40

/-- A safe state: the control invariant holds and the unit is not in the fault state. -/
def Safe (s : State) : Prop := ControlInvariant s ∧ s.err = false

/-! ### Sequences of commands -/

/-- Commands performed in list order (R59), stopping where one has no next state. -/
def execAll : List Instr → State → Host.Outcome State Fault Refusal
  | [], s => .next s
  | i :: is, s =>
    match exec i s with
    | .next t => execAll is t
    | .fault r => .fault r
    | .refused r => .refused r

/-! ### What each command reads and writes (R78) -/

/-- The decimal registers a command writes. -/
def decDests : Instr → List DReg
  | .zero dd | .empty dd | .fromlong dd _ | .frombig dd _ _ | .pack dd _ _ | .shld dd _ | .shlp dd _ _ | .shr _ dd _ _
  | .add dd _ _ | .addo dd _ _ _ | .neg dd _ | .mul dd _ _ | .mull dd _ _ | .rescale dd _ _ => [dd]
  | .div dq dr _ _ _ _ => [dq, dr]
  | .tolong _ _ | .tobig _ _ _ | .split _ _ _ | .li _ _ | .shlmp _ _ _ _ | .shrmp _ _ _ | .cmp _ _ _ | .isneg _ _
  | .iszero _ _ | .mul256 _ _ | .ovf _ _ _ | .tio _ | .tio2 _ _ | .tostr _ => []

/-- The scalar registers a command writes. -/
def scalarDests : Instr → List XReg
  | .tolong xd _ | .li xd _ | .cmp xd _ _ | .isneg xd _ | .iszero xd _ | .ovf xd _ _ => [xd]
  | .tobig _ xsign _ => [xsign]
  | .split xlo xhi _ => [xlo, xhi]
  | .shlmp _ xnew _ _ => [xnew]
  | .addo _ xdelta _ _ => [xdelta]
  | .zero _ | .empty _ | .fromlong _ _ | .frombig _ _ _ | .pack _ _ _ | .shld _ _ | .shlp _ _ _ | .shr _ _ _ _
  | .shrmp _ _ _ | .add _ _ _ | .neg _ _ | .mul _ _ _ | .mull _ _ _ | .mul256 _ _ | .div _ _ _ _ _ _
  | .rescale _ _ _ | .tio _ | .tio2 _ _ | .tostr _ => []

/-- The wide registers a command writes. -/
def wideDests : Instr → List WReg
  | .tobig wd _ _ | .shlmp wd _ _ _ | .shrmp wd _ _ | .mul256 wd _ => [wd]
  | .zero _ | .empty _ | .fromlong _ _ | .tolong _ _ | .frombig _ _ _ | .pack _ _ _ | .split _ _ _ | .li _ _
  | .shld _ _ | .shlp _ _ _ | .shr _ _ _ _ | .add _ _ _ | .addo _ _ _ _ | .neg _ _ | .cmp _ _ _ | .isneg _ _
  | .iszero _ _ | .mul _ _ _ | .mull _ _ _ | .div _ _ _ _ _ _ | .rescale _ _ _ | .ovf _ _ _ | .tio _ | .tio2 _ _
  | .tostr _ => []

/-- R31, R264: TOSTR alone writes S and SLEN. -/
def writesText : Instr → Bool
  | .tostr _ => true
  | .zero _ | .empty _ | .fromlong _ _ | .tolong _ _ | .frombig _ _ _ | .tobig _ _ _ | .pack _ _ _ | .split _ _ _
  | .li _ _ | .shld _ _ | .shlp _ _ _ | .shr _ _ _ _ | .shlmp _ _ _ _ | .shrmp _ _ _ | .add _ _ _ | .addo _ _ _ _
  | .neg _ _ | .cmp _ _ _ | .isneg _ _ | .iszero _ _ | .mul _ _ _ | .mull _ _ _ | .mul256 _ _ | .div _ _ _ _ _ _
  | .rescale _ _ _ | .ovf _ _ _ | .tio _ | .tio2 _ _ => false

/-- The decimal registers a command reads through Dv (R13; "every command whose rule names `Dv`", R231). -/
def valueSources : Instr → List DReg
  | .tolong _ ds | .tobig _ _ ds | .shr _ _ ds _ | .neg _ ds | .isneg _ ds | .iszero _ ds | .mull _ ds _
  | .rescale _ ds _ | .ovf _ ds _ | .tio ds | .tostr ds => [ds]
  | .shld dd _ => [dd]
  | .add _ da db | .addo _ _ da db | .cmp _ da db | .mul _ da db | .div _ _ da _ db _ => [da, db]
  | .zero _ | .empty _ | .fromlong _ _ | .frombig _ _ _ | .pack _ _ _ | .split _ _ _ | .li _ _ | .shlp _ _ _
  | .shlmp _ _ _ _ | .shrmp _ _ _ | .mul256 _ _ | .tio2 _ _ => []

/-- R231: the commands that raise no fault besides that of a negative-zero operand under `reject`. -/
def neverFaults : Instr → Bool
  | .zero _ | .empty _ | .fromlong _ _ | .pack _ _ _ | .split _ _ _ | .li _ _ | .tobig _ _ _ | .shlp _ _ _
  | .shr _ _ _ _ | .addo _ _ _ _ | .neg _ _ | .cmp _ _ _ | .isneg _ _ | .iszero _ _ | .mul256 _ _ | .tostr _ => true
  | .tolong _ _ | .frombig _ _ _ | .shld _ _ | .shlmp _ _ _ _ | .shrmp _ _ _ | .add _ _ _ | .mul _ _ _ | .mull _ _ _
  | .div _ _ _ _ _ _ | .rescale _ _ _ | .ovf _ _ _ | .tio _ | .tio2 _ _ => false

/-- R25 (2): the checked commands. -/
def checkedCommand : Instr → Bool
  | .zero _ | .empty _ | .fromlong _ _ | .frombig _ _ _ | .shld _ _ | .add _ _ _ | .mul _ _ _ | .mull _ _ _
  | .div _ _ _ _ _ _ | .rescale _ _ _ => true
  | .tolong _ _ | .tobig _ _ _ | .pack _ _ _ | .split _ _ _ | .li _ _ | .shlp _ _ _ | .shr _ _ _ _ | .shlmp _ _ _ _
  | .shrmp _ _ _ | .addo _ _ _ _ | .neg _ _ | .cmp _ _ _ | .isneg _ _ | .iszero _ _ | .mul256 _ _ | .ovf _ _ _
  | .tio _ | .tio2 _ _ | .tostr _ => false

/-- R23: every command but the two that move raw bit patterns writes decimal registers through `enc` or `encz`. -/
def writesThroughEnc : Instr → Bool
  | .shlp _ _ _ | .pack _ _ _ => false
  | .zero _ | .empty _ | .fromlong _ _ | .tolong _ _ | .frombig _ _ _ | .tobig _ _ _ | .split _ _ _ | .li _ _
  | .shld _ _ | .shr _ _ _ _ | .shlmp _ _ _ _ | .shrmp _ _ _ | .add _ _ _ | .addo _ _ _ _ | .neg _ _ | .cmp _ _ _
  | .isneg _ _ | .iszero _ _ | .mul _ _ _ | .mull _ _ _ | .mul256 _ _ | .div _ _ _ _ _ _ | .rescale _ _ _ | .ovf _ _ _
  | .tio _ | .tio2 _ _ | .tostr _ => true

end Sys2Proof.Machine
end

