-- ==== Sys2Proof/Certificates/Slice0/Obligations.lean ====
section
/-! DEFINITION. The statements for the provers. Rule numbers are those of spec/. A value register is read through Dv
(spec/00_scope.md R13), so `s.dv r = .ok a` says that `a` is the pattern a command reads from D[r]. Where a statement
gives a written decimal register by its value and says it is not negative zero, it fixes all 128 bits (R25 (4)). -/

open Sys2Proof Sys2Proof.Machine

/-! ### Encoding and decoding (spec/30_encoding.md) -/

/-- R84: the nine worked encodings, six of commands and three illegal words. A sanity statement. -/
def Obligations.WorkedEncodingsDecode : Prop :=
  (decode 0x00004220 = .ok (.add 2 0 1) ∧ decode 0x0400C112 = .ok (.shr true 1 0 3)
    ∧ decode 0x00864240 = .ok (.div 2 3 0 0 1 1) ∧ decode 0xFFFF0109 = .ok (.li 1 0xFFFF)
    ∧ decode 0x00002932 = .ok (.mul256 1 5) ∧ decode 0x00003852 = .ok (.tio 7))
  ∧ (decode 0x00002A32 = .error .fixedBitsWrong ∧ decode 0x80004220 = .error .fixedBitsWrong
    ∧ decode 0x00844240 = .error .equalDestinations)

/-- R71 to R78: decoding an encoded well-formed command gives it back, with every operand at every value. -/
def Obligations.DecodeInvertsEncode : Prop :=
  ∀ i : Instr, i.wellFormed = true → decode (encode i) = .ok i

/-- R75, R80: "The decoder is strict so that a word has at most one reading": the word a command was decoded from is
its encoding, so ECMD, which the model fills with the encoding, is the word as it was given (log 10). -/
def Obligations.EncodeInvertsDecode : Prop :=
  ∀ (w : Word) (i : Instr), decode w = .ok i → encode i = w ∧ i.wellFormed = true

/-- The masks and matches of R81, written out again from the spec's table. -/
def Sys2Proof.specMaskMatch : List (Word × Word) :=
  [ (0xFFFFF8FF, 0x00000001), (0xFFFFF8FF, 0x00000002), (0xFFFFC0FF, 0x00000003), (0xFFFFC0FF, 0x00000004),
    (0xFFFE30FF, 0x00000005), (0xFFF1C6FF, 0x00000006), (0xFFFE00FF, 0x00000007), (0xFFF1C0FF, 0x00000008),
    (0x0000F8FF, 0x00000009), (0xFFFFC0FF, 0x00000010), (0xFFFE00FF, 0x00000011), (0xFBFE00FF, 0x00000012),
    (0xFFF006FF, 0x00000013), (0xFFFE06FF, 0x00000014), (0xFFFE00FF, 0x00000020), (0xFFF000FF, 0x00000021) ] ++
  [ (0xFFFFC0FF, 0x00000022), (0xFFFE00FF, 0x00000023), (0xFFFFC0FF, 0x00000024), (0xFFFFC0FF, 0x00000025),
    (0xFFFE00FF, 0x00000030), (0xFFFE00FF, 0x00000031), (0xFFFFC6FF, 0x00000032), (0xFC0000FF, 0x00000040),
    (0xFFFE00FF, 0x00000050), (0xFFFE00FF, 0x00000051), (0xFFFFC7FF, 0x00000052), (0xFFFE07FF, 0x00000053),
    (0xFFFFC7FF, 0x00000060) ]

/-- R80 steps 2 to 4: a word is a command exactly when it fits some row's mask and match and, for SPLIT and DIV, its
two destination fields differ. -/
def Obligations.DecoderAcceptsExactlyTheTable : Prop :=
  ∀ w : Word, (∃ i, decode w = .ok i) ↔
    (∃ p ∈ specMaskMatch, w &&& p.1 = p.2)
      ∧ ¬((w.extractLsb' 0 8 = 0x08 ∨ w.extractLsb' 0 8 = 0x40) ∧ w.extractLsb' 8 3 = w.extractLsb' 17 3)

/-- The reserved opcode values as R79 lists them. -/
def Sys2Proof.reservedOpcode (op : Nat) : Prop :=
  op = 0x00 ∨ (0x0A ≤ op ∧ op ≤ 0x0F) ∨ (0x15 ≤ op ∧ op ≤ 0x1F) ∨ (0x26 ≤ op ∧ op ≤ 0x2F) ∨ (0x33 ≤ op ∧ op ≤ 0x3F)
    ∨ (0x41 ≤ op ∧ op ≤ 0x4F) ∨ (0x54 ≤ op ∧ op ≤ 0x5F) ∨ (0x61 ≤ op ∧ op ≤ 0xFF)

/-- R79: a reserved opcode makes a word illegal whatever its other bits, only a reserved opcode is refused as one, and
every word either is exactly one command or raises IllegalCommand. -/
def Obligations.ReservedOpcodesAreIllegal : Prop :=
  ∀ w : Word,
    (reservedOpcode (w.toNat % 256) ↔ decode w = .error .reservedOpcode)
    ∧ (∀ s : State, s.err = false →
        (∃ i, decode w = .ok i ∧ execute w s = exec i s)
          ∨ ∃ t, execute w s = .next t ∧ FaultEntered s t .illegalCommand w)

/-! ### The step (spec/20_memory.md R57 to R60, spec/30_encoding.md R80) -/

/-- R57 (a), R59, R80: when the host's next step writes to CMD a word that decodes to `i`, the machine's step is the
meaning of `i`, in the state without that host step. -/
def Obligations.StepRunsTheDecodedCommand : Prop :=
  ∀ (s : State) (rest : List HostStep) (v : BitVec 64) (i : Instr),
    s.host = .write 0x170 4 v :: rest → decode (v.setWidth 32) = .ok i →
      step s = exec i { s with host := rest }

/-- R80, R234: outside the fault state, a word that is no command enters the fault IllegalCommand with the word as it
was given in ECMD. -/
def Obligations.IllegalWordEntersTheFaultState : Prop :=
  ∀ (s : State) (rest : List HostStep) (v : BitVec 64) (r : Reject),
    s.host = .write 0x170 4 v :: rest → decode (v.setWidth 32) = .error r → s.err = false →
      ∃ t, step s = .next t ∧ FaultEntered { s with host := rest } t .illegalCommand (v.setWidth 32)

/-- R235, R54: in the fault state every command word is dropped, legal or not; host reads work, and host writes of the
registers a host may write store their bytes and leave the fault as it is. That a read's data stands in `readData` is
the model's choice (log 5). -/
def Obligations.FaultStateDropsCommandsAndServesTheHost : Prop :=
  ∀ (s : State) (rest : List HostStep), s.err = true →
    (∀ v, s.host = .write 0x170 4 v :: rest → step s = .next { s with host := rest })
    ∧ (∀ a n, s.host = .read a n :: rest → admitted a n = true →
        step s = .next { s with host := rest, readData := some (s.winRead a n) })
    ∧ (∀ a n v, s.host = .write a n v :: rest → admitted a n = true → a < 0x140 →
        ∃ t, step s = .next t ∧ SameControl s t ∧ SameText s t
          ∧ (∀ k, k < n → t.windowByte (a + k) = some (byteOf v k))
          ∧ ∀ b, b < a ∨ a + n ≤ b → t.windowByte b = s.windowByte b)

/-- R266, R56, R260: every command has a next state from every state; no step faults the machine; a step is refused
only for a host access that is not admitted; with nothing from the host the unit stays as it is (log 7). -/
def Obligations.EveryCommandCompletesAndOnlyAccessErrorsAreRefused : Prop :=
  (∀ (i : Instr) (s : State), ∃ t, exec i s = .next t)
  ∧ ∀ s : State,
      (s.host = [] → step s = .next s)
      ∧ ((∃ t, step s = .next t) ∨
          (step s = .refused .accessError
            ∧ ∃ a n rest, admitted a n = false ∧
                (s.host = .read a n :: rest ∨ ∃ v, s.host = .write a n v :: rest)))

/-! ### Faults and the control registers (spec/60_exceptions.md, spec/10_state.md) -/

/-- R234: whatever the command, when it sets ERR it has written no register, and STATUS.ERR, CAUSE and ECMD are all
that changed; CAUSE holds the code of a fault and ECMD the command's word. -/
def Obligations.CommandFaultIsPrecise : Prop :=
  ∀ (i : Instr) (s t : State), s.err = false → exec i s = .next t → t.err = true →
    ∃ F : FaultKind, FaultEntered s t F (encode i)

/-- R231: under `canonicalise` (the default) the commands of R231's "never" rows complete without a fault. -/
def Obligations.CommandsThatNeverFault : Prop :=
  ∀ (i : Instr) (s : State), neverFaults i = true → i.wellFormed = true → s.err = false →
    s.cfg.negzeroPolicy = .canonicalise → ∃ t, exec i s = .next t ∧ t.err = false

/-- R23, R231: under `reject`, a negative-zero operand of any command that reads it as a value is OperandRange, before
any DivisionByZero or Overflow (R233). -/
def Obligations.NegativeZeroOperandIsRejected : Prop :=
  ∀ (i : Instr) (s : State) (r : DReg), i.wellFormed = true → s.err = false → s.cfg.negzeroPolicy = .reject →
    r ∈ valueSources i → s.d r = negativeZero →
      ∃ t, exec i s = .next t ∧ FaultEntered s t .operandRange (encode i)

/-- R13 (Dv), R23: what a value read gives, for every pattern and both policies. -/
def Obligations.ValueReadCanonicalisesOrRejects : Prop :=
  ∀ (s : State) (r : DReg),
    (s.d r ≠ negativeZero → s.dv r = .ok (s.d r))
    ∧ (s.d r = negativeZero → s.cfg.negzeroPolicy = .canonicalise → s.dv r = .ok canonicalZero)
    ∧ (s.d r = negativeZero → s.cfg.negzeroPolicy = .reject → s.dv r = .error .operandRange)

/-- R236: the host's write of a word to STATUS. -/
def Obligations.HostClearLeavesTheFaultState : Prop :=
  ∀ (s : State) (rest : List HostStep) (v : BitVec 64), s.host = .write 0x174 4 v :: rest →
    (s.err = true → v.getLsbD 0 = true →
      ∃ t, step s = .next t ∧ t.err = false ∧ t.status >>> 1 = s.status >>> 1 ∧ t.cause = 0 ∧ t.ecmd = 0
        ∧ SameRegistersExcept s t [] [] [] ∧ SameText s t ∧ SameOutside { s with host := rest } t)
    ∧ (s.err = false ∨ v.getLsbD 0 = false → step s = .next { s with host := rest })

/-- R31 to R34, R237: the control invariant is kept by every step, from every state that has it. -/
def Obligations.StepKeepsTheControlInvariant : Prop :=
  ∀ s t : State, ControlInvariant s → step s = .next t → ControlInvariant t

/-- R40: the state after reset has the control invariant, and ERR is 0. -/
def Obligations.ResetMeetsTheControlInvariant : Prop :=
  ControlInvariant State.reset ∧ State.reset.err = false

/-- R260, R40: the reset event, from any state: STATUS, CAUSE and ECMD are 0, `err_o` is low and SLEN is at most 40.
Nothing is said of the data registers, which are unspecified. That the configuration and the host's own fields stay is
the model's reading (log 2, log 6). -/
def Obligations.ResetEventClearsTheControlRegisters : Prop :=
  ∀ (s : State) (rest : List HostStep), s.host = .reset :: rest →
    ∃ t, step s = .next t ∧ t.status = 0 ∧ t.cause = 0 ∧ t.ecmd = 0 ∧ t.errO = false ∧ t.slen.toNat ≤ 40
      ∧ t.cfg = s.cfg ∧ t.host = rest

/-- R9, R262: the two parameters are fixed properties of an implementation: no step changes them. -/
def Obligations.ConfigurationIsNeverChanged : Prop :=
  ∀ s t : State, step s = .next t → t.cfg = s.cfg

/-- R221, R31, R58: a step that is neither reset nor a TOSTR command leaves S and SLEN as they were. -/
def Obligations.OnlyTostrAndResetChangeTheText : Prop :=
  ∀ (s t : State), step s = .next t →
    (∀ rest, s.host ≠ .reset :: rest) →
    (∀ v rest ds, s.host = .write 0x170 4 v :: rest → decode (v.setWidth 32) ≠ .ok (.tostr ds)) →
      SameText s t

/-- R264: a command changes only the registers its rule names as destinations (the lists of R78); S and SLEN only if
it is TOSTR; STATUS, CAUSE and ECMD only by fault entry; nothing outside the unit. -/
def Obligations.CommandChangesOnlyItsDestinations : Prop :=
  ∀ (i : Instr) (s t : State), exec i s = .next t →
    SameRegistersExcept s t (decDests i) (scalarDests i) (wideDests i)
      ∧ (writesText i = false → SameText s t) ∧ SameOutside s t ∧ (t.err = s.err → SameControl s t)

/-- R23: no command but SHLP and PACK writes negative zero to a decimal register. -/
def Obligations.NoNegativeZeroIsWritten : Prop :=
  ∀ (i : Instr) (s t : State) (r : DReg), writesThroughEnc i = true → exec i s = .next t →
    t.d r = s.d r ∨ t.d r ≠ negativeZero

/-- R25 (2): the magnitude a checked command writes is at most MAX_UNSCALED, but for RESCALE by exponent 0, of which R200
says "unchanged, no range check": there it is when the source's is (log 13). -/
def Obligations.CheckedResultsStayInRange : Prop :=
  ∀ (i : Instr) (s t : State) (r : DReg), checkedCommand i = true →
    (∀ dd ds xe, i = .rescale dd ds xe → s64 (s.x xe) = 0 → (s.d ds).toNat % 2 ^ 127 ≤ 10 ^ 38 - 1) →
    exec i s = .next t →
      t.d r = s.d r ∨ (t.d r).toNat % 2 ^ 127 ≤ 10 ^ 38 - 1

/-- R13, R23: a command whose value read of one of `rs` faults enters that fault, with nothing written. -/
def Sys2Proof.ReadFaultsOf (i : Instr) (rs : List DReg) (s : State) : Prop :=
  ∀ r ∈ rs, ∀ F, s.dv r = .error F → ∃ t, exec i s = .next t ∧ FaultEntered s t F (encode i)

/-! ### Codec (spec/40_codec.md) -/

/-- R100, R101. -/
def Obligations.ZeroAndEmptyWriteCanonicalZero : Prop :=
  ∀ (dd : DReg) (s : State), s.err = false →
    (∃ t, exec (.zero dd) s = .next t ∧ ChangesOnly s t [dd] [] [] ∧ t.d dd = 0)
    ∧ ∃ t, exec (.empty dd) s = .next t ∧ ChangesOnly s t [dd] [] [] ∧ t.d dd = 0

/-- R102. -/
def Obligations.FromlongWritesTheSignedWord : Prop :=
  ∀ (dd : DReg) (xs : XReg) (s : State), s.err = false →
    ∃ t, exec (.fromlong dd xs) s = .next t ∧ ChangesOnly s t [dd] [] []
      ∧ val (t.d dd) = (s.x xs).toInt ∧ t.d dd ≠ negativeZero

/-- R103, both settings of TOLONG_ACCEPTS_MIN. -/
def Obligations.TolongConvertsOrOverflows : Prop :=
  ∀ (xd : XReg) (ds : DReg) (s : State), s.err = false →
    let lowest : Int := if s.cfg.tolongAcceptsMin then -2 ^ 63 else -(2 ^ 63 - 1)
    (∀ b, s.dv ds = .ok b →
      (lowest ≤ val b ∧ val b ≤ 2 ^ 63 - 1 →
        ∃ t, exec (.tolong xd ds) s = .next t ∧ ChangesOnly s t [] [xd] [] ∧ (t.x xd).toInt = val b)
      ∧ (val b < lowest ∨ 2 ^ 63 - 1 < val b →
        ∃ t, exec (.tolong xd ds) s = .next t ∧ FaultEntered s t .overflow (encode (.tolong xd ds))))
    ∧ ReadFaultsOf (.tolong xd ds) [ds] s

/-- R104, with OperandRange before Overflow (R233). -/
def Obligations.FrombigEncodesSignAndMagnitude : Prop :=
  ∀ (dd : DReg) (ws : WReg) (xsign : XReg) (s : State), s.err = false →
    ((s.x xsign).toNat ≤ 1 → (s.w ws).toNat ≤ 10 ^ 38 - 1 →
      ∃ t, exec (.frombig dd ws xsign) s = .next t ∧ ChangesOnly s t [dd] [] []
        ∧ val (t.d dd) = (if s.x xsign = 1 then -((s.w ws).toNat : Int) else ((s.w ws).toNat : Int))
        ∧ t.d dd ≠ negativeZero)
    ∧ (1 < (s.x xsign).toNat →
      ∃ t, exec (.frombig dd ws xsign) s = .next t ∧ FaultEntered s t .operandRange (encode (.frombig dd ws xsign)))
    ∧ ((s.x xsign).toNat ≤ 1 → 10 ^ 38 - 1 < (s.w ws).toNat →
      ∃ t, exec (.frombig dd ws xsign) s = .next t ∧ FaultEntered s t .overflow (encode (.frombig dd ws xsign)))

/-- R105. -/
def Obligations.TobigDeliversSignAndMagnitude : Prop :=
  ∀ (wd : WReg) (xsign : XReg) (ds : DReg) (s : State), s.err = false →
    (∀ b, s.dv ds = .ok b →
      ∃ t, exec (.tobig wd xsign ds) s = .next t ∧ ChangesOnly s t [] [xsign] [wd]
        ∧ (t.w wd).toNat = (val b).natAbs ∧ (t.x xsign).toNat = if val b < 0 then 1 else 0)
    ∧ ReadFaultsOf (.tobig wd xsign ds) [ds] s

/-- R106, R107: PACK and SPLIT move the (low64, high64) view bit for bit, and SPLIT then PACK restores every pattern. -/
def Obligations.PackAndSplitMoveTheHalves : Prop :=
  ∀ s : State, s.err = false →
    (∀ (dd : DReg) (xlo xhi : XReg), ∃ t, exec (.pack dd xlo xhi) s = .next t ∧ ChangesOnly s t [dd] [] []
      ∧ (t.d dd).toNat = (s.x xhi).toNat * 2 ^ 64 + (s.x xlo).toNat)
    ∧ (∀ (xlo xhi : XReg) (ds : DReg), xlo ≠ xhi →
      ∃ t, exec (.split xlo xhi ds) s = .next t ∧ ChangesOnly s t [] [xlo, xhi] []
        ∧ (t.x xlo).toNat = (s.d ds).toNat % 2 ^ 64 ∧ (t.x xhi).toNat = (s.d ds).toNat / 2 ^ 64)
    ∧ (∀ (xlo xhi : XReg) (dd ds : DReg), xlo ≠ xhi →
      ∃ t, execAll [.split xlo xhi ds, .pack dd xlo xhi] s = .next t ∧ t.d dd = s.d ds)

/-- R108, R77. -/
def Obligations.LiWritesTheSignExtendedImmediate : Prop :=
  ∀ (xd : XReg) (imm : BitVec 16) (s : State), s.err = false →
    ∃ t, exec (.li xd imm) s = .next t ∧ ChangesOnly s t [] [xd] [] ∧ (t.x xd).toInt = imm.toInt

/-! ### Shifts (spec/41_shift.md) -/

/-- R120: the mathematical contract for every count: val · 2^n, or Overflow exactly above MAX_UNSCALED. -/
def Obligations.ShldMultipliesByAPowerOfTwo : Prop :=
  ∀ (dd : DReg) (xn : XReg) (s : State), s.err = false →
    (∀ b, s.dv dd = .ok b →
      ((val b * 2 ^ (s.x xn).toNat).natAbs ≤ 10 ^ 38 - 1 →
        ∃ t, exec (.shld dd xn) s = .next t ∧ ChangesOnly s t [dd] [] []
          ∧ val (t.d dd) = val b * 2 ^ (s.x xn).toNat ∧ t.d dd ≠ negativeZero)
      ∧ (10 ^ 38 - 1 < (val b * 2 ^ (s.x xn).toNat).natAbs →
        ∃ t, exec (.shld dd xn) s = .next t ∧ FaultEntered s t .overflow (encode (.shld dd xn))))
    ∧ ReadFaultsOf (.shld dd xn) [dd] s

/-- R121: `(D[ds] · 2^n) mod 2^128` for every count. -/
def Obligations.ShlpShiftsTheWholePattern : Prop :=
  ∀ (dd ds : DReg) (xn : XReg) (s : State), s.err = false →
    ∃ t, exec (.shlp dd ds xn) s = .next t ∧ ChangesOnly s t [dd] [] []
      ∧ (t.d dd).toNat = (s.d ds).toNat * 2 ^ (s.x xn).toNat % 2 ^ 128

/-- R122: "With round_up the result magnitude is the ceiling of mag/2^n, without it the floor; the sign is kept", for
every count. -/
def Obligations.ShrFloorsOrCeilsTheMagnitude : Prop :=
  ∀ (roundUp : Bool) (dd ds : DReg) (xn : XReg) (s : State), s.err = false →
    (∀ b, s.dv ds = .ok b →
      ∃ t, exec (.shr roundUp dd ds xn) s = .next t ∧ ChangesOnly s t [dd] [] [] ∧ t.d dd ≠ negativeZero
        ∧ (val (t.d dd)).natAbs =
            (if roundUp then ((val b).natAbs + (2 ^ (s.x xn).toNat - 1)) / 2 ^ (s.x xn).toNat
             else (val b).natAbs / 2 ^ (s.x xn).toNat)
        ∧ 0 ≤ val (t.d dd) * val b)
    ∧ ReadFaultsOf (.shr roundUp dd ds xn) [ds] s

/-- R123: the limbs of the result one by one, the returned length, and the capacity fault. -/
def Obligations.ShlmpShiftsTheUsedLimbsLeft : Prop :=
  ∀ (wd : WReg) (xnew xlen xn : XReg) (s : State), s.err = false →
    let len := (s.x xlen).toNat
    let n := (s.x xn).toNat
    let new := len + (n + 31) / 32
    (new ≤ 8 →
      ∃ t, exec (.shlmp wd xnew xlen xn) s = .next t ∧ ChangesOnly s t [] [xnew] [wd]
        ∧ (t.x xnew).toNat = new
        ∧ ∀ j, j < 8 → (limb (t.w wd) j).toNat =
            if j < new then (s.w wd).toNat % 2 ^ (32 * len) * 2 ^ n / 2 ^ (32 * j) % 2 ^ 32
            else (limb (s.w wd) j).toNat)
    ∧ (8 < new →
      ∃ t, exec (.shlmp wd xnew xlen xn) s = .next t ∧ FaultEntered s t .operandRange (encode (.shlmp wd xnew xlen xn)))

/-- R124: the limbs of the result one by one, and the fault above eight limbs. -/
def Obligations.ShrmpShiftsTheUsedLimbsRight : Prop :=
  ∀ (wd : WReg) (xlen xn : XReg) (s : State), s.err = false →
    let len := (s.x xlen).toNat
    let n := (s.x xn).toNat
    (len ≤ 8 →
      ∃ t, exec (.shrmp wd xlen xn) s = .next t ∧ ChangesOnly s t [] [] [wd]
        ∧ ∀ j, j < 8 → (limb (t.w wd) j).toNat =
            if j < len then (s.w wd).toNat % 2 ^ (32 * len) / 2 ^ n / 2 ^ (32 * j) % 2 ^ 32
            else (limb (s.w wd) j).toNat)
    ∧ (8 < len →
      ∃ t, exec (.shrmp wd xlen xn) s = .next t ∧ FaultEntered s t .operandRange (encode (.shrmp wd xlen xn)))

/-! ### Additive commands (spec/42_additive.md) -/

/-- R140. -/
def Obligations.AddWritesTheExactSumOrOverflows : Prop :=
  ∀ (dd da db : DReg) (s : State), s.err = false →
    (∀ a b, s.dv da = .ok a → s.dv db = .ok b →
      ((val a + val b).natAbs ≤ 10 ^ 38 - 1 →
        ∃ t, exec (.add dd da db) s = .next t ∧ ChangesOnly s t [dd] [] []
          ∧ val (t.d dd) = val a + val b ∧ t.d dd ≠ negativeZero)
      ∧ (10 ^ 38 - 1 < (val a + val b).natAbs →
        ∃ t, exec (.add dd da db) s = .next t ∧ FaultEntered s t .overflow (encode (.add dd da db))))
    ∧ ReadFaultsOf (.add dd da db) [da, db] s

/-- R141: `val(out) + delta · 2^127 = s` with delta in {−1, 0, +1}, delta ≠ 0 exactly when abs(s) ≥ 2^127, and out
with the sign of s. -/
def Obligations.AddoReportsTheCarryAsADelta : Prop :=
  ∀ (dd : DReg) (xdelta : XReg) (da db : DReg) (s : State), s.err = false →
    (∀ a b, s.dv da = .ok a → s.dv db = .ok b →
      ∃ t, exec (.addo dd xdelta da db) s = .next t ∧ ChangesOnly s t [dd] [xdelta] [] ∧ t.d dd ≠ negativeZero
        ∧ val (t.d dd) + (t.x xdelta).toInt * 2 ^ 127 = val a + val b
        ∧ ((t.x xdelta).toInt = -1 ∨ (t.x xdelta).toInt = 0 ∨ (t.x xdelta).toInt = 1)
        ∧ ((t.x xdelta).toInt ≠ 0 ↔ 2 ^ 127 ≤ (val a + val b).natAbs)
        ∧ 0 ≤ val (t.d dd) * (val a + val b))
    ∧ ReadFaultsOf (.addo dd xdelta da db) [da, db] s

/-- R142. -/
def Obligations.NegNegatesTheValue : Prop :=
  ∀ (dd ds : DReg) (s : State), s.err = false →
    (∀ b, s.dv ds = .ok b →
      ∃ t, exec (.neg dd ds) s = .next t ∧ ChangesOnly s t [dd] [] [] ∧ val (t.d dd) = -val b ∧ t.d dd ≠ negativeZero)
    ∧ ReadFaultsOf (.neg dd ds) [ds] s

/-- R143: the order of the integers. -/
def Obligations.CmpOrdersByValue : Prop :=
  ∀ (xd : XReg) (da db : DReg) (s : State), s.err = false →
    (∀ a b, s.dv da = .ok a → s.dv db = .ok b →
      ∃ t, exec (.cmp xd da db) s = .next t ∧ ChangesOnly s t [] [xd] [] ∧ (t.x xd).toInt = (val a - val b).sign)
    ∧ ReadFaultsOf (.cmp xd da db) [da, db] s

/-- R144, R145. -/
def Obligations.IsnegAndIszeroAnswerWithAWord : Prop :=
  ∀ (xd : XReg) (ds : DReg) (s : State), s.err = false →
    (∀ b, s.dv ds = .ok b →
      (∃ t, exec (.isneg xd ds) s = .next t ∧ ChangesOnly s t [] [xd] []
        ∧ (t.x xd).toNat = if val b < 0 then 1 else 0)
      ∧ ∃ t, exec (.iszero xd ds) s = .next t ∧ ChangesOnly s t [] [xd] []
        ∧ (t.x xd).toNat = if val b = 0 then 1 else 0)
    ∧ ReadFaultsOf (.isneg xd ds) [ds] s ∧ ReadFaultsOf (.iszero xd ds) [ds] s

/-! ### Multiplicative commands (spec/43_multiplicative.md) -/

/-- R160. -/
def Obligations.MulWritesTheExactProductOrOverflows : Prop :=
  ∀ (dd da db : DReg) (s : State), s.err = false →
    (∀ a b, s.dv da = .ok a → s.dv db = .ok b →
      ((val a * val b).natAbs ≤ 10 ^ 38 - 1 →
        ∃ t, exec (.mul dd da db) s = .next t ∧ ChangesOnly s t [dd] [] []
          ∧ val (t.d dd) = val a * val b ∧ t.d dd ≠ negativeZero)
      ∧ (10 ^ 38 - 1 < (val a * val b).natAbs →
        ∃ t, exec (.mul dd da db) s = .next t ∧ FaultEntered s t .overflow (encode (.mul dd da db))))
    ∧ ReadFaultsOf (.mul dd da db) [da, db] s

/-- R161: MUL's contract with the signed word as second operand. -/
def Obligations.MullMultipliesByASignedWord : Prop :=
  ∀ (dd da : DReg) (xk : XReg) (s : State), s.err = false →
    (∀ a, s.dv da = .ok a →
      ((val a * (s.x xk).toInt).natAbs ≤ 10 ^ 38 - 1 →
        ∃ t, exec (.mull dd da xk) s = .next t ∧ ChangesOnly s t [dd] [] []
          ∧ val (t.d dd) = val a * (s.x xk).toInt ∧ t.d dd ≠ negativeZero)
      ∧ (10 ^ 38 - 1 < (val a * (s.x xk).toInt).natAbs →
        ∃ t, exec (.mull dd da xk) s = .next t ∧ FaultEntered s t .overflow (encode (.mull dd da xk))))
    ∧ ReadFaultsOf (.mull dd da xk) [da] s

/-- R162: the raw pattern of D[db], bit 127 included, times limbs 0..3. -/
def Obligations.Mul256WritesTheWideProduct : Prop :=
  ∀ (wd : WReg) (db : DReg) (s : State), s.err = false →
    ∃ t, exec (.mul256 wd db) s = .next t ∧ ChangesOnly s t [] [] [wd]
      ∧ (t.w wd).toNat = (s.w wd).toNat % 2 ^ 128 * (s.d db).toNat

/-! ### Division (spec/44_division.md) -/

/-- R180: truncated division of the rescaled operands, and its faults in the order they are tested. -/
def Obligations.DivWritesQuotientAndRemainder : Prop :=
  ∀ (dq dr da : DReg) (xa : XReg) (db : DReg) (xb : XReg) (s : State), dq ≠ dr → s.err = false →
    let ea := (s.x xa).toInt
    let eb := (s.x xb).toInt
    let inRange := 0 ≤ ea ∧ ea ≤ 38 ∧ 0 ≤ eb ∧ eb ≤ 38
    let i := Instr.div dq dr da xa db xb
    (∀ a b, s.dv da = .ok a → s.dv db = .ok b →
      let A := val a * 10 ^ ea.toNat
      let B := val b * 10 ^ eb.toNat
      (inRange → val b ≠ 0 → (A.tdiv B).natAbs < 10 ^ 38 → (A.tmod B).natAbs < 10 ^ 38 →
        ∃ t, exec i s = .next t ∧ ChangesOnly s t [dq, dr] [] []
          ∧ val (t.d dq) = A.tdiv B ∧ t.d dq ≠ negativeZero ∧ val (t.d dr) = A.tmod B ∧ t.d dr ≠ negativeZero)
      ∧ (¬inRange → ∃ t, exec i s = .next t ∧ FaultEntered s t .operandRange (encode i))
      ∧ (inRange → val b = 0 → ∃ t, exec i s = .next t ∧ FaultEntered s t .divisionByZero (encode i))
      ∧ (inRange → val b ≠ 0 → (10 ^ 38 ≤ (A.tdiv B).natAbs ∨ 10 ^ 38 ≤ (A.tmod B).natAbs) →
        ∃ t, exec i s = .next t ∧ FaultEntered s t .overflow (encode i)))
    ∧ ReadFaultsOf i [da, db] s

/-- R181: the laws (a) to (e) of every DIV that completes, and that (a) to (c) determine the pair. -/
def Obligations.DivObeysItsLaws : Prop :=
  ∀ (dq dr da : DReg) (xa : XReg) (db : DReg) (xb : XReg) (s t : State) (a b : Dec),
    dq ≠ dr → s.err = false → s.dv da = .ok a → s.dv db = .ok b →
    exec (.div dq dr da xa db xb) s = .next t → t.err = false →
    let A := val a * 10 ^ (s.x xa).toInt.toNat
    let B := val b * 10 ^ (s.x xb).toInt.toNat
    let q := val (t.d dq)
    let r := val (t.d dr)
    A = q * B + r ∧ r.natAbs < B.natAbs ∧ (r = 0 ∨ r.sign = A.sign) ∧ (q = 0 ∨ q.sign = (A * B).sign)
      ∧ q.natAbs ≤ 10 ^ 38 - 1 ∧ r.natAbs ≤ 10 ^ 38 - 1
      ∧ ∀ q' r' : Int, A = q' * B + r' → r'.natAbs < B.natAbs → (r' = 0 ∨ r'.sign = A.sign) → q' = q ∧ r' = r

/-! ### Rescale, range checks and text (spec/45_rescale_range.md, spec/46_text.md) -/

/-- R200, R204 (b): unchanged at exponent 0; multiplied with the check above it; below it the nearest integer with
ties away from zero, for every exponent down to −2^63. -/
def Obligations.RescaleMultipliesOrRoundsHalfUp : Prop :=
  ∀ (dd ds : DReg) (xe : XReg) (s : State), s.err = false →
    let e := (s.x xe).toInt
    let i := Instr.rescale dd ds xe
    (∀ b, s.dv ds = .ok b →
      let d := 10 ^ (-e).toNat
      let q := (2 * (val b).natAbs + d) / (2 * d)
      (e = 0 → ∃ t, exec i s = .next t ∧ ChangesOnly s t [dd] [] [] ∧ val (t.d dd) = val b ∧ t.d dd ≠ negativeZero)
      ∧ (0 < e → (val b * 10 ^ e.toNat).natAbs ≤ 10 ^ 38 - 1 →
        ∃ t, exec i s = .next t ∧ ChangesOnly s t [dd] [] [] ∧ val (t.d dd) = val b * 10 ^ e.toNat
          ∧ t.d dd ≠ negativeZero)
      ∧ (0 < e → 10 ^ 38 - 1 < (val b * 10 ^ e.toNat).natAbs →
        ∃ t, exec i s = .next t ∧ FaultEntered s t .overflow (encode i))
      ∧ (e < 0 → ∃ t, exec i s = .next t ∧ ChangesOnly s t [dd] [] []
          ∧ val (t.d dd) = (if val b < 0 then -(q : Int) else (q : Int)) ∧ t.d dd ≠ negativeZero))
    ∧ ReadFaultsOf i [ds] s

/-- R201. -/
def Obligations.OvfTestsThePrecision : Prop :=
  ∀ (xd : XReg) (ds : DReg) (xp : XReg) (s : State), s.err = false →
    let p := (s.x xp).toInt
    (∀ b, s.dv ds = .ok b →
      (1 ≤ p ∧ p ≤ 38 →
        ∃ t, exec (.ovf xd ds xp) s = .next t ∧ ChangesOnly s t [] [xd] []
          ∧ (t.x xd).toNat = if 10 ^ p.toNat ≤ (val b).natAbs then 1 else 0)
      ∧ (p < 1 ∨ 38 < p →
        ∃ t, exec (.ovf xd ds xp) s = .next t ∧ FaultEntered s t .operandRange (encode (.ovf xd ds xp))))
    ∧ ReadFaultsOf (.ovf xd ds xp) [ds] s

/-- R202, R203: no state changes when the magnitude is in range; Overflow when it is not. -/
def Obligations.TioAndTio2OnlyTestTheRange : Prop :=
  ∀ s : State, s.err = false →
    (∀ ds : DReg,
      (∀ b, s.dv ds = .ok b →
        ((val b).natAbs ≤ 10 ^ 38 - 1 → exec (.tio ds) s = .next s)
        ∧ (10 ^ 38 - 1 < (val b).natAbs →
          ∃ t, exec (.tio ds) s = .next t ∧ FaultEntered s t .overflow (encode (.tio ds))))
      ∧ ReadFaultsOf (.tio ds) [ds] s)
    ∧ (∀ xlo xhi : XReg,
      ((s.x xhi).toNat % 2 ^ 63 * 2 ^ 64 + (s.x xlo).toNat ≤ 10 ^ 38 - 1 → exec (.tio2 xlo xhi) s = .next s)
      ∧ (10 ^ 38 - 1 < (s.x xhi).toNat % 2 ^ 63 * 2 ^ 64 + (s.x xlo).toNat →
        ∃ t, exec (.tio2 xlo xhi) s = .next t ∧ FaultEntered s t .overflow (encode (.tio2 xlo xhi))))

/-- R204 (e): TIO faults on v iff OVF(v, 38) = 1 iff TIO2 faults on the two words of SPLIT(v). -/
def Obligations.RangeChecksAgree : Prop :=
  ∀ (ds : DReg) (xd xp xlo xhi : XReg) (s : State) (b : Dec),
    s.err = false → s.dv ds = .ok b → s.x xp = 38 → xlo ≠ xhi →
    ∃ t1 t2 t3, exec (.tio ds) s = .next t1 ∧ exec (.ovf xd ds xp) s = .next t2
      ∧ execAll [.split xlo xhi ds, .tio2 xlo xhi] s = .next t3
      ∧ (t1.err = true ↔ t2.x xd = 1) ∧ (t1.err = true ↔ t3.err = true)

/-- The number a list of ASCII digits spells, the most significant digit first. -/
def Sys2Proof.readDigits (cs : List Byte) : Nat := cs.foldl (fun acc c => acc * 10 + (c.toNat - 0x30)) 0

/-- R220: the buffer holds exactly one text: the sign, then digits with no leading zero that read as the magnitude
("0" alone for zero), then zero bytes. -/
def Obligations.TostrWritesTheDecimalText : Prop :=
  ∀ (ds : DReg) (s : State), s.err = false →
    (∀ b, s.dv ds = .ok b →
      ∃ (t : State) (digits : List Byte), exec (.tostr ds) s = .next t
        ∧ SameRegistersExcept s t [] [] [] ∧ SameControl s t ∧ SameOutside s t
        ∧ digits ≠ [] ∧ (∀ c ∈ digits, 0x30 ≤ c.toNat ∧ c.toNat ≤ 0x39)
        ∧ (digits.head? = some 0x30 → digits = [0x30]) ∧ readDigits digits = (val b).natAbs
        ∧ t.slen.toNat = digits.length + (if val b < 0 then 1 else 0) ∧ t.slen.toNat ≤ 40
        ∧ t.str.toList = (if val b < 0 then [0x2D] else []) ++ digits ++ List.replicate (40 - t.slen.toNat) 0)
    ∧ ReadFaultsOf (.tostr ds) [ds] s

/-! ### Laws over sequences of commands -/

/-- R109: the round trips the codec guarantees. -/
def Obligations.CodecRoundTrips : Prop :=
  ∀ s : State, s.err = false →
    (∀ (dd : DReg) (ws wd : WReg) (xsign xd : XReg), (s.x xsign).toNat ≤ 1 → (s.w ws).toNat ≤ 10 ^ 38 - 1 →
      ∃ t, execAll [.frombig dd ws xsign, .tobig wd xd dd] s = .next t ∧ t.w wd = s.w ws
        ∧ t.x xd = if (s.w ws).toNat = 0 then 0 else s.x xsign)
    ∧ (∀ (wd : WReg) (xd : XReg) (ds dd : DReg), s.d ds ≠ negativeZero → (val (s.d ds)).natAbs ≤ 10 ^ 38 - 1 →
      ∃ t, execAll [.tobig wd xd ds, .frombig dd wd xd] s = .next t ∧ t.d dd = s.d ds)
    ∧ (∀ (dd : DReg) (xs xd : XReg), s.cfg.tolongAcceptsMin = true ∨ (s.x xs).toInt ≠ -2 ^ 63 →
      ∃ t, execAll [.fromlong dd xs, .tolong xd dd] s = .next t ∧ t.x xd = s.x xs)
    ∧ (∀ (dd : DReg) (xs xsign : XReg) (ws : WReg), (s.w ws).toNat = (s.x xs).toInt.natAbs →
      (s.x xsign).toNat = (if (s.x xs).toInt < 0 then 1 else 0) →
      ∃ t u, exec (.fromlong dd xs) s = .next t ∧ exec (.frombig dd ws xsign) s = .next u ∧ t.d dd = u.d dd)

/-- R83: `sub` computes val(da) − val(db) and faults exactly when ADD does; `mov` copies the value. -/
def Obligations.PseudoInstructionsSubtractAndMove : Prop :=
  ∀ s : State, s.err = false →
    (∀ (dd da db dt : DReg) (is : List Instr) (a b : Dec), pseudoSub dd da db dt = some is →
      s.dv da = .ok a → s.dv db = .ok b →
      ∃ t, execAll is s = .next t
        ∧ ((val a - val b).natAbs ≤ 10 ^ 38 - 1 → t.err = false ∧ val (t.d dd) = val a - val b)
        ∧ (10 ^ 38 - 1 < (val a - val b).natAbs → t.err = true ∧ t.cause = 1))
    ∧ (∀ (dd ds : DReg) (xt : XReg) (b : Dec), s.dv ds = .ok b →
      ∃ t, execAll (pseudoMov dd ds xt) s = .next t ∧ ChangesOnly s t [dd] [xt] [] ∧ t.d dd = b)

/-! ### The register window (spec/20_memory.md) -/

/-- R55, written out from the map of R51: size, natural alignment, and one data region or exactly a control register. -/
def Sys2Proof.admittedBySpec (a n : Nat) : Prop :=
  (n = 1 ∨ n = 2 ∨ n = 4 ∨ n = 8) ∧ a % n = 0 ∧
    (a + n ≤ 0x080 ∨ (0x080 ≤ a ∧ a + n ≤ 0x0C0) ∨ (0x100 ≤ a ∧ a + n ≤ 0x140) ∨ (0x140 ≤ a ∧ a + n ≤ 0x168)
      ∨ (n = 4 ∧ (a = 0x168 ∨ a = 0x170 ∨ a = 0x174 ∨ a = 0x178 ∨ a = 0x17C)))

/-- R55, R56: exactly the accesses R55 admits have a next state; any other is refused. -/
def Obligations.AccessesAreAdmittedExactly : Prop :=
  ∀ (s : State) (rest : List HostStep) (a n : Nat) (v : BitVec 64),
    (s.host = .read a n :: rest →
      (admittedBySpec a n → ∃ t, step s = .next t) ∧ (¬admittedBySpec a n → step s = .refused .accessError))
    ∧ (s.host = .write a n v :: rest →
      (admittedBySpec a n → ∃ t, step s = .next t) ∧ (¬admittedBySpec a n → step s = .refused .accessError))

/-- R54, R57, R35: an admitted read returns the window's bytes, little-endian, 0 for CMD, and changes nothing in the
unit. -/
def Obligations.ReadReturnsTheWindowBytes : Prop :=
  ∀ (s : State) (rest : List HostStep) (a n : Nat), s.host = .read a n :: rest → admittedBySpec a n →
    ∃ d : BitVec 64, step s = .next { s with host := rest, readData := some d }
      ∧ (∀ k, k < n → s.windowByte (a + k) = some (byteOf d k)) ∧ d.toNat < 2 ^ (8 * n) ∧ (a = 0x170 → d = 0)

/-- R54, R58: an admitted write to a data region sets exactly the bytes it covers, but for those of S, which drop
writes, and leaves every other bit of the unit as it was. -/
def Obligations.WriteStoresExactlyItsBytes : Prop :=
  ∀ (s : State) (rest : List HostStep) (a n : Nat) (v : BitVec 64),
    s.host = .write a n v :: rest → admittedBySpec a n → a < 0x168 →
      ∃ t, step s = .next t ∧ SameText s t ∧ SameControl s t ∧ SameOutside { s with host := rest } t
        ∧ (∀ k, k < n → a + k < 0x140 → t.windowByte (a + k) = some (byteOf v k))
        ∧ ∀ b, b < a ∨ a + n ≤ b ∨ 0x140 ≤ b → t.windowByte b = s.windowByte b

/-- R58: an admitted write to S, SLEN, CAUSE or ECMD has no effect at all, and a write to STATUS leaves its reserved
bits. -/
def Obligations.ReadOnlyRegistersDropWrites : Prop :=
  ∀ (s : State) (rest : List HostStep) (a n : Nat) (v : BitVec 64),
    s.host = .write a n v :: rest → admittedBySpec a n →
      ((0x140 ≤ a ∧ a < 0x168) ∨ a = 0x168 ∨ a = 0x178 ∨ a = 0x17C → step s = .next { s with host := rest })
      ∧ (a = 0x174 → ∃ t, step s = .next t ∧ t.status >>> 1 = s.status >>> 1)

/-- R51, R52, R53: where each byte of each register stands; R31 to R33, R35: what the control registers' reserved bits and
CMD read as, in every state (log 15); and that a reserved offset holds no byte, the model's inference from R51 and R55
(log 14). -/
def Obligations.WindowShowsEveryRegisterLittleEndian : Prop :=
  ∀ s : State,
    (∀ (i : DReg) (k : Nat), k < 16 → s.windowByte (16 * i.val + k) = some ((s.d i).extractLsb' (8 * k) 8))
    ∧ (∀ (i : XReg) (k : Nat), k < 8 → s.windowByte (0x080 + 8 * i.val + k) = some ((s.x i).extractLsb' (8 * k) 8))
    ∧ (∀ (w : WReg) (j k : Nat), j < 8 → k < 4 →
        s.windowByte (0x100 + 32 * w.val + 4 * j + k) = some ((limb (s.w w) j).extractLsb' (8 * k) 8))
    ∧ (∀ i : Fin 40, s.windowByte (0x140 + i.val) = some (s.str.get i))
    ∧ (∀ k, k < 4 → s.windowByte (0x170 + k) = some 0
        ∧ s.windowByte (0x168 + k) = some ((s.slen &&& 0x3F).extractLsb' (8 * k) 8)
        ∧ s.windowByte (0x174 + k) = some ((s.status &&& 1).extractLsb' (8 * k) 8)
        ∧ s.windowByte (0x178 + k) = some ((s.cause &&& 7).extractLsb' (8 * k) 8)
        ∧ s.windowByte (0x17C + k) = some (s.ecmd.extractLsb' (8 * k) 8))
    ∧ ∀ a, (0x0C0 ≤ a ∧ a < 0x100) ∨ (0x16C ≤ a ∧ a < 0x170) ∨ 0x180 ≤ a → s.windowByte a = none

/-! ### The datapaths (R146, R163, R182 to R186) -/

/-- R146: on canonicalised operands the adder delivers the sums, carries and overflow of R140 and R141. -/
def Obligations.AdderDeliversTheContracts : Prop :=
  ∀ a b : Dec, a ≠ negativeZero → b ≠ negativeZero →
    let s := val a + val b
    adderAdd a b = (if s.natAbs ≤ 10 ^ 38 - 1 then .ok (encz s) else .error .overflow)
      ∧ adderAddo a b = (enc (decide (s < 0)) (s.natAbs % 2 ^ 127), u64 (s.tdiv (2 ^ 127)))

/-- R163: at the end of the passes "`l[0..7]` is L · R of rule R162", in eight limbs of 32 bits. -/
def Obligations.LimbMultiplierIsExact : Prop :=
  ∀ (v : Wide) (r : Dec),
    let l := limbMultiply (toLimbs 8 v.toNat) (toLimbs 4 r.toNat)
    fromLimbs l = v.toNat % 2 ^ 128 * r.toNat ∧ l.length = 8 ∧ ∀ x ∈ l, x < 2 ^ 32

/-- R183 to R186: the limb divider gives the exact quotient and remainder on every pair of eight-limb operands with
a nonzero divisor, by whichever of its three paths it takes. -/
def Obligations.LimbDividerIsExact : Prop :=
  ∀ U V : Nat, U < 2 ^ 256 → V < 2 ^ 256 → V ≠ 0 → limbDivide (toLimbs 8 U) (toLimbs 8 V) = (U / V, U % V)

/-- R160, R180 to R185, R200: the multiplier's and the divider's datapaths deliver the contracts of MUL, DIV and
RESCALE, faults included, on every magnitude a register can hold. -/
def Obligations.DatapathsDeliverTheContracts : Prop :=
  (∀ m k : Nat, m < 2 ^ 127 → k < 2 ^ 127 →
    limbProduct m k = if m * k ≤ 10 ^ 38 - 1 then .ok (m * k) else .error .overflow)
  ∧ (∀ ma ea mb eb : Nat, ma < 2 ^ 127 → mb < 2 ^ 127 → ea ≤ 38 → eb ≤ 38 →
      datapathDivide ma ea mb eb = divideMags (ma * 10 ^ ea) (mb * 10 ^ eb))
  ∧ (∀ m e : Nat, m < 2 ^ 127 → 1 ≤ e → e ≤ 38 → datapathScaleUp m e = scaledUp m e)
  ∧ (∀ m k : Nat, m < 2 ^ 127 → 1 ≤ k → k ≤ 38 → datapathScaleDown m k = (2 * m + 10 ^ k) / (2 * 10 ^ k))
end

