-- ==== Sys2Proof/Laws/Limbs.lean ====
section
/-! SUPPORT. Limb arrays as numbers (spec/10_state.md R29): the two conversions and how they meet lists. -/

namespace Sys2Proof.Machine

theorem limbBase_pos : 0 < limbBase := by decide

@[simp] theorem fromLimbs_nil : fromLimbs [] = 0 := rfl

@[simp] theorem fromLimbs_cons (x : Nat) (xs : List Nat) : fromLimbs (x :: xs) = x + limbBase * fromLimbs xs := rfl

@[simp] theorem length_toLimbs (n v : Nat) : (toLimbs n v).length = n := by
  induction n generalizing v with
  | zero => rfl
  | succ n ih => simp [toLimbs, ih]

theorem toLimbs_lt (n v : Nat) : ∀ x ∈ toLimbs n v, x < limbBase := by
  induction n generalizing v with
  | zero => simp [toLimbs]
  | succ n ih =>
    intro x hx
    simp only [toLimbs, List.mem_cons] at hx
    rcases hx with rfl | hx
    · exact Nat.mod_lt _ limbBase_pos
    · exact ih _ x hx

/-- The low n limbs of v stand for v modulo 2^(32n). -/
theorem fromLimbs_toLimbs (n v : Nat) : fromLimbs (toLimbs n v) = v % limbBase ^ n := by
  induction n generalizing v with
  | zero => simp [toLimbs, Nat.mod_one]
  | succ n ih => rw [toLimbs, fromLimbs_cons, ih, Nat.pow_succ', Nat.mod_mul]

/-- A number below 2^(32n) is its n limbs. -/
theorem fromLimbs_toLimbs_of_lt {n v : Nat} (h : v < limbBase ^ n) : fromLimbs (toLimbs n v) = v := by
  rw [fromLimbs_toLimbs, Nat.mod_eq_of_lt h]

theorem fromLimbs_lt {xs : List Nat} (h : ∀ x ∈ xs, x < limbBase) : fromLimbs xs < limbBase ^ xs.length := by
  induction xs with
  | nil => simp
  | cons x xs ih =>
    have hx := h x (by simp)
    have hxs := ih fun y hy => h y (by simp [hy])
    have : limbBase * (fromLimbs xs + 1) ≤ limbBase * limbBase ^ xs.length := Nat.mul_le_mul_left _ hxs
    rw [fromLimbs_cons, List.length_cons, Nat.pow_succ']
    rw [Nat.mul_add] at this
    omega

theorem fromLimbs_append (xs ys : List Nat) :
    fromLimbs (xs ++ ys) = fromLimbs xs + limbBase ^ xs.length * fromLimbs ys := by
  induction xs with
  | nil => simp
  | cons x xs ih => simp [ih, Nat.pow_succ', Nat.mul_add, Nat.mul_assoc, Nat.add_assoc]

/-- Limb arrays of one length that stand for one number are equal. -/
theorem fromLimbs_injective {xs ys : List Nat} (hx : ∀ x ∈ xs, x < limbBase) (hy : ∀ y ∈ ys, y < limbBase)
    (hl : xs.length = ys.length) (h : fromLimbs xs = fromLimbs ys) : xs = ys := by
  induction xs generalizing ys with
  | nil => cases ys with
    | nil => rfl
    | cons y ys => simp at hl
  | cons x xs ih =>
    cases ys with
    | nil => simp at hl
    | cons y ys =>
      have hx0 := hx x (by simp)
      have hy0 := hy y (by simp)
      simp only [fromLimbs_cons] at h
      have e1 : x = y := by
        have := congrArg (· % limbBase) h
        simpa [Nat.add_mul_mod_self_left, Nat.mod_eq_of_lt hx0, Nat.mod_eq_of_lt hy0] using this
      subst e1
      have e2 : fromLimbs xs = fromLimbs ys := Nat.eq_of_mul_eq_mul_left limbBase_pos (by omega)
      rw [ih (fun z hz => hx z (by simp [hz])) (fun z hz => hy z (by simp [hz])) (by simpa using hl) e2]

end Sys2Proof.Machine
end

