-- ==== Sys2Proof/Laws/LimbMultiplier.lean ====
section
/-! SUPPORT. What the steps of the limb multiplier do to the number their array stands for (spec/43_multiplicative.md
R163). -/

namespace Sys2Proof.Machine

/-- One limb of a sum, and the carry into the next. -/
theorem limb_carry_mod (a c m : Nat) :
    a % limbBase + limbBase * ((a / limbBase + c) % m) = (a + limbBase * c) % (limbBase * m) := by
  rw [Nat.mod_mul, Nat.add_mul_mod_self_left, Nat.add_mul_div_left _ _ limbBase_pos]

@[simp] theorem length_ripple (ls : List Nat) (carry : Nat) : (ripple ls carry).length = ls.length := by
  induction ls generalizing carry with
  | nil => rfl
  | cons l ls ih => unfold ripple; split <;> simp [ih]

theorem ripple_lt {ls : List Nat} (h : ∀ x ∈ ls, x < limbBase) (carry : Nat) : ∀ x ∈ ripple ls carry, x < limbBase := by
  induction ls generalizing carry with
  | nil => simp [ripple]
  | cons l ls ih =>
    unfold ripple
    split
    · exact h
    · intro x hx
      rcases List.mem_cons.1 hx with rfl | hx
      · exact Nat.mod_lt _ limbBase_pos
      · exact ih (fun y hy => h y (by simp [hy])) _ x hx

/-- R163: the ripple adds its carry, modulo the array's capacity. -/
theorem fromLimbs_ripple {ls : List Nat} (h : ∀ x ∈ ls, x < limbBase) (carry : Nat) :
    fromLimbs (ripple ls carry) = (fromLimbs ls + carry) % limbBase ^ ls.length := by
  induction ls generalizing carry with
  | nil => simp [ripple, Nat.mod_one]
  | cons l ls ih =>
    have hlt := fromLimbs_lt h
    unfold ripple
    split
    · subst_vars; rw [Nat.add_zero, Nat.mod_eq_of_lt hlt]
    · rw [fromLimbs_cons, ih (fun y hy => h y (by simp [hy])), List.length_cons, Nat.pow_succ', Nat.add_comm (fromLimbs ls),
        limb_carry_mod, fromLimbs_cons]
      congr 1; ring

@[simp] theorem length_accumulateRow (x : Nat) (rs ls : List Nat) (carry : Nat) :
    (accumulateRow x rs ls carry).length = ls.length := by
  induction rs generalizing ls carry with
  | nil => unfold accumulateRow; simp
  | cons r rs ih => cases ls <;> simp [accumulateRow, ih]

theorem accumulateRow_lt (x : Nat) (rs : List Nat) {ls : List Nat} (h : ∀ y ∈ ls, y < limbBase) (carry : Nat) :
    ∀ y ∈ accumulateRow x rs ls carry, y < limbBase := by
  induction rs generalizing ls carry with
  | nil => unfold accumulateRow; exact ripple_lt h carry
  | cons r rs ih =>
    cases ls with
    | nil => simp [accumulateRow]
    | cons l ls =>
      intro y hy
      rcases List.mem_cons.1 hy with rfl | hy
      · exact Nat.mod_lt _ limbBase_pos
      · exact ih (fun z hz => h z (by simp [hz])) _ y hy

/-- R163: one pass's row adds x · r and the carry, modulo the array's capacity. -/
theorem fromLimbs_accumulateRow (x : Nat) (rs : List Nat) {ls : List Nat} (h : ∀ y ∈ ls, y < limbBase) (carry : Nat)
    (hl : rs.length ≤ ls.length) :
    fromLimbs (accumulateRow x rs ls carry) = (x * fromLimbs rs + fromLimbs ls + carry) % limbBase ^ ls.length := by
  induction rs generalizing ls carry with
  | nil => unfold accumulateRow; rw [fromLimbs_ripple h]; simp
  | cons r rs ih =>
    cases ls with
    | nil => simp at hl
    | cons l ls =>
      rw [accumulateRow, fromLimbs_cons, ih (fun z hz => h z (by simp [hz])) _ (by simpa using hl), List.length_cons,
        Nat.pow_succ', Nat.add_comm _ ((x * r + l + carry) / limbBase), limb_carry_mod, fromLimbs_cons, fromLimbs_cons]
      congr 1; ring

/-- R163: what one pass does: the limbs below i stay, and the number from limb i up becomes the taken limb times `r`
plus what stood above it, modulo the room there. -/
theorem multiplyPass_spec (r : List Nat) {l : List Nat} (h : ∀ x ∈ l, x < limbBase) {i : Nat} (hi : i + r.length ≤ l.length)
    (hi' : i < l.length) :
    (multiplyPass r l i).length = l.length ∧ (∀ x ∈ multiplyPass r l i, x < limbBase)
      ∧ (multiplyPass r l i).take i = l.take i
      ∧ fromLimbs ((multiplyPass r l i).drop i)
          = (l.getD i 0 * fromLimbs r + limbBase * fromLimbs (l.drop (i + 1))) % limbBase ^ (l.length - i) := by
  have hlt : ∀ y ∈ (0 :: l.drop (i + 1)), y < limbBase := by
    intro y hy
    rcases List.mem_cons.1 hy with rfl | hy
    · exact limbBase_pos
    · exact h y (List.mem_of_mem_drop hy)
  have hti : (l.take i).length = i := by simp; omega
  have hlen : (0 :: l.drop (i + 1)).length = l.length - i := by simp; omega
  unfold multiplyPass
  refine ⟨by rw [List.length_append, length_accumulateRow, hti, hlen]; omega, ?_, List.take_left' hti, ?_⟩
  · intro x hx
    rcases List.mem_append.1 hx with hx | hx
    · exact h x (List.mem_of_mem_take hx)
    · exact accumulateRow_lt _ _ hlt _ x hx
  · rw [List.drop_left' hti, fromLimbs_accumulateRow _ _ hlt _ (by omega), hlen, fromLimbs_cons]
    simp

end Sys2Proof.Machine
end

