-- ==== Sys2Proof/Laws/Divider.lean ====
section
/-! SUPPORT. What the steps of the divider do to the numbers their arrays stand for (spec/44_division.md R183 to R185):
the single-limb pass, multiply and subtract, the add-back, the trial quotient, one pass of the loop, the loop, and the
general case. -/

namespace Sys2Proof.Machine

/-! ### The arrays as numbers -/

theorem getD_toLimbs (n v i : Nat) (h : i < n) : (toLimbs n v).getD i 0 = v / limbBase ^ i % limbBase := by
  induction n generalizing v i with
  | zero => omega
  | succ n ih =>
    cases i with
    | zero => simp [toLimbs]
    | succ i =>
      rw [toLimbs, List.getD_cons_succ, ih _ _ (by omega), pow_succ', Nat.div_div_eq_div_mul]

theorem take_toLimbs (n v k : Nat) (h : k ≤ n) : (toLimbs n v).take k = toLimbs k v := by
  induction n generalizing v k with
  | zero => obtain rfl : k = 0 := by omega
            rfl
  | succ n ih => cases k with
    | zero => rfl
    | succ k => simp [toLimbs, ih _ _ (by omega : k ≤ n)]

theorem drop_toLimbs (n v k : Nat) (h : k ≤ n) : (toLimbs n v).drop k = toLimbs (n - k) (v / limbBase ^ k) := by
  induction k generalizing n v with
  | zero => simp
  | succ k ih =>
    obtain ⟨m, rfl⟩ : ∃ m, n = m + 1 := ⟨n - 1, by omega⟩
    rw [toLimbs, List.drop_succ_cons, ih _ _ (by omega), pow_succ', Nat.div_div_eq_div_mul, Nat.add_sub_add_right]

/-! ### The single-limb divisor, and the limb loops of one pass -/

/-- R183: the single-limb division is exact. -/
theorem divideByLimb_spec {v0 : Nat} (hv : v0 ≠ 0) (us : List Nat) :
    fromLimbs us = fromLimbs (divideByLimb v0 us).1 * v0 + (divideByLimb v0 us).2 ∧ (divideByLimb v0 us).2 < v0 := by
  induction us with
  | nil => simp [divideByLimb]; omega
  | cons u us ih =>
    obtain ⟨h, -⟩ := ih
    simp only [divideByLimb, fromLimbs_cons]
    refine ⟨?_, Nat.mod_lt _ (Nat.pos_of_ne_zero hv)⟩
    have := Nat.div_add_mod ((divideByLimb v0 us).2 * limbBase + u) v0
    rw [h]; nlinarith

@[simp] theorem length_addBack (vs us : List Nat) (c : Nat) (hl : us.length = vs.length + 1) :
    (addBack vs us c).length = us.length := by
  induction vs generalizing us c with
  | nil => cases us with
    | nil => simp at hl
    | cons u us => cases us <;> simp_all [addBack]
  | cons v vs ih => cases us with
    | nil => simp at hl
    | cons u us => simp [addBack, ih us _ (by simpa using hl)]

/-- R184: the add-back adds vn and its carry to the window, the final carry dropped. -/
theorem fromLimbs_addBack (vs us : List Nat) (c : Nat) (hl : us.length = vs.length + 1) :
    fromLimbs (addBack vs us c) = (fromLimbs vs + fromLimbs us + c) % limbBase ^ us.length := by
  induction vs generalizing us c with
  | nil => cases us with
    | nil => simp at hl
    | cons u us => cases us with
      | nil => simp [addBack]
      | cons => simp at hl
  | cons v vs ih => cases us with
    | nil => simp at hl
    | cons u us =>
      rw [addBack, fromLimbs_cons, ih us _ (by simpa using hl), List.length_cons, Nat.pow_succ',
        Nat.add_comm _ ((u + v + c) / limbBase), limb_carry_mod, fromLimbs_cons, fromLimbs_cons]
      congr 1; ring

/-- R184: multiply and subtract takes qhat · vn, the carry and the borrow from the window; the final borrow says whether
the result went below zero. -/
theorem mulSub_spec (qhat : Nat) (vs us : List Nat) (carry borrow : Nat) (hl : us.length = vs.length + 1)
    (hu : ∀ x ∈ us, x < limbBase) (hv : ∀ x ∈ vs, x < limbBase) (hq : qhat < limbBase) (hc : carry < limbBase) (hb : borrow ≤ 1) :
    (fromLimbs (mulSub qhat vs us carry borrow).1 : Int)
        = (fromLimbs us : Int) - qhat * fromLimbs vs - carry - borrow
          + limbBase ^ us.length * (mulSub qhat vs us carry borrow).2
      ∧ (mulSub qhat vs us carry borrow).2 ≤ 1
      ∧ (mulSub qhat vs us carry borrow).1.length = us.length
      ∧ ∀ x ∈ (mulSub qhat vs us carry borrow).1, x < limbBase := by
  induction vs generalizing us carry borrow with
  | nil =>
    obtain ⟨u, rfl⟩ : ∃ u, us = [u] := by
      match us, hl with
      | [u], _ => exact ⟨u, rfl⟩
    have hu' := hu u (by simp)
    unfold limbBase at *
    simp only [mulSub, fromLimbs_cons, fromLimbs_nil, List.length_cons, List.length_nil, List.mem_singleton, forall_eq]
    unfold limbBase
    refine ⟨?_, ?_, trivial, ?_⟩
    · split <;> push_cast <;> omega
    · split <;> omega
    · omega
  | cons v vs ih =>
    cases us with
    | nil => simp at hl
    | cons u us =>
      have hu' := hu u (by simp)
      have hv' := hv v (by simp)
      have hp : qhat * v + carry < limbBase * limbBase := by
        have : qhat * v ≤ (limbBase - 1) * (limbBase - 1) := Nat.mul_le_mul (by omega) (by omega)
        unfold limbBase at *; omega
      have hcar : (qhat * v + carry) / limbBase < limbBase := Nat.div_lt_of_lt_mul hp
      have e : mulSub qhat (v :: vs) (u :: us) carry borrow =
          ((((u : Int) - ((qhat * v + carry) % limbBase : Nat) - borrow) % (limbBase : Int)).toNat
            :: (mulSub qhat vs us ((qhat * v + carry) / limbBase)
              (if (u : Int) - ((qhat * v + carry) % limbBase : Nat) - borrow < 0 then 1 else 0)).1,
           (mulSub qhat vs us ((qhat * v + carry) / limbBase)
              (if (u : Int) - ((qhat * v + carry) % limbBase : Nat) - borrow < 0 then 1 else 0)).2) := rfl
      have hdm := Nat.div_add_mod (qhat * v + carry) limbBase
      have hm := Nat.mod_lt (qhat * v + carry) limbBase_pos
      rw [e]
      clear e
      generalize (qhat * v + carry) / limbBase = k at *
      generalize (qhat * v + carry) % limbBase = m at *
      have key : (((((u : Int) - m - borrow) % (limbBase : Int)).toNat : Nat) : Int)
          = (u : Int) - m - borrow + limbBase * ((if (u : Int) - m - borrow < 0 then 1 else 0 : Nat) : Int) := by
        unfold limbBase at *
        split <;> push_cast <;> omega
      have hlt : (((u : Int) - m - borrow) % (limbBase : Int)).toNat < limbBase := by unfold limbBase; omega
      have hbor : (if (u : Int) - m - borrow < 0 then 1 else 0 : Nat) ≤ 1 := by split <;> omega
      generalize (if (u : Int) - m - borrow < 0 then 1 else 0 : Nat) = b at *
      obtain ⟨h1, h2, h3, h4⟩ := ih us k b (by simpa using hl)
        (fun x hx => hu x (by simp [hx])) (fun x hx => hv x (by simp [hx])) hcar hbor
      refine ⟨?_, h2, by simp [h3], ?_⟩
      · have hdm' : (limbBase : Int) * k + m = qhat * v + carry := by exact_mod_cast hdm
        simp only [fromLimbs_cons, List.length_cons]
        push_cast
        rw [key, h1, pow_succ]
        linear_combination (-1 : Int) * hdm'
      · intro x hx
        rcases List.mem_cons.1 hx with rfl | hx
        · exact hlt
        · exact h4 x hx

/-! ### The trial quotient and one pass -/

/-- R184: what the correction loop keeps and reaches. -/
theorem correctQhat_spec {v1 v2 u2 num q : Nat} (fuel : Nat) {qhat rhat : Nat} (hinv : qhat * v1 + rhat = num)
    (hlt : qhat < limbBase) (hv2 : v2 < limbBase) (hq : q ≤ qhat)
    (hb : q * (v1 * limbBase + v2) ≤ num * limbBase + u2) (hf : limbBase ≤ rhat + fuel * v1) :
    q ≤ correctQhat v1 v2 u2 fuel qhat rhat ∧ correctQhat v1 v2 u2 fuel qhat rhat < limbBase
      ∧ correctQhat v1 v2 u2 fuel qhat rhat * (v1 * limbBase + v2) ≤ num * limbBase + u2 := by
  have done : ∀ {qh rh : Nat}, qh * v1 + rh = num → qh < limbBase → limbBase ≤ rh →
      qh * (v1 * limbBase + v2) ≤ num * limbBase + u2 := by
    intro qh rh h1 h2 h3
    have : qh * v2 ≤ rh * limbBase := Nat.le_trans (Nat.mul_le_mul h2.le hv2.le) (Nat.mul_le_mul_right _ h3)
    subst h1; nlinarith
  induction fuel generalizing qhat rhat with
  | zero => exact ⟨hq, hlt, done hinv hlt (by omega)⟩
  | succ fuel ih =>
    unfold correctQhat
    split
    · rename_i h
      have hlt' : num * limbBase + u2 < qhat * (v1 * limbBase + v2) := by subst hinv; nlinarith [h.2]
      have hqq : q < qhat := by
        by_contra hge
        have : qhat * (v1 * limbBase + v2) ≤ q * (v1 * limbBase + v2) := Nat.mul_le_mul_right _ (by omega)
        omega
      obtain ⟨m, rfl⟩ : ∃ m, qhat = m + 1 := ⟨qhat - 1, by omega⟩
      refine ih ?_ (by omega) (by simpa using by omega) ?_
      · rw [Nat.add_sub_cancel]; rw [← hinv]; ring
      · rw [Nat.succ_mul] at hf; omega
    · rename_i h
      refine ⟨hq, hlt, ?_⟩
      by_cases hr : limbBase ≤ rhat
      · exact done hinv hlt hr
      · have : qhat * v2 ≤ rhat * limbBase + u2 := by
          by_contra hc; exact h ⟨by omega, by omega⟩
        subst hinv; nlinarith

/-- R184: "after the correction loop qhat is the true quotient limb or one more", on numbers: the divisor is
v1 v2 v' and the window u0 u1 u2 u' in base 2^32, P being the weight of v2 and u2. -/
theorem qhat_bounds {v1 v2 v' num u2 u' P q qh : Nat} (hv' : v' < P) (hu' : u' < P) (hv1 : limbBase ≤ 2 * v1)
    (hq : q = ((num * limbBase + u2) * P + u') / ((v1 * limbBase + v2) * P + v'))
    (hle : q ≤ qh) (hlt : qh < limbBase) (hb : qh * (v1 * limbBase + v2) ≤ num * limbBase + u2) : qh ≤ q + 1 := by
  have hpos : 0 < v1 := by have := limbBase_pos; omega
  have h1 : limbBase ≤ v1 * limbBase + v2 := Nat.le_trans (Nat.le_mul_of_pos_left _ hpos) (Nat.le_add_right _ _)
  rcases Nat.eq_zero_or_pos qh with h0 | h0
  · omega
  obtain ⟨m, rfl⟩ : ∃ m, qh = m + 1 := ⟨qh - 1, by omega⟩
  generalize v1 * limbBase + v2 = V2 at *
  generalize num * limbBase + u2 = U3 at *
  have hV : 0 < V2 * P + v' := by
    have : 0 < V2 * P := Nat.mul_pos (by omega) (by omega)
    omega
  have : m ≤ q := by
    rw [hq, Nat.le_div_iff_mul_le hV]
    rw [Nat.succ_mul] at hb
    have h3 : m * (V2 * P + v') ≤ (m * V2 + m) * P := by
      rw [Nat.mul_add, Nat.add_mul, Nat.mul_assoc]
      exact Nat.add_le_add_left (Nat.mul_le_mul_left _ hv'.le) _
    have h4 : (m * V2 + m) * P ≤ U3 * P := Nat.mul_le_mul_right P (by omega)
    omega
  omega

/-- A quotient bound of two numbers bounds the quotient of their upper parts. -/
theorem mul_le_of_tops {a b x y P q : Nat} (hy : y < P) (h : q * (a * P + x) ≤ b * P + y) : q * a ≤ b := by
  have h1 : q * a * P ≤ q * (a * P + x) := by rw [Nat.mul_assoc]; exact Nat.mul_le_mul_left _ (Nat.le_add_right _ _)
  have h2 : q * a * P < (b + 1) * P := by rw [Nat.succ_mul]; omega
  exact Nat.lt_succ_iff.1 (Nat.lt_of_mul_lt_mul_right h2)

/-- A list of n + 2 limbs is its n low limbs and the two top ones. -/
theorem exists_top_two {l : List Nat} {n : Nat} (h : l.length = n + 2) :
    ∃ lo a b, l = lo ++ [a, b] ∧ lo.length = n ∧ l.getD n 0 = a ∧ l.getD (n + 1) 0 = b := by
  refine ⟨l.take n, l.getD n 0, l.getD (n + 1) 0, ?_, by simp; omega, rfl, rfl⟩
  apply List.ext_getElem
  · simp; omega
  · intro i h1 h2
    rcases Nat.lt_or_ge i n with hi | hi
    · rw [List.getElem_append_left (by simp; omega)]; simp
    · obtain rfl | rfl : i = n ∨ i = n + 1 := by omega
      · rw [List.getElem_append_right (by simp)]; simp [h]
      · rw [List.getElem_append_right (by simp)]; simp [h]

theorem exists_top_three {l : List Nat} {n : Nat} (h : l.length = n + 3) :
    ∃ lo a b c, l = lo ++ [a, b, c] ∧ lo.length = n ∧ l.getD n 0 = a ∧ l.getD (n + 1) 0 = b ∧ l.getD (n + 2) 0 = c := by
  obtain ⟨lo, b, c, rfl, hl, hb, hc⟩ := exists_top_two (n := n + 1) h
  refine ⟨lo.take n, lo.getD n 0, b, c, ?_, by simp; omega, ?_, hb, hc⟩
  · rw [show [lo.getD n 0, b, c] = [lo.getD n 0] ++ [b, c] from rfl, ← List.append_assoc]
    congr 1
    have : lo.drop n = [lo.getD n 0] := by
      rw [List.drop_eq_getElem_cons (by omega), List.drop_eq_nil_of_le (by omega)]; simp [hl]
    rw [← this, List.take_append_drop]
  · rw [List.getD_append _ _ _ _ (by omega)]

theorem trialQuotient_eq (n : Nat) (vn window : List Nat) :
    trialQuotient n vn window = correctQhat (vn.getD (n - 1) 0) (vn.getD (n - 2) 0) (window.getD (n - 2) 0) 2
      (min ((window.getD n 0 * limbBase + window.getD (n - 1) 0) / vn.getD (n - 1) 0) (limbBase - 1))
      (window.getD n 0 * limbBase + window.getD (n - 1) 0
        - min ((window.getD n 0 * limbBase + window.getD (n - 1) 0) / vn.getD (n - 1) 0) (limbBase - 1)
          * vn.getD (n - 1) 0) := rfl

/-- R184: the trial quotient limb after correction is the true one or one more. -/
theorem trialQuotient_spec {n : Nat} (hn : 2 ≤ n) {vn window : List Nat} (hvl : vn.length = n) (hwl : window.length = n + 1)
    (hv : ∀ x ∈ vn, x < limbBase) (hw : ∀ x ∈ window, x < limbBase) (htop : limbBase ≤ 2 * vn.getD (n - 1) 0)
    (hlt : fromLimbs window < limbBase * fromLimbs vn) :
    fromLimbs window / fromLimbs vn ≤ trialQuotient n vn window
      ∧ trialQuotient n vn window ≤ fromLimbs window / fromLimbs vn + 1 ∧ trialQuotient n vn window < limbBase := by
  obtain ⟨k, rfl⟩ : ∃ k, n = k + 2 := ⟨n - 2, by omega⟩
  obtain ⟨vlo, v2, v1, rfl, hvlo, hv2, hv1⟩ := exists_top_two hvl
  obtain ⟨ulo, u2, u1, u0, rfl, hulo, hu2, hu1, hu0⟩ := exists_top_three hwl
  have hB := limbBase_pos
  have e1 : (vlo ++ [v2, v1]).getD (k + 2 - 1) 0 = v1 := hv1
  have e2 : (vlo ++ [v2, v1]).getD (k + 2 - 2) 0 = v2 := hv2
  have e3 : (ulo ++ [u2, u1, u0]).getD (k + 2) 0 = u0 := hu0
  have e4 : (ulo ++ [u2, u1, u0]).getD (k + 2 - 1) 0 = u1 := hu1
  have e5 : (ulo ++ [u2, u1, u0]).getD (k + 2 - 2) 0 = u2 := hu2
  rw [trialQuotient_eq, e1, e2, e3, e4, e5]
  rw [e1] at htop
  have hv1pos : 0 < v1 := by omega
  have hvlo' : fromLimbs vlo < limbBase ^ k := hvlo ▸ fromLimbs_lt fun x hx => hv x (by simp [hx])
  have hulo' : fromLimbs ulo < limbBase ^ k := hulo ▸ fromLimbs_lt fun x hx => hw x (by simp [hx])
  have hV : fromLimbs (vlo ++ [v2, v1]) = (v1 * limbBase + v2) * limbBase ^ k + fromLimbs vlo := by
    rw [fromLimbs_append, hvlo]; simp only [fromLimbs_cons, fromLimbs_nil]; ring
  have hW : fromLimbs (ulo ++ [u2, u1, u0])
      = ((u0 * limbBase + u1) * limbBase + u2) * limbBase ^ k + fromLimbs ulo := by
    rw [fromLimbs_append, hulo]; simp only [fromLimbs_cons, fromLimbs_nil]; ring
  rw [hV, hW] at hlt
  rw [hV, hW]
  have hv2' : v2 < limbBase := hv v2 (by simp)
  have hu2' : u2 < limbBase := hw u2 (by simp)
  generalize limbBase ^ k = P at *
  generalize u0 * limbBase + u1 = num at *
  generalize hqd : ((num * limbBase + u2) * P + fromLimbs ulo) / ((v1 * limbBase + v2) * P + fromLimbs vlo) = q at *
  have hqV : q * ((v1 * limbBase + v2) * P + fromLimbs vlo) ≤ (num * limbBase + u2) * P + fromLimbs ulo := by
    rw [← hqd]; exact Nat.div_mul_le_self _ _
  have hqB : q < limbBase := by
    
    rw [← hqd]
    refine (Nat.div_lt_iff_lt_mul (Nat.pos_of_ne_zero fun h0 => ?_)).2 hlt
    rw [h0, Nat.mul_zero] at hlt
    exact Nat.not_lt_zero _ hlt
  have hq3 := mul_le_of_tops hulo' hqV
  have hq2 := mul_le_of_tops hu2' hq3
  have hq0 : q ≤ min (num / v1) (limbBase - 1) :=
    Nat.le_min.2 ⟨(Nat.le_div_iff_mul_le hv1pos).2 hq2, by omega⟩
  have hmin : min (num / v1) (limbBase - 1) * v1 ≤ num :=
    Nat.le_trans (Nat.mul_le_mul_right _ (Nat.min_le_left _ _)) (Nat.div_mul_le_self _ _)
  have hmB : min (num / v1) (limbBase - 1) < limbBase := by
    have := Nat.min_le_right (num / v1) (limbBase - 1); omega
  generalize min (num / v1) (limbBase - 1) = qm at *
  obtain ⟨h1, h2, h3⟩ := correctQhat_spec (u2 := u2) 2 (Nat.add_sub_cancel' hmin) hmB hv2' hq0 hq3 (by omega)
  exact ⟨h1, qhat_bounds hvlo' hulo' htop hqd.symm h1 h2 h3, h2⟩

/-- R184: one pass of the loop divides its window exactly. -/
theorem quotientStep_spec {n : Nat} (hn : 2 ≤ n) {vn window : List Nat} (hvl : vn.length = n) (hwl : window.length = n + 1)
    (hv : ∀ x ∈ vn, x < limbBase) (hw : ∀ x ∈ window, x < limbBase) (htop : limbBase ≤ 2 * vn.getD (n - 1) 0)
    (hlt : fromLimbs window < limbBase * fromLimbs vn) :
    (quotientStep n vn window).2 = fromLimbs window / fromLimbs vn
      ∧ fromLimbs (quotientStep n vn window).1 = fromLimbs window % fromLimbs vn
      ∧ (quotientStep n vn window).1.length = n + 1 := by
  obtain ⟨h1, h2, h3⟩ := trialQuotient_spec hn hvl hwl hv hw htop hlt
  obtain ⟨m1, m2, m3, m4⟩ := mulSub_spec (trialQuotient n vn window) vn window 0 0 (by omega) hw hv h3 limbBase_pos (by omega)
  have hwB := fromLimbs_lt hw
  have hrB := fromLimbs_lt m4
  rw [m3] at hrB
  have hVpos : 0 < fromLimbs vn := by
    rcases Nat.eq_zero_or_pos (fromLimbs vn) with h | h
    · rw [h] at hlt; omega
    · exact h
  have hdm := Nat.div_add_mod (fromLimbs window) (fromLimbs vn)
  have hml := Nat.mod_lt (fromLimbs window) hVpos
  have hquot : ∀ a b : Nat, fromLimbs window = fromLimbs vn * a + b → b < fromLimbs vn →
      fromLimbs window / fromLimbs vn = a ∧ fromLimbs window % fromLimbs vn = b := by
    intro a b hab hb
    rw [hab]
    exact ⟨by rw [Nat.mul_add_div hVpos, Nat.div_eq_of_lt hb, Nat.add_zero], by rw [Nat.mul_add_mod, Nat.mod_eq_of_lt hb]⟩
  simp only [quotientStep]
  generalize trialQuotient n vn window = qh at *
  generalize (mulSub qh vn window 0 0).1 = w at *
  generalize (mulSub qh vn window 0 0).2 = b at *
  generalize fromLimbs window / fromLimbs vn = q at *
  generalize fromLimbs window % fromLimbs vn = r at *
  rw [hwl] at *
  generalize hM : limbBase ^ (n + 1) = M at *
  have hM' : ((limbBase : Int)) ^ (n + 1) = (M : Int) := by rw [← hM]; push_cast; rfl
  rw [hM'] at m1
  split
  · rename_i hb
    subst hb
    have hqh : qh = q + 1 := by
      by_contra hne
      have : qh = q := by omega
      subst this
      have : (fromLimbs w : Int) = r + M := by rw [m1, ← hdm]; push_cast; ring
      omega
    subst hqh
    refine ⟨by simp, ?_, by rw [length_addBack _ _ _ (by omega), m3]⟩
    rw [fromLimbs_addBack _ _ _ (by omega), m3, hM]
    have : fromLimbs vn + fromLimbs w + 0 = r + M := by
      have : (fromLimbs w : Int) = r - fromLimbs vn + M := by rw [m1, ← hdm]; push_cast; ring
      omega
    rw [this, Nat.add_mod_right, Nat.mod_eq_of_lt]
    have : r ≤ fromLimbs window := by rw [← hdm]; exact Nat.le_add_left _ _
    omega
  · rename_i hb
    have hb0 : b = 0 := by omega
    subst hb0
    have hqh : qh = q := by
      by_contra hne
      have : qh = q + 1 := by omega
      subst this
      have : (fromLimbs w : Int) = r - fromLimbs vn := by rw [m1, ← hdm]; push_cast; ring
      omega
    subst hqh
    refine ⟨rfl, ?_, m3⟩
    have : (fromLimbs w : Int) = r := by rw [m1, ← hdm]; push_cast; ring
    exact_mod_cast this

theorem addBack_lt (vs us : List Nat) (c : Nat) : ∀ x ∈ addBack vs us c, x < limbBase := by
  induction vs generalizing us c with
  | nil =>
    cases us with
    | nil => simp [addBack]
    | cons u us => intro x hx; simp only [addBack, List.mem_singleton] at hx; rw [hx]; exact Nat.mod_lt _ limbBase_pos
  | cons v vs ih =>
    cases us with
    | nil => simp [addBack]
    | cons u us =>
      intro x hx
      rcases List.mem_cons.1 hx with rfl | hx
      · exact Nat.mod_lt _ limbBase_pos
      · exact ih us _ x hx

theorem quotientStep_lt {n : Nat} (hn : 2 ≤ n) {vn window : List Nat} (hvl : vn.length = n) (hwl : window.length = n + 1)
    (hv : ∀ x ∈ vn, x < limbBase) (hw : ∀ x ∈ window, x < limbBase) (htop : limbBase ≤ 2 * vn.getD (n - 1) 0)
    (hlt : fromLimbs window < limbBase * fromLimbs vn) : ∀ x ∈ (quotientStep n vn window).1, x < limbBase := by
  obtain ⟨-, -, h3⟩ := trialQuotient_spec hn hvl hwl hv hw htop hlt
  obtain ⟨-, -, -, m4⟩ := mulSub_spec (trialQuotient n vn window) vn window 0 0 (by omega) hw hv h3 limbBase_pos (by omega)
  simp only [quotientStep]
  split
  · exact addBack_lt _ _ _
  · exact m4

/-! ### The loop -/

theorem quotientLoop_succ (n : Nat) (vn : List Nat) (j : Nat) (un : List Nat) :
    quotientLoop n vn (j + 1) un =
      ((quotientLoop n vn j (un.take j ++ (quotientStep n vn ((un.drop j).take (n + 1))).1 ++ un.drop (j + n + 1))).1
          ++ [(quotientStep n vn ((un.drop j).take (n + 1))).2],
       (quotientLoop n vn j (un.take j ++ (quotientStep n vn ((un.drop j).take (n + 1))).1 ++ un.drop (j + n + 1))).2) := rfl

@[simp] theorem length_quotientLoop (n : Nat) (vn : List Nat) (count : Nat) (un : List Nat) :
    (quotientLoop n vn count un).1.length = count := by
  induction count generalizing un with
  | zero => rfl
  | succ j ih => simp [quotientLoop_succ, ih]

theorem fromLimbs_take_drop (l : List Nat) (k : Nat) (h : k ≤ l.length) :
    fromLimbs l = fromLimbs (l.take k) + limbBase ^ k * fromLimbs (l.drop k) := by
  conv_lhs => rw [← List.take_append_drop k l, fromLimbs_append, List.length_take, Nat.min_eq_left h]

/-- R184: the loop over j divides the number in the low n + count limbs of un exactly, when the limbs above the low
count of them are below the divisor; what is left in un is the remainder. -/
theorem quotientLoop_spec {n : Nat} (hn : 2 ≤ n) {vn : List Nat} (hvl : vn.length = n) (hv : ∀ x ∈ vn, x < limbBase)
    (htop : limbBase ≤ 2 * vn.getD (n - 1) 0) (count : Nat) {un : List Nat} (hul : n + count ≤ un.length)
    (hu : ∀ x ∈ un, x < limbBase) (hlt : fromLimbs ((un.take (n + count)).drop count) < fromLimbs vn) :
    fromLimbs (quotientLoop n vn count un).1 = fromLimbs (un.take (n + count)) / fromLimbs vn
      ∧ fromLimbs ((quotientLoop n vn count un).2.take n) = fromLimbs (un.take (n + count)) % fromLimbs vn := by
  have hVB : fromLimbs vn < limbBase ^ n := hvl ▸ fromLimbs_lt hv
  have hVpos : 0 < fromLimbs vn := by omega
  induction count generalizing un with
  | zero =>
    simp only [Nat.add_zero, List.drop_zero] at hlt
    simp [quotientLoop, Nat.div_eq_of_lt hlt, Nat.mod_eq_of_lt hlt]
  | succ j ih =>
    have hwl : ((un.drop j).take (n + 1)).length = n + 1 := by simp; omega
    have hwm : ∀ x ∈ (un.drop j).take (n + 1), x < limbBase := fun x hx => hu x (List.mem_of_mem_drop (List.mem_of_mem_take hx))
    have hwd : (un.drop j).take (n + 1) = (un.take (n + (j + 1))).drop j := by
      rw [List.drop_take]; congr 1; omega
    have hwlt : fromLimbs ((un.drop j).take (n + 1)) < limbBase * fromLimbs vn := by
      rw [fromLimbs_take_drop _ 1 (by omega)]
      have e : ((un.drop j).take (n + 1)).drop 1 = (un.take (n + (j + 1))).drop (j + 1) := by
        rw [hwd, List.drop_drop]
      have h1 : fromLimbs (((un.drop j).take (n + 1)).take 1) < limbBase := by
        have := fromLimbs_lt (xs := ((un.drop j).take (n + 1)).take 1) fun x hx => hwm x (List.mem_of_mem_take hx)
        have hl1 : (((un.drop j).take (n + 1)).take 1).length = 1 := by simp [hwl]
        rwa [hl1, pow_one] at this
      rw [e, pow_one]
      have := Nat.mul_le_mul_left limbBase hlt
      rw [Nat.mul_succ] at this
      omega
    obtain ⟨s1, s2, s3⟩ := quotientStep_spec hn hvl hwl hv hwm htop hwlt
    have s4 := quotientStep_lt hn hvl hwl hv hwm htop hwlt
    rw [quotientLoop_succ]
    dsimp only
    generalize hw : (quotientStep n vn ((un.drop j).take (n + 1))).1 = w at *
    have hun2 : (un.take j ++ w ++ un.drop (j + n + 1)).length = un.length := by simp [s3]; omega
    have htake : (un.take j ++ w ++ un.drop (j + n + 1)).take (n + j) = un.take j ++ w.take n := by
      rw [List.append_assoc, List.take_append, List.take_append]
      have hjl : (un.take j).length = j := by simp; omega
      rw [hjl, List.take_of_length_le (by omega), Nat.add_sub_cancel, s3]
      simp
    have hwn : fromLimbs (w.take n) = fromLimbs w := by
      have h1 := fromLimbs_take_drop w n (by omega)
      have h2 : fromLimbs w < limbBase ^ n := by
        rw [s2]; exact Nat.lt_trans (Nat.mod_lt _ hVpos) hVB
      rcases Nat.eq_zero_or_pos (fromLimbs (w.drop n)) with h | h
      · rw [h1, h]; simp
      · have := Nat.le_mul_of_pos_right (limbBase ^ n) h; omega
    have hjl : (un.take j).length = j := by simp; omega
    obtain ⟨i1, i2⟩ := ih (un := un.take j ++ w ++ un.drop (j + n + 1)) (by omega)
      (by
        intro x hx
        rcases List.mem_append.1 hx with hx | hx
        · rcases List.mem_append.1 hx with hx | hx
          · exact hu x (List.mem_of_mem_take hx)
          · exact s4 x hx
        · exact hu x (List.mem_of_mem_drop hx))
      (by
        rw [htake, List.drop_left' hjl, hwn, s2]
        exact Nat.mod_lt _ hVpos)
    have hU : fromLimbs (un.take (n + (j + 1)))
        = fromLimbs (un.take j) + limbBase ^ j * fromLimbs ((un.drop j).take (n + 1)) := by
      rw [fromLimbs_take_drop (un.take (n + (j + 1))) j (by simp; omega), ← hwd, List.take_take, Nat.min_eq_left (by omega)]
    have hU2 : fromLimbs (un.take (n + (j + 1)))
        = fromLimbs (un.take j ++ w.take n) + fromLimbs vn * (limbBase ^ j * (fromLimbs ((un.drop j).take (n + 1)) / fromLimbs vn)) := by
      rw [hU, fromLimbs_append, hjl, hwn, s2]
      conv_lhs => rw [← Nat.div_add_mod (fromLimbs ((un.drop j).take (n + 1))) (fromLimbs vn)]
      ring
    rw [htake] at i1 i2
    refine ⟨?_, ?_⟩
    · rw [fromLimbs_append, length_quotientLoop, i1, hU2, Nat.add_mul_div_left _ _ hVpos, s1]
      simp
    · rw [i2, hU2, Nat.add_mul_mod_self_left]

/-- R183: the significant length bounds the number from both sides. -/
theorem significantLimbs_spec {xs : List Nat} (h : ∀ x ∈ xs, x < limbBase) :
    significantLimbs xs ≤ xs.length ∧ fromLimbs xs < limbBase ^ significantLimbs xs
      ∧ (significantLimbs xs ≠ 0 → limbBase ^ (significantLimbs xs - 1) ≤ fromLimbs xs) := by
  induction xs with
  | nil => simp [significantLimbs]
  | cons x xs ih =>
    obtain ⟨i1, i2, i3⟩ := ih fun y hy => h y (by simp [hy])
    have hx := h x (by simp)
    unfold significantLimbs
    by_cases h0 : significantLimbs xs = 0
    · rw [h0, pow_zero] at i2
      have h00 : fromLimbs xs = 0 := by omega
      by_cases hx0 : x = 0
      · simp [h0, hx0, h00]
      · simp only [h0, hx0, if_true, if_false, fromLimbs_cons, h00, List.length_cons]
        refine ⟨by omega, by simpa using hx, fun _ => by simp; omega⟩
    · obtain ⟨k, hk⟩ : ∃ k, significantLimbs xs = k + 1 := ⟨significantLimbs xs - 1, by omega⟩
      simp only [h0, if_false, fromLimbs_cons, List.length_cons]
      rw [hk] at i2 i3 ⊢
      have i3' := i3 (by omega)
      refine ⟨by omega, ?_, fun _ => ?_⟩
      · have := Nat.mul_le_mul_left limbBase i2
        rw [Nat.mul_succ] at this
        rw [pow_succ' limbBase (k + 1)]; omega
      · have := Nat.mul_le_mul_left limbBase i3'
        simp only [Nat.add_sub_cancel] at this ⊢
        rw [pow_succ' limbBase k]; omega

/-- R183: the comparison from the top limb down is that of the numbers. -/
theorem limbsBelow_iff {xs ys : List Nat} (hl : xs.length = ys.length) (hx : ∀ x ∈ xs, x < limbBase)
    (hy : ∀ y ∈ ys, y < limbBase) : limbsBelow xs ys = true ↔ fromLimbs xs < fromLimbs ys := by
  induction xs generalizing ys with
  | nil => cases ys with
    | nil => simp [limbsBelow]
    | cons => simp at hl
  | cons x xs ih => cases ys with
    | nil => simp at hl
    | cons y ys =>
      have hx0 := hx x (by simp)
      have hy0 := hy y (by simp)
      have hx' : ∀ z ∈ xs, z < limbBase := fun z hz => hx z (by simp [hz])
      have hy' : ∀ z ∈ ys, z < limbBase := fun z hz => hy z (by simp [hz])
      have hl' : xs.length = ys.length := by simpa using hl
      simp only [limbsBelow, Bool.or_eq_true, Bool.and_eq_true, beq_iff_eq, decide_eq_true_eq, fromLimbs_cons]
      rw [ih hl' hx' hy']
      rcases Nat.lt_trichotomy (fromLimbs xs) (fromLimbs ys) with h | h | h
      · have := Nat.mul_le_mul_left limbBase h
        rw [Nat.mul_succ] at this
        exact ⟨fun _ => by omega, fun _ => .inl h⟩
      · rw [h]
        have := fromLimbs_injective hx' hy' hl' h
        exact ⟨fun hh => by rcases hh with hh | hh <;> omega, fun hh => .inr ⟨this, by omega⟩⟩
      · have := Nat.mul_le_mul_left limbBase h
        rw [Nat.mul_succ] at this
        constructor
        · rintro (hh | ⟨hh, -⟩)
          · omega
          · subst hh; omega
        · intro hh; omega

/-- R11, R184: shifting by clz32 sets the top bit of a 32-bit number and no bit above it. -/
theorem clz32_spec {x : Nat} (h0 : x ≠ 0) (hx : x < limbBase) : limbBase ≤ 2 * (x * 2 ^ clz32 x) ∧ (x + 1) * 2 ^ clz32 x ≤ limbBase := by
  have h1 := Nat.log2_self_le h0
  have h2 := Nat.lt_log2_self (n := x)
  have h3 : Nat.log2 x < 32 := (Nat.log2_lt h0).2 hx
  have e : limbBase = 2 ^ (Nat.log2 x + 1) * 2 ^ clz32 x := by
    rw [← pow_add]; unfold clz32 limbBase; congr 1; omega
  have hp : 0 < 2 ^ clz32 x := Nat.pow_pos (by decide)
  rw [e, pow_succ]
  refine ⟨?_, ?_⟩
  · have := Nat.mul_le_mul_right (2 ^ clz32 x) h1; nlinarith
  · rw [← pow_succ]; exact Nat.mul_le_mul_right _ h2

/-! ### The general case -/

/-- R184, R185: the general case on numbers. -/
theorem divideGeneral_spec {L n : Nat} (hn : 2 ≤ n) {u v : List Nat} (hnL : n ≤ L)
    (hU : fromLimbs u < limbBase ^ L) (hv : ∀ x ∈ v, x < limbBase) (hnv : n ≤ v.length)
    (hV : fromLimbs v < limbBase ^ n) (hV' : limbBase ^ (n - 1) ≤ fromLimbs v) :
    divideGeneral L n u v = (fromLimbs u / fromLimbs v, fromLimbs u % fromLimbs v) := by
  have hB := limbBase_pos
  obtain ⟨k, rfl⟩ : ∃ k, n = k + 2 := ⟨n - 2, by omega⟩
  have htv : v.getD (k + 1) 0 = fromLimbs v / limbBase ^ (k + 1) := by
    have h1 := fromLimbs_take_drop v (k + 1) (by omega)
    have h2 : fromLimbs (v.take (k + 1)) < limbBase ^ (k + 1) := by
      have := fromLimbs_lt (xs := v.take (k + 1)) fun x hx => hv x (List.mem_of_mem_take hx)
      rwa [List.length_take, Nat.min_eq_left (by omega)] at this
    have h3 : fromLimbs v / limbBase ^ (k + 1) = fromLimbs (v.drop (k + 1)) := by
      rw [h1, Nat.add_mul_div_left _ _ (Nat.pow_pos hB), Nat.div_eq_of_lt h2, Nat.zero_add]
    have h4 : fromLimbs v / limbBase ^ (k + 1) < limbBase := by
      rw [Nat.div_lt_iff_lt_mul (Nat.pow_pos hB), ← pow_succ']; exact hV
    rw [h3] at h4 ⊢
    have h5 : (v.drop (k + 1)) = v.getD (k + 1) 0 :: v.drop (k + 2) := by
      rw [List.drop_eq_getElem_cons (by omega)]; simp [List.getD_eq_getElem?_getD, List.getElem?_eq_getElem (show k + 1 < v.length by omega)]
    rw [h5, fromLimbs_cons] at h4 ⊢
    rcases Nat.eq_zero_or_pos (fromLimbs (v.drop (k + 2))) with h | h
    · rw [h]; simp
    · have := Nat.le_mul_of_pos_right limbBase h; omega
  have htop0 : v.getD (k + 1) 0 ≠ 0 := by
    rw [htv]
    exact Nat.ne_of_gt (Nat.div_pos hV' (Nat.pow_pos hB))
  have htopB : v.getD (k + 1) 0 < limbBase := by
    rw [htv, Nat.div_lt_iff_lt_mul (Nat.pow_pos hB), ← pow_succ']; exact hV
  obtain ⟨c1, c2⟩ := clz32_spec htop0 htopB
  have hs32 : 2 ^ clz32 (v.getD (k + 1) 0) ≤ limbBase := by
    unfold clz32 limbBase; exact Nat.pow_le_pow_right (by decide) (by omega)
  have hdec := Nat.div_add_mod (fromLimbs v) (limbBase ^ (k + 1))
  have hmod := Nat.mod_lt (fromLimbs v) (Nat.pow_pos (n := k + 1) hB)
  rw [← htv] at hdec
  simp only [divideGeneral, show k + 2 - 1 = k + 1 from rfl]
  generalize hp : 2 ^ clz32 (v.getD (k + 1) 0) = p at *
  have hp0 : 0 < p := by rw [← hp]; exact Nat.pow_pos (by decide)
  generalize v.getD (k + 1) 0 = top at *
  generalize hUd : fromLimbs u = U at *
  generalize hVd : fromLimbs v = V at *
  have hVp : V * p < limbBase ^ (k + 2) := by
    have h1 : V < (top + 1) * limbBase ^ (k + 1) := by rw [Nat.succ_mul, Nat.mul_comm top]; omega
    have h2 := Nat.mul_lt_mul_of_pos_right h1 hp0
    have h3 := Nat.mul_le_mul_right (limbBase ^ (k + 1)) c2
    rw [pow_succ' limbBase (k + 1)]
    linarith [Nat.mul_right_comm (top + 1) p (limbBase ^ (k + 1))]
  have hvn : fromLimbs (toLimbs (k + 2) (V * p)) = V * p := fromLimbs_toLimbs_of_lt hVp
  have hUp : U * p < limbBase ^ (L + 1) := by
    rw [pow_succ]; exact Nat.mul_lt_mul_of_lt_of_le hU hs32 hB
  have hun : fromLimbs (toLimbs (L + 1) (U * p)) = U * p := fromLimbs_toLimbs_of_lt hUp
  have hcount : k + 2 + (L - (k + 2) + 1) = L + 1 := by omega
  obtain ⟨q1, q2⟩ := quotientLoop_spec hn (length_toLimbs (k + 2) (V * p)) (toLimbs_lt _ _)
    (by
      rw [show k + 2 - 1 = k + 1 from rfl, getD_toLimbs _ _ _ (by omega)]
      rw [Nat.mod_eq_of_lt (by rw [Nat.div_lt_iff_lt_mul (Nat.pow_pos hB), ← pow_succ']; exact hVp)]
      refine Nat.le_trans c1 (Nat.mul_le_mul_left _ ?_)
      rw [Nat.le_div_iff_mul_le (Nat.pow_pos hB)]
      have : top * limbBase ^ (k + 1) ≤ V := by rw [← hdec, Nat.mul_comm]; exact Nat.le_add_right _ _
      have := Nat.mul_le_mul_right p this
      linarith [Nat.mul_right_comm top p (limbBase ^ (k + 1))])
    (L - (k + 2) + 1) (un := toLimbs (L + 1) (U * p)) (by simp; omega) (toLimbs_lt _ _)
    (by
      rw [hcount, List.take_of_length_le (by simp), drop_toLimbs _ _ _ (by omega), hvn, fromLimbs_toLimbs]
      refine Nat.lt_of_le_of_lt (Nat.mod_le _ _) ?_
      rw [Nat.div_lt_iff_lt_mul (Nat.pow_pos hB)]
      have h1 : limbBase ^ L ≤ V * limbBase ^ (L - (k + 2) + 1) := by
        have := Nat.mul_le_mul_right (limbBase ^ (L - (k + 2) + 1)) hV'
        rw [← pow_add] at this
        rwa [show k + 2 - 1 + (L - (k + 2) + 1) = L by omega] at this
      calc U * p < limbBase ^ L * p := Nat.mul_lt_mul_of_pos_right hU hp0
        _ ≤ V * limbBase ^ (L - (k + 2) + 1) * p := Nat.mul_le_mul_right _ h1
        _ = V * p * limbBase ^ (L - (k + 2) + 1) := by ring)
  have htk : (toLimbs (L + 1) (U * p)).take (L + 1) = toLimbs (L + 1) (U * p) := List.take_of_length_le (by simp)
  rw [hcount, htk, hun, hvn] at q1 q2
  rw [q1, q2, Nat.mul_div_mul_right _ _ hp0, Nat.mul_mod_mul_right, Nat.mul_div_cancel _ hp0]

end Sys2Proof.Machine
end

