-- ==== Sys2Proof/Laws/Encoding.lean ====
section
/-! SUPPORT. What each field of an encoded word reads back as (spec/30_encoding.md R71, R72). -/

namespace Sys2Proof

theorem toFin_eq_of_eq {x : Fin 8} {y : BitVec 3} (h : y = BitVec.ofFin x) : (y.toFin : Fin 8) = x := by
  subst h; rfl

@[simp] theorem wideReg_wideField (k : WReg) : wideReg (wideField k) = k := by
  apply Fin.ext
  simp only [wideReg, wideField]
  omega

/-! ### Format R -/

@[simp] theorem opcodeOf_formatR (op : BitVec 8) (r1 r2 r3 r4 r5 r6 : Fin 8) (m : Bool) :
    opcodeOf (formatR op r1 r2 r3 r4 r5 r6 m) = op := by
  unfold opcodeOf formatR regAt
  ext i hi
  interval_cases i <;> simp

@[simp] theorem fieldR1_formatR (op : BitVec 8) (r1 r2 r3 r4 r5 r6 : Fin 8) (m : Bool) :
    fieldR1 (formatR op r1 r2 r3 r4 r5 r6 m) = r1 := by
  unfold fieldR1 regField formatR regAt
  apply toFin_eq_of_eq
  ext i hi
  interval_cases i <;> simp

@[simp] theorem fieldR2_formatR (op : BitVec 8) (r1 r2 r3 r4 r5 r6 : Fin 8) (m : Bool) :
    fieldR2 (formatR op r1 r2 r3 r4 r5 r6 m) = r2 := by
  unfold fieldR2 regField formatR regAt
  apply toFin_eq_of_eq
  ext i hi
  interval_cases i <;> simp

@[simp] theorem fieldR3_formatR (op : BitVec 8) (r1 r2 r3 r4 r5 r6 : Fin 8) (m : Bool) :
    fieldR3 (formatR op r1 r2 r3 r4 r5 r6 m) = r3 := by
  unfold fieldR3 regField formatR regAt
  apply toFin_eq_of_eq
  ext i hi
  interval_cases i <;> simp

@[simp] theorem fieldR4_formatR (op : BitVec 8) (r1 r2 r3 r4 r5 r6 : Fin 8) (m : Bool) :
    fieldR4 (formatR op r1 r2 r3 r4 r5 r6 m) = r4 := by
  unfold fieldR4 regField formatR regAt
  apply toFin_eq_of_eq
  ext i hi
  interval_cases i <;> simp

@[simp] theorem fieldR5_formatR (op : BitVec 8) (r1 r2 r3 r4 r5 r6 : Fin 8) (m : Bool) :
    fieldR5 (formatR op r1 r2 r3 r4 r5 r6 m) = r5 := by
  unfold fieldR5 regField formatR regAt
  apply toFin_eq_of_eq
  ext i hi
  interval_cases i <;> simp

@[simp] theorem fieldR6_formatR (op : BitVec 8) (r1 r2 r3 r4 r5 r6 : Fin 8) (m : Bool) :
    fieldR6 (formatR op r1 r2 r3 r4 r5 r6 m) = r6 := by
  unfold fieldR6 regField formatR regAt
  apply toFin_eq_of_eq
  ext i hi
  interval_cases i <;> simp

@[simp] theorem fieldM_formatR (op : BitVec 8) (r1 r2 r3 r4 r5 r6 : Fin 8) (m : Bool) :
    fieldM (formatR op r1 r2 r3 r4 r5 r6 m) = m := by
  unfold fieldM formatR regAt
  simp

/-- The mask leaves of a format R word what it leaves of the opcode, when it leaves nothing of any operand field. -/
theorem formatR_and {mask pattern : Word} {op : BitVec 8} {r1 r2 r3 r4 r5 r6 : Fin 8} {m : Bool}
    (h1 : regAt r1 8 &&& mask = 0) (h2 : regAt r2 11 &&& mask = 0) (h3 : regAt r3 14 &&& mask = 0)
    (h4 : regAt r4 17 &&& mask = 0) (h5 : regAt r5 20 &&& mask = 0) (h6 : regAt r6 23 &&& mask = 0)
    (hm : (BitVec.ofBool m).setWidth 32 <<< 26 &&& mask = 0) (ho : op.setWidth 32 &&& mask = pattern) :
    formatR op r1 r2 r3 r4 r5 r6 m &&& mask = pattern := by
  have distrib : ∀ a b c : Word, (a ||| b) &&& c = a &&& c ||| b &&& c := fun a b c => by
    ext i hi; simp [Bool.and_or_distrib_right]
  simp [formatR, distrib, h1, h2, h3, h4, h5, h6, hm, ho]

/-! ### Format I -/

@[simp] theorem opcodeOf_formatI (op : BitVec 8) (r1 : Fin 8) (imm : BitVec 16) :
    opcodeOf (formatI op r1 imm) = op := by
  unfold opcodeOf formatI regAt
  ext i hi
  interval_cases i <;> simp

@[simp] theorem fieldR1_formatI (op : BitVec 8) (r1 : Fin 8) (imm : BitVec 16) :
    fieldR1 (formatI op r1 imm) = r1 := by
  unfold fieldR1 regField formatI regAt
  apply toFin_eq_of_eq
  ext i hi
  interval_cases i <;> simp

@[simp] theorem fieldImm_formatI (op : BitVec 8) (r1 : Fin 8) (imm : BitVec 16) :
    fieldImm (formatI op r1 imm) = imm := by
  unfold fieldImm formatI regAt
  ext i hi
  interval_cases i <;> simp

end Sys2Proof
end

