-- ==== Sys2Proof/Laws/State.lean ====
section
/-! SUPPORT. One lemma per field per update of the state, so that no later proof unfolds a record update, and the
read-after-write laws of the register files. -/

namespace Sys2Proof.Machine

/-! ### Fields under updates -/

@[simp] theorem State.setD_cfg (s : State) (i : DReg) (v : Dec) : (s.setD i v).cfg = s.cfg := rfl
@[simp] theorem State.setD_dregs (s : State) (i : DReg) (v : Dec) : (s.setD i v).dregs = s.dregs.set i.val v i.isLt := rfl
@[simp] theorem State.setD_xregs (s : State) (i : DReg) (v : Dec) : (s.setD i v).xregs = s.xregs := rfl
@[simp] theorem State.setD_wregs (s : State) (i : DReg) (v : Dec) : (s.setD i v).wregs = s.wregs := rfl
@[simp] theorem State.setD_str (s : State) (i : DReg) (v : Dec) : (s.setD i v).str = s.str := rfl
@[simp] theorem State.setD_slen (s : State) (i : DReg) (v : Dec) : (s.setD i v).slen = s.slen := rfl
@[simp] theorem State.setD_status (s : State) (i : DReg) (v : Dec) : (s.setD i v).status = s.status := rfl
@[simp] theorem State.setD_cause (s : State) (i : DReg) (v : Dec) : (s.setD i v).cause = s.cause := rfl
@[simp] theorem State.setD_ecmd (s : State) (i : DReg) (v : Dec) : (s.setD i v).ecmd = s.ecmd := rfl
@[simp] theorem State.setD_host (s : State) (i : DReg) (v : Dec) : (s.setD i v).host = s.host := rfl
@[simp] theorem State.setD_readData (s : State) (i : DReg) (v : Dec) : (s.setD i v).readData = s.readData := rfl
@[simp] theorem State.setD_resets (s : State) (i : DReg) (v : Dec) : (s.setD i v).resets = s.resets := rfl

@[simp] theorem State.setX_cfg (s : State) (i : XReg) (v : Scalar) : (s.setX i v).cfg = s.cfg := rfl
@[simp] theorem State.setX_dregs (s : State) (i : XReg) (v : Scalar) : (s.setX i v).dregs = s.dregs := rfl
@[simp] theorem State.setX_xregs (s : State) (i : XReg) (v : Scalar) : (s.setX i v).xregs = s.xregs.set i.val v i.isLt := rfl
@[simp] theorem State.setX_wregs (s : State) (i : XReg) (v : Scalar) : (s.setX i v).wregs = s.wregs := rfl
@[simp] theorem State.setX_str (s : State) (i : XReg) (v : Scalar) : (s.setX i v).str = s.str := rfl
@[simp] theorem State.setX_slen (s : State) (i : XReg) (v : Scalar) : (s.setX i v).slen = s.slen := rfl
@[simp] theorem State.setX_status (s : State) (i : XReg) (v : Scalar) : (s.setX i v).status = s.status := rfl
@[simp] theorem State.setX_cause (s : State) (i : XReg) (v : Scalar) : (s.setX i v).cause = s.cause := rfl
@[simp] theorem State.setX_ecmd (s : State) (i : XReg) (v : Scalar) : (s.setX i v).ecmd = s.ecmd := rfl
@[simp] theorem State.setX_host (s : State) (i : XReg) (v : Scalar) : (s.setX i v).host = s.host := rfl
@[simp] theorem State.setX_readData (s : State) (i : XReg) (v : Scalar) : (s.setX i v).readData = s.readData := rfl
@[simp] theorem State.setX_resets (s : State) (i : XReg) (v : Scalar) : (s.setX i v).resets = s.resets := rfl

@[simp] theorem State.setW_cfg (s : State) (k : WReg) (v : Wide) : (s.setW k v).cfg = s.cfg := rfl
@[simp] theorem State.setW_dregs (s : State) (k : WReg) (v : Wide) : (s.setW k v).dregs = s.dregs := rfl
@[simp] theorem State.setW_xregs (s : State) (k : WReg) (v : Wide) : (s.setW k v).xregs = s.xregs := rfl
@[simp] theorem State.setW_wregs (s : State) (k : WReg) (v : Wide) : (s.setW k v).wregs = s.wregs.set k.val v k.isLt := rfl
@[simp] theorem State.setW_str (s : State) (k : WReg) (v : Wide) : (s.setW k v).str = s.str := rfl
@[simp] theorem State.setW_slen (s : State) (k : WReg) (v : Wide) : (s.setW k v).slen = s.slen := rfl
@[simp] theorem State.setW_status (s : State) (k : WReg) (v : Wide) : (s.setW k v).status = s.status := rfl
@[simp] theorem State.setW_cause (s : State) (k : WReg) (v : Wide) : (s.setW k v).cause = s.cause := rfl
@[simp] theorem State.setW_ecmd (s : State) (k : WReg) (v : Wide) : (s.setW k v).ecmd = s.ecmd := rfl
@[simp] theorem State.setW_host (s : State) (k : WReg) (v : Wide) : (s.setW k v).host = s.host := rfl
@[simp] theorem State.setW_readData (s : State) (k : WReg) (v : Wide) : (s.setW k v).readData = s.readData := rfl
@[simp] theorem State.setW_resets (s : State) (k : WReg) (v : Wide) : (s.setW k v).resets = s.resets := rfl

@[simp] theorem State.setText_cfg (s : State) (b : Vector Byte 40) (n : Word) : (s.setText b n).cfg = s.cfg := rfl
@[simp] theorem State.setText_dregs (s : State) (b : Vector Byte 40) (n : Word) : (s.setText b n).dregs = s.dregs := rfl
@[simp] theorem State.setText_xregs (s : State) (b : Vector Byte 40) (n : Word) : (s.setText b n).xregs = s.xregs := rfl
@[simp] theorem State.setText_wregs (s : State) (b : Vector Byte 40) (n : Word) : (s.setText b n).wregs = s.wregs := rfl
@[simp] theorem State.setText_str (s : State) (b : Vector Byte 40) (n : Word) : (s.setText b n).str = b := rfl
@[simp] theorem State.setText_slen (s : State) (b : Vector Byte 40) (n : Word) : (s.setText b n).slen = n := rfl
@[simp] theorem State.setText_status (s : State) (b : Vector Byte 40) (n : Word) : (s.setText b n).status = s.status := rfl
@[simp] theorem State.setText_cause (s : State) (b : Vector Byte 40) (n : Word) : (s.setText b n).cause = s.cause := rfl
@[simp] theorem State.setText_ecmd (s : State) (b : Vector Byte 40) (n : Word) : (s.setText b n).ecmd = s.ecmd := rfl
@[simp] theorem State.setText_host (s : State) (b : Vector Byte 40) (n : Word) : (s.setText b n).host = s.host := rfl
@[simp] theorem State.setText_readData (s : State) (b : Vector Byte 40) (n : Word) : (s.setText b n).readData = s.readData := rfl
@[simp] theorem State.setText_resets (s : State) (b : Vector Byte 40) (n : Word) : (s.setText b n).resets = s.resets := rfl

@[simp] theorem State.raise_cfg (s : State) (F : FaultKind) (w : Word) : (s.raise F w).cfg = s.cfg := rfl
@[simp] theorem State.raise_dregs (s : State) (F : FaultKind) (w : Word) : (s.raise F w).dregs = s.dregs := rfl
@[simp] theorem State.raise_xregs (s : State) (F : FaultKind) (w : Word) : (s.raise F w).xregs = s.xregs := rfl
@[simp] theorem State.raise_wregs (s : State) (F : FaultKind) (w : Word) : (s.raise F w).wregs = s.wregs := rfl
@[simp] theorem State.raise_str (s : State) (F : FaultKind) (w : Word) : (s.raise F w).str = s.str := rfl
@[simp] theorem State.raise_slen (s : State) (F : FaultKind) (w : Word) : (s.raise F w).slen = s.slen := rfl
@[simp] theorem State.raise_status (s : State) (F : FaultKind) (w : Word) : (s.raise F w).status = s.status ||| 1 := rfl
@[simp] theorem State.raise_cause (s : State) (F : FaultKind) (w : Word) : (s.raise F w).cause = F.code := rfl
@[simp] theorem State.raise_ecmd (s : State) (F : FaultKind) (w : Word) : (s.raise F w).ecmd = w := rfl
@[simp] theorem State.raise_host (s : State) (F : FaultKind) (w : Word) : (s.raise F w).host = s.host := rfl
@[simp] theorem State.raise_readData (s : State) (F : FaultKind) (w : Word) : (s.raise F w).readData = s.readData := rfl
@[simp] theorem State.raise_resets (s : State) (F : FaultKind) (w : Word) : (s.raise F w).resets = s.resets := rfl

@[simp] theorem State.hardReset_cfg (s : State) : s.hardReset.cfg = s.cfg := rfl
@[simp] theorem State.hardReset_status (s : State) : s.hardReset.status = 0 := rfl
@[simp] theorem State.hardReset_cause (s : State) : s.hardReset.cause = 0 := rfl
@[simp] theorem State.hardReset_ecmd (s : State) : s.hardReset.ecmd = 0 := rfl
@[simp] theorem State.hardReset_slen (s : State) :
    s.hardReset.slen = BitVec.ofNat 32 (Config.resetSlen s.resets % 41) := rfl
@[simp] theorem State.hardReset_host (s : State) : s.hardReset.host = s.host := rfl
@[simp] theorem State.hardReset_readData (s : State) : s.hardReset.readData = s.readData := rfl
@[simp] theorem State.hardReset_resets (s : State) : s.hardReset.resets = s.resets + 1 := rfl

/-! ### Register reads under updates -/

@[simp] theorem State.d_setD (s : State) (i j : DReg) (v : Dec) :
    (s.setD i v).d j = if i = j then v else s.d j := by
  simp only [State.d, State.setD, Vector.get_eq_getElem, Vector.getElem_set, Fin.ext_iff]

@[simp] theorem State.x_setX (s : State) (i j : XReg) (v : Scalar) :
    (s.setX i v).x j = if i = j then v else s.x j := by
  simp only [State.x, State.setX, Vector.get_eq_getElem, Vector.getElem_set, Fin.ext_iff]

@[simp] theorem State.w_setW (s : State) (i j : WReg) (v : Wide) :
    (s.setW i v).w j = if i = j then v else s.w j := by
  simp only [State.w, State.setW, Vector.get_eq_getElem, Vector.getElem_set, Fin.ext_iff]

@[simp] theorem State.x_setD (s : State) (i : DReg) (v : Dec) (j : XReg) : (s.setD i v).x j = s.x j := rfl
@[simp] theorem State.w_setD (s : State) (i : DReg) (v : Dec) (j : WReg) : (s.setD i v).w j = s.w j := rfl
@[simp] theorem State.d_setX (s : State) (i : XReg) (v : Scalar) (j : DReg) : (s.setX i v).d j = s.d j := rfl
@[simp] theorem State.w_setX (s : State) (i : XReg) (v : Scalar) (j : WReg) : (s.setX i v).w j = s.w j := rfl
@[simp] theorem State.d_setW (s : State) (k : WReg) (v : Wide) (j : DReg) : (s.setW k v).d j = s.d j := rfl
@[simp] theorem State.x_setW (s : State) (k : WReg) (v : Wide) (j : XReg) : (s.setW k v).x j = s.x j := rfl
@[simp] theorem State.d_setText (s : State) (b : Vector Byte 40) (n : Word) (j : DReg) : (s.setText b n).d j = s.d j := rfl
@[simp] theorem State.x_setText (s : State) (b : Vector Byte 40) (n : Word) (j : XReg) : (s.setText b n).x j = s.x j := rfl
@[simp] theorem State.w_setText (s : State) (b : Vector Byte 40) (n : Word) (j : WReg) : (s.setText b n).w j = s.w j := rfl
@[simp] theorem State.d_raise (s : State) (F : FaultKind) (w : Word) (j : DReg) : (s.raise F w).d j = s.d j := rfl
@[simp] theorem State.x_raise (s : State) (F : FaultKind) (w : Word) (j : XReg) : (s.raise F w).x j = s.x j := rfl
@[simp] theorem State.w_raise (s : State) (F : FaultKind) (w : Word) (j : WReg) : (s.raise F w).w j = s.w j := rfl

@[simp] theorem State.err_setD (s : State) (i : DReg) (v : Dec) : (s.setD i v).err = s.err := rfl
@[simp] theorem State.err_setX (s : State) (i : XReg) (v : Scalar) : (s.setX i v).err = s.err := rfl
@[simp] theorem State.err_setW (s : State) (k : WReg) (v : Wide) : (s.setW k v).err = s.err := rfl
@[simp] theorem State.err_setText (s : State) (b : Vector Byte 40) (n : Word) : (s.setText b n).err = s.err := rfl

@[simp] theorem State.err_hardReset (s : State) : s.hardReset.err = false := by
  simp [State.err]

@[simp] theorem State.err_raise (s : State) (F : FaultKind) (w : Word) : (s.raise F w).err = true := by
  simp [State.err, State.raise]

@[simp] theorem State.errO_eq (s : State) : s.errO = s.err := rfl

@[simp] theorem State.d_with_host (s : State) (v : List HostStep) (j : DReg) : ({ s with host := v } : State).d j = s.d j := rfl
@[simp] theorem State.x_with_host (s : State) (v : List HostStep) (j : XReg) : ({ s with host := v } : State).x j = s.x j := rfl
@[simp] theorem State.w_with_host (s : State) (v : List HostStep) (j : WReg) : ({ s with host := v } : State).w j = s.w j := rfl
@[simp] theorem State.err_with_host (s : State) (v : List HostStep) : ({ s with host := v } : State).err = s.err := rfl
@[simp] theorem State.d_with_readData (s : State) (v : Option (BitVec 64)) (j : DReg) : ({ s with readData := v } : State).d j = s.d j := rfl
@[simp] theorem State.x_with_readData (s : State) (v : Option (BitVec 64)) (j : XReg) : ({ s with readData := v } : State).x j = s.x j := rfl
@[simp] theorem State.w_with_readData (s : State) (v : Option (BitVec 64)) (j : WReg) : ({ s with readData := v } : State).w j = s.w j := rfl
@[simp] theorem State.err_with_readData (s : State) (v : Option (BitVec 64)) : ({ s with readData := v } : State).err = s.err := rfl

end Sys2Proof.Machine
end

