-- ==== Sys2Proof/Laws/Ops.lean ====
section
/-! SUPPORT. What the shared operations can do, said once: performing a command, entering a fault, leaving the fault
state, and reading an operand. -/

namespace Sys2Proof.Machine

/-! ### The Except plumbing of the meanings -/

@[simp] theorem ok_bind {α β : Type} (a : α) (f : α → Except FaultKind β) : ((Except.ok a) >>= f) = f a := rfl

@[simp] theorem error_bind {α β : Type} (F : FaultKind) (f : α → Except FaultKind β) :
    ((Except.error F : Except FaultKind α) >>= f) = .error F := rfl

/-- A meaning that binds a step succeeds exactly when the step and its continuation do. -/
theorem bind_eq_ok {α β : Type} {e : Except FaultKind α} {f : α → Except FaultKind β} {b : β} :
    (e >>= f) = .ok b ↔ ∃ a, e = .ok a ∧ f a = .ok b := by
  cases e <;> simp

/-- A meaning that binds a step fails where the step fails or the continuation does. -/
theorem bind_eq_error {α β : Type} {e : Except FaultKind α} {f : α → Except FaultKind β} {F : FaultKind} :
    (e >>= f) = .error F ↔ e = .error F ∨ ∃ a, e = .ok a ∧ f a = .error F := by
  cases e <;> simp

/-! ### Performing a command (R80, R234, R235) -/

@[simp] theorem State.command_of_err {s : State} (h : s.err = true) (w : Word) (e : Except FaultKind State) :
    s.command w e = s := by simp [State.command, h]

@[simp] theorem State.command_ok {s : State} (h : s.err = false) (w : Word) (t : State) :
    s.command w (.ok t) = t := by simp [State.command, h]

@[simp] theorem State.command_error {s : State} (h : s.err = false) (w : Word) (F : FaultKind) :
    s.command w (.error F) = s.raise F w := by simp [State.command, h]

/-- Everything a performed command can do: it is dropped, or it has its effect, or it enters its fault. -/
theorem perform_cases {i : Instr} {s t : State} {e : Except FaultKind State} (h : perform i s e = .next t) :
    (s.err = true ∧ t = s) ∨ (s.err = false ∧ e = .ok t) ∨
      (s.err = false ∧ ∃ F, e = .error F ∧ t = s.raise F (encode i)) := by
  simp only [perform, Host.Outcome.next.injEq] at h
  cases hs : s.err with
  | true => exact .inl ⟨rfl, by simpa [hs] using h.symm⟩
  | false =>
    cases e with
    | ok t' => exact .inr (.inl ⟨rfl, by simpa [hs] using h⟩)
    | error F => exact .inr (.inr ⟨rfl, F, rfl, by simpa [hs] using h.symm⟩)

theorem perform_dropped {s : State} (h : s.err = true) (i : Instr) (e : Except FaultKind State) :
    perform i s e = .next s := by simp [perform, h]

theorem perform_ok {s : State} (h : s.err = false) (i : Instr) (t : State) :
    perform i s (.ok t) = .next t := by simp [perform, h]

theorem perform_error {s : State} (h : s.err = false) (i : Instr) (F : FaultKind) :
    perform i s (.error F) = .next (s.raise F (encode i)) := by simp [perform, h]

/-! ### Fault entry and return (R234, R236) -/

theorem FaultKind.code_ne_zero (F : FaultKind) : F.code ≠ 0 := by cases F <;> decide

theorem FaultKind.code_le (F : FaultKind) : F.code.toNat ≤ 4 := by cases F <;> decide

/-- R234: `raise` is fault entry as the statements say it. -/
theorem raise_faultEntered (s : State) (F : FaultKind) (w : Word) : FaultEntered s (s.raise F w) F w := by
  refine ⟨by simp, ?_, rfl, rfl, ⟨fun _ _ => rfl, fun _ _ => rfl, fun _ _ => rfl⟩, ⟨rfl, rfl⟩, rfl, rfl, rfl, rfl⟩
  ext k hk
  simp

/-- R236: the clear in the fault state with bit 0 of the written word set, and in every other case. -/
theorem State.clearFault_cases (s : State) (w : Word) :
    (s.err = true ∧ w.getLsbD 0 = true ∧
      s.clearFault w = { s with status := s.status &&& ~~~1, cause := 0, ecmd := 0 }) ∨
    ((s.err = false ∨ w.getLsbD 0 = false) ∧ s.clearFault w = s) := by
  unfold State.clearFault
  cases hs : s.err <;> cases hw : w.getLsbD 0 <;> simp

/-! ### Operands (R13, R28) -/

/-- R13: what a value read can answer. -/
theorem valueRead_cases (p : NegzeroPolicy) (b : Dec) :
    (sign b = true ∧ mag b = 0 ∧ p = .reject ∧ valueRead p b = .error .operandRange) ∨
    (sign b = true ∧ mag b = 0 ∧ p = .canonicalise ∧ valueRead p b = .ok canonicalZero) ∨
    (¬(sign b = true ∧ mag b = 0) ∧ valueRead p b = .ok b) := by
  unfold valueRead
  by_cases h : sign b = true ∧ mag b = 0
  · cases p <;> simp [h.1, h.2]
  · have : (sign b && mag b == 0) = false := by simpa using h
    simp [this, h]

/-- R28: an unsigned operand is accepted exactly up to its bound. -/
theorem unsignedInRange_ok {p : Scalar} {hi n : Nat} :
    unsignedInRange p hi = .ok n ↔ p.toNat ≤ hi ∧ n = p.toNat := by
  unfold unsignedInRange
  split <;> simp_all <;> omega

/-- R28: a signed operand is accepted exactly inside its range. -/
theorem signedInRange_ok {p : Scalar} {lo hi n : Nat} :
    signedInRange p lo hi = .ok n ↔ (lo : Int) ≤ s64 p ∧ s64 p ≤ hi ∧ s64 p = n := by
  unfold signedInRange
  split
  · simp; omega
  · simp; omega

/-- R25: `checked` passes exactly the magnitudes up to MAX_UNSCALED. -/
theorem checked_ok {m p : Nat} : checked m = .ok p ↔ m ≤ maxUnscaled ∧ p = m := by
  unfold checked
  split
  · simp; omega
  · simp; omega

theorem checked_error {m : Nat} {F : FaultKind} : checked m = .error F ↔ maxUnscaled < m ∧ F = .overflow := by
  unfold checked
  split
  · simp_all [eq_comm]
  · simp; omega

end Sys2Proof.Machine
end

