-- ==== Sys2Proof/Laws/PerInstr.lean ====
section
/-! SUPPORT. A statement about every instruction as syntax, one lemma per constructor: its encoding is found by its
opcode in the table of spec/30_encoding.md R78, fits that row's mask and match (R81), and the row's fields read the
instruction back. -/

namespace Sys2Proof.Laws.EncodingFitsRow

def Statement (i : Instr) : Prop :=
  ∃ r, opcodeTable.find? (fun r => opcodeOf r.pattern == opcodeOf (encode i)) = some r
    ∧ encode i &&& r.mask = r.pattern ∧ r.build (encode i) = i

theorem zero (dd : DReg) : Statement (.zero dd) := by
  refine ⟨_, by rw [encode, opcodeOf_formatR]; rfl, ?_, by simp [encode]⟩
  exact formatR_and (by decide +revert) (by decide +revert) (by decide +revert) (by decide +revert) (by decide +revert)
    (by decide +revert) (by decide +revert) (by decide)

theorem empty (dd : DReg) : Statement (.empty dd) := by
  refine ⟨_, by rw [encode, opcodeOf_formatR]; rfl, ?_, by simp [encode]⟩
  exact formatR_and (by decide +revert) (by decide +revert) (by decide +revert) (by decide +revert) (by decide +revert)
    (by decide +revert) (by decide +revert) (by decide)

theorem fromlong (dd : DReg) (xs : XReg) : Statement (.fromlong dd xs) := by
  refine ⟨_, by rw [encode, opcodeOf_formatR]; rfl, ?_, by simp [encode]⟩
  exact formatR_and (by decide +revert) (by decide +revert) (by decide +revert) (by decide +revert) (by decide +revert)
    (by decide +revert) (by decide +revert) (by decide)

theorem tolong (xd : XReg) (ds : DReg) : Statement (.tolong xd ds) := by
  refine ⟨_, by rw [encode, opcodeOf_formatR]; rfl, ?_, by simp [encode]⟩
  exact formatR_and (by decide +revert) (by decide +revert) (by decide +revert) (by decide +revert) (by decide +revert)
    (by decide +revert) (by decide +revert) (by decide)

theorem frombig (dd : DReg) (ws : WReg) (xsign : XReg) : Statement (.frombig dd ws xsign) := by
  refine ⟨_, by rw [encode, opcodeOf_formatR]; rfl, ?_, by simp [encode]⟩
  exact formatR_and (by decide +revert) (by decide +revert) (by decide +revert) (by decide +revert) (by decide +revert)
    (by decide +revert) (by decide +revert) (by decide)

theorem tobig (wd : WReg) (xsign : XReg) (ds : DReg) : Statement (.tobig wd xsign ds) := by
  refine ⟨_, by rw [encode, opcodeOf_formatR]; rfl, ?_, by simp [encode]⟩
  exact formatR_and (by decide +revert) (by decide +revert) (by decide +revert) (by decide +revert) (by decide +revert)
    (by decide +revert) (by decide +revert) (by decide)

theorem pack (dd : DReg) (xlo xhi : XReg) : Statement (.pack dd xlo xhi) := by
  refine ⟨_, by rw [encode, opcodeOf_formatR]; rfl, ?_, by simp [encode]⟩
  exact formatR_and (by decide +revert) (by decide +revert) (by decide +revert) (by decide +revert) (by decide +revert)
    (by decide +revert) (by decide +revert) (by decide)

theorem split (xlo xhi : XReg) (ds : DReg) : Statement (.split xlo xhi ds) := by
  refine ⟨_, by rw [encode, opcodeOf_formatR]; rfl, ?_, by simp [encode]⟩
  exact formatR_and (by decide +revert) (by decide +revert) (by decide +revert) (by decide +revert) (by decide +revert)
    (by decide +revert) (by decide +revert) (by decide)

theorem li (xd : XReg) (imm : BitVec 16) : Statement (.li xd imm) := by
  refine ⟨_, by rw [encode, opcodeOf_formatI]; rfl, ?_, by simp [encode]⟩
  simp only [encode, formatI, regAt]
  apply BitVec.eq_of_getLsbD_eq
  intro i hi
  interval_cases i <;> simp

theorem shld (dd : DReg) (xn : XReg) : Statement (.shld dd xn) := by
  refine ⟨_, by rw [encode, opcodeOf_formatR]; rfl, ?_, by simp [encode]⟩
  exact formatR_and (by decide +revert) (by decide +revert) (by decide +revert) (by decide +revert) (by decide +revert)
    (by decide +revert) (by decide +revert) (by decide)

theorem shlp (dd ds : DReg) (xn : XReg) : Statement (.shlp dd ds xn) := by
  refine ⟨_, by rw [encode, opcodeOf_formatR]; rfl, ?_, by simp [encode]⟩
  exact formatR_and (by decide +revert) (by decide +revert) (by decide +revert) (by decide +revert) (by decide +revert)
    (by decide +revert) (by decide +revert) (by decide)

theorem shr (roundUp : Bool) (dd ds : DReg) (xn : XReg) : Statement (.shr roundUp dd ds xn) := by
  refine ⟨_, by rw [encode, opcodeOf_formatR]; rfl, ?_, by simp [encode]⟩
  exact formatR_and (by decide +revert) (by decide +revert) (by decide +revert) (by decide +revert) (by decide +revert)
    (by decide +revert) (by decide +revert) (by decide)

theorem shlmp (wd : WReg) (xnew xlen xn : XReg) : Statement (.shlmp wd xnew xlen xn) := by
  refine ⟨_, by rw [encode, opcodeOf_formatR]; rfl, ?_, by simp [encode]⟩
  exact formatR_and (by decide +revert) (by decide +revert) (by decide +revert) (by decide +revert) (by decide +revert)
    (by decide +revert) (by decide +revert) (by decide)

theorem shrmp (wd : WReg) (xlen xn : XReg) : Statement (.shrmp wd xlen xn) := by
  refine ⟨_, by rw [encode, opcodeOf_formatR]; rfl, ?_, by simp [encode]⟩
  exact formatR_and (by decide +revert) (by decide +revert) (by decide +revert) (by decide +revert) (by decide +revert)
    (by decide +revert) (by decide +revert) (by decide)

theorem add (dd da db : DReg) : Statement (.add dd da db) := by
  refine ⟨_, by rw [encode, opcodeOf_formatR]; rfl, ?_, by simp [encode]⟩
  exact formatR_and (by decide +revert) (by decide +revert) (by decide +revert) (by decide +revert) (by decide +revert)
    (by decide +revert) (by decide +revert) (by decide)

theorem addo (dd : DReg) (xdelta : XReg) (da db : DReg) : Statement (.addo dd xdelta da db) := by
  refine ⟨_, by rw [encode, opcodeOf_formatR]; rfl, ?_, by simp [encode]⟩
  exact formatR_and (by decide +revert) (by decide +revert) (by decide +revert) (by decide +revert) (by decide +revert)
    (by decide +revert) (by decide +revert) (by decide)

theorem neg (dd ds : DReg) : Statement (.neg dd ds) := by
  refine ⟨_, by rw [encode, opcodeOf_formatR]; rfl, ?_, by simp [encode]⟩
  exact formatR_and (by decide +revert) (by decide +revert) (by decide +revert) (by decide +revert) (by decide +revert)
    (by decide +revert) (by decide +revert) (by decide)

theorem cmp (xd : XReg) (da db : DReg) : Statement (.cmp xd da db) := by
  refine ⟨_, by rw [encode, opcodeOf_formatR]; rfl, ?_, by simp [encode]⟩
  exact formatR_and (by decide +revert) (by decide +revert) (by decide +revert) (by decide +revert) (by decide +revert)
    (by decide +revert) (by decide +revert) (by decide)

theorem isneg (xd : XReg) (ds : DReg) : Statement (.isneg xd ds) := by
  refine ⟨_, by rw [encode, opcodeOf_formatR]; rfl, ?_, by simp [encode]⟩
  exact formatR_and (by decide +revert) (by decide +revert) (by decide +revert) (by decide +revert) (by decide +revert)
    (by decide +revert) (by decide +revert) (by decide)

theorem iszero (xd : XReg) (ds : DReg) : Statement (.iszero xd ds) := by
  refine ⟨_, by rw [encode, opcodeOf_formatR]; rfl, ?_, by simp [encode]⟩
  exact formatR_and (by decide +revert) (by decide +revert) (by decide +revert) (by decide +revert) (by decide +revert)
    (by decide +revert) (by decide +revert) (by decide)

theorem mul (dd da db : DReg) : Statement (.mul dd da db) := by
  refine ⟨_, by rw [encode, opcodeOf_formatR]; rfl, ?_, by simp [encode]⟩
  exact formatR_and (by decide +revert) (by decide +revert) (by decide +revert) (by decide +revert) (by decide +revert)
    (by decide +revert) (by decide +revert) (by decide)

theorem mull (dd da : DReg) (xk : XReg) : Statement (.mull dd da xk) := by
  refine ⟨_, by rw [encode, opcodeOf_formatR]; rfl, ?_, by simp [encode]⟩
  exact formatR_and (by decide +revert) (by decide +revert) (by decide +revert) (by decide +revert) (by decide +revert)
    (by decide +revert) (by decide +revert) (by decide)

theorem mul256 (wd : WReg) (db : DReg) : Statement (.mul256 wd db) := by
  refine ⟨_, by rw [encode, opcodeOf_formatR]; rfl, ?_, by simp [encode]⟩
  exact formatR_and (by decide +revert) (by decide +revert) (by decide +revert) (by decide +revert) (by decide +revert)
    (by decide +revert) (by decide +revert) (by decide)

theorem div (dq dr da : DReg) (xa : XReg) (db : DReg) (xb : XReg) : Statement (.div dq dr da xa db xb) := by
  refine ⟨_, by rw [encode, opcodeOf_formatR]; rfl, ?_, by simp [encode]⟩
  exact formatR_and (by decide +revert) (by decide +revert) (by decide +revert) (by decide +revert) (by decide +revert)
    (by decide +revert) (by decide +revert) (by decide)

theorem rescale (dd ds : DReg) (xe : XReg) : Statement (.rescale dd ds xe) := by
  refine ⟨_, by rw [encode, opcodeOf_formatR]; rfl, ?_, by simp [encode]⟩
  exact formatR_and (by decide +revert) (by decide +revert) (by decide +revert) (by decide +revert) (by decide +revert)
    (by decide +revert) (by decide +revert) (by decide)

theorem ovf (xd : XReg) (ds : DReg) (xp : XReg) : Statement (.ovf xd ds xp) := by
  refine ⟨_, by rw [encode, opcodeOf_formatR]; rfl, ?_, by simp [encode]⟩
  exact formatR_and (by decide +revert) (by decide +revert) (by decide +revert) (by decide +revert) (by decide +revert)
    (by decide +revert) (by decide +revert) (by decide)

theorem tio (ds : DReg) : Statement (.tio ds) := by
  refine ⟨_, by rw [encode, opcodeOf_formatR]; rfl, ?_, by simp [encode]⟩
  exact formatR_and (by decide +revert) (by decide +revert) (by decide +revert) (by decide +revert) (by decide +revert)
    (by decide +revert) (by decide +revert) (by decide)

theorem tio2 (xlo xhi : XReg) : Statement (.tio2 xlo xhi) := by
  refine ⟨_, by rw [encode, opcodeOf_formatR]; rfl, ?_, by simp [encode]⟩
  exact formatR_and (by decide +revert) (by decide +revert) (by decide +revert) (by decide +revert) (by decide +revert)
    (by decide +revert) (by decide +revert) (by decide)

theorem tostr (ds : DReg) : Statement (.tostr ds) := by
  refine ⟨_, by rw [encode, opcodeOf_formatR]; rfl, ?_, by simp [encode]⟩
  exact formatR_and (by decide +revert) (by decide +revert) (by decide +revert) (by decide +revert) (by decide +revert)
    (by decide +revert) (by decide +revert) (by decide)

end Sys2Proof.Laws.EncodingFitsRow
end

