-- ==== Sys2Proof/Laws/Step.lean ====
section
/-! SUPPORT. What `exec`, `execute` and `step` can do, said once. -/

namespace Sys2Proof.Machine

/-- Every meaning is one performed command: all that differs is its effect. -/
theorem exec_eq_perform (i : Instr) (s : State) : ∃ e, exec i s = perform i s e := by
  cases i <;> exact ⟨_, rfl⟩

/-- R266: every command has a next state. -/
theorem exec_next (i : Instr) (s : State) : ∃ t, exec i s = .next t := by
  obtain ⟨e, he⟩ := exec_eq_perform i s
  exact ⟨_, he⟩

/-- R235: in the fault state a command is dropped. -/
theorem exec_dropped (i : Instr) {s : State} (h : s.err = true) : exec i s = .next s := by
  obtain ⟨e, he⟩ := exec_eq_perform i s
  rw [he, perform_dropped h]

/-- The cases of a host step that has a next state. -/
theorem hostStep_cases {h : HostStep} {s t : State} (ht : hostStep h s = .next t) :
    (h = .reset ∧ t = s.hardReset) ∨
    (∃ a n, h = .read a n ∧ admitted a n = true ∧ t = { s with readData := some (s.winRead a n) }) ∨
    (∃ a n v, h = .write a n v ∧ admitted a n = true ∧ a = cmdOffset ∧ execute (v.setWidth 32) s = .next t) ∨
    (∃ a n v, h = .write a n v ∧ admitted a n = true ∧ a ≠ cmdOffset ∧ t = s.winWrite a n v) := by
  cases h with
  | reset => exact .inl ⟨rfl, by simpa [hostStep] using ht.symm⟩
  | read a n =>
    simp only [hostStep] at ht
    split at ht
    · exact .inr (.inl ⟨a, n, rfl, ‹_›, by simpa using ht.symm⟩)
    · cases ht
  | write a n v =>
    simp only [hostStep] at ht
    split at ht
    · split at ht
      · exact .inr (.inr (.inl ⟨a, n, v, rfl, ‹_›, ‹_›, ht⟩))
      · exact .inr (.inr (.inr ⟨a, n, v, rfl, ‹_›, ‹_›, by simpa using ht.symm⟩))
    · cases ht

/-- The cases of a step that has a next state. -/
theorem step_cases {s t : State} (h : step s = .next t) :
    (s.host = [] ∧ t = s) ∨ ∃ k rest, s.host = k :: rest ∧ hostStep k { s with host := rest } = .next t := by
  unfold step advance at h
  split at h
  · exact .inl ⟨‹_›, by simpa using h.symm⟩
  · exact .inr ⟨_, _, ‹_›, h⟩

/-- The next step of a state whose host steps begin with `k`. -/
theorem step_of_host {s : State} {k : HostStep} {rest : List HostStep} (h : s.host = k :: rest) :
    step s = hostStep k { s with host := rest } := by
  simp [step, advance, h]

/-- The cases of a command word's execution (R80). -/
theorem execute_cases (w : Word) (s : State) :
    (∃ i, decode w = .ok i ∧ execute w s = exec i s) ∨
    ((∃ r, decode w = .error r) ∧ execute w s = .next (s.command w (.error .illegalCommand))) := by
  unfold execute
  cases decode w with
  | ok i => exact .inl ⟨i, rfl, rfl⟩
  | error r => exact .inr ⟨⟨r, rfl⟩, rfl⟩

end Sys2Proof.Machine
end

