-- ==== Sys2Proof/Laws/Value.lean ====
section
/-! SUPPORT. The spec lemmas of the value functions (spec/00_scope.md R11, R12): sign, magnitude and value of what
`enc` and `encz` write, and the two round trips R12 states. -/

namespace Sys2Proof.Machine

theorem mag_lt (b : Dec) : mag b < 2 ^ 127 := Nat.mod_lt _ (by decide)

/-- The sign bit as a bound on the whole pattern. -/
theorem sign_eq_decide (b : Dec) : sign b = decide (2 ^ 127 ≤ b.toNat) := by
  have h := b.isLt
  simp only [sign, BitVec.getLsbD, Nat.testBit_eq_decide_div_mod_eq, decide_eq_decide]
  omega

/-- A pattern is its sign and its magnitude. -/
theorem toNat_eq_sign_mag (b : Dec) : b.toNat = (if sign b then 2 ^ 127 else 0) + mag b := by
  have h := b.isLt
  rw [sign_eq_decide]
  unfold mag
  by_cases hb : 2 ^ 127 ≤ b.toNat
  · simp only [hb, decide_true, if_true]; omega
  · simp only [hb, decide_false, Bool.false_eq_true, if_false]; omega

theorem toNat_enc (s : Bool) (m : Nat) (hm : m < 2 ^ 127) :
    (enc s m).toNat = if m = 0 then 0 else (if s then 2 ^ 127 else 0) + m := by
  unfold enc
  split
  · rfl
  · rw [BitVec.toNat_ofNat, Nat.mod_eq_of_lt]
    split <;> omega

@[simp] theorem mag_enc (s : Bool) (m : Nat) (hm : m < 2 ^ 127) : mag (enc s m) = m := by
  unfold mag
  rw [toNat_enc s m hm]
  cases s <;> split <;> simp_all

@[simp] theorem sign_enc (s : Bool) (m : Nat) (hm : m < 2 ^ 127) : sign (enc s m) = (s && m != 0) := by
  rw [sign_eq_decide, toNat_enc s m hm]
  cases s <;> by_cases h : m = 0 <;> simp [h] <;> omega

theorem val_enc (s : Bool) (m : Nat) (hm : m < 2 ^ 127) :
    val (enc s m) = if s then -(m : Int) else (m : Int) := by
  unfold val
  rw [sign_enc s m hm, mag_enc s m hm]
  cases s <;> by_cases h : m = 0 <;> simp [h]

/-- R12: "for every such z, `val(encz(z)) = z`". -/
theorem val_encz (z : Int) (hz : z.natAbs < 2 ^ 127) : val (encz z) = z := by
  unfold encz
  rw [val_enc _ _ hz]
  by_cases h : z < 0
  · simp only [h, decide_true, if_true]; omega
  · simp only [h, decide_false, Bool.false_eq_true, if_false]; omega

theorem natAbs_val (b : Dec) : (val b).natAbs = mag b := by
  unfold val; split <;> simp

theorem natAbs_val_lt (b : Dec) : (val b).natAbs < 2 ^ 127 := natAbs_val b ▸ mag_lt b

/-- Two patterns with one sign and one magnitude are one pattern. -/
theorem eq_of_sign_mag {a b : Dec} (hs : sign a = sign b) (hm : mag a = mag b) : a = b := by
  apply BitVec.eq_of_toNat_eq
  rw [toNat_eq_sign_mag a, toNat_eq_sign_mag b, hs, hm]

/-- Negative zero is the one pattern with its sign set and magnitude 0. -/
theorem eq_negativeZero_iff (b : Dec) : b = negativeZero ↔ sign b = true ∧ mag b = 0 := by
  constructor
  · rintro rfl; decide
  · rintro ⟨hs, hm⟩
    exact eq_of_sign_mag (hs.trans (by decide)) (hm.trans (by decide))

/-- R12, R23: `enc` never yields negative zero. -/
theorem enc_ne_negativeZero (s : Bool) (m : Nat) (hm : m < 2 ^ 127) : enc s m ≠ negativeZero := by
  intro h
  have := (eq_negativeZero_iff _).1 h
  rw [sign_enc s m hm, mag_enc s m hm] at this
  simp only [Bool.and_eq_true, bne_iff_ne] at this
  exact this.1.2 this.2

/-- R12: "for every pattern b other than negative zero, `encz(val(b)) = b`". -/
theorem encz_val (b : Dec) (hb : b ≠ negativeZero) : encz (val b) = b := by
  have hz := natAbs_val_lt b
  apply eq_of_sign_mag
  · unfold encz
    rw [sign_enc _ _ hz, natAbs_val]
    have hb' := mt (eq_negativeZero_iff b).2 hb
    unfold val
    cases hs : sign b
    · simp
    · have : mag b ≠ 0 := fun h => hb' ⟨hs, h⟩
      simp [this]; omega
  · unfold encz
    rw [mag_enc _ _ hz, natAbs_val]

/-- Two patterns other than negative zero that stand for one integer are equal (R25 (4)). -/
theorem val_injective {a b : Dec} (ha : a ≠ negativeZero) (hb : b ≠ negativeZero) (h : val a = val b) : a = b := by
  rw [← encz_val a ha, ← encz_val b hb, h]

/-- R11: the range of a signed word. -/
theorem s64_range (p : Scalar) : -2 ^ 63 ≤ s64 p ∧ s64 p ≤ 2 ^ 63 - 1 := by
  have := p.isLt
  unfold s64
  split <;> omega

/-- R11: a signed word is read back as it was written. -/
theorem s64_u64 (z : Int) (h : -2 ^ 63 ≤ z ∧ z ≤ 2 ^ 63 - 1) : s64 (u64 z) = z := by
  unfold s64 u64
  rw [BitVec.toNat_ofInt]
  split <;> omega

/-- R11: a word is written back as it was read. -/
theorem u64_s64 (p : Scalar) : u64 (s64 p) = p := by
  apply BitVec.eq_of_toNat_eq
  have := p.isLt
  unfold s64 u64
  rw [BitVec.toNat_ofInt]
  split <;> omega

end Sys2Proof.Machine
end

