-- ==== Sys2Proof/Laws/Window.lean ====
section
/-! SUPPORT. The bytes of a pattern, and the window under writes (spec/20_memory.md R54). -/

namespace Sys2Proof.Machine

/-- A byte written is read back. -/
theorem byteOf_withByte_self {n : Nat} (b : BitVec n) (k : Nat) (v : Byte) (h : 8 * k + 8 ≤ n) :
    byteOf (withByte b k v) k = v := by
  unfold byteOf withByte
  ext i hi
  have h1 : 8 * k + i < n := by omega
  have h2 : ¬ 8 * k + i < 8 * k := by omega
  have h3 : (0xFF#8)[i] = true := by interval_cases i <;> simp
  simp [h1, h2, hi, h3]

/-- A write of one byte leaves every other byte. -/
theorem byteOf_withByte_ne {n : Nat} (b : BitVec n) (k j : Nat) (v : Byte) (h : j ≠ k) :
    byteOf (withByte b k v) j = byteOf b j := by
  unfold byteOf withByte
  ext i hi
  by_cases h1 : 8 * j + i < n
  · by_cases h2 : 8 * j + i < 8 * k
    · simp [h1, h2]
    · have h3 : 8 ≤ 8 * j + i - 8 * k := by omega
      simp [h1, h2, BitVec.getLsbD_of_ge _ _ h3]
  · simp [h1, BitVec.getLsbD_of_ge b _ (Nat.le_of_not_lt h1)]

/-- R35, R54: CMD reads as 0. -/
@[simp] theorem State.controlWord_cmd (s : State) : s.controlWord .cmd = 0 := rfl

/-- The registers of the window do not depend on the model's own fields. -/
@[simp] theorem State.windowByte_with_host (s : State) (h : List HostStep) (a : Nat) :
    ({ s with host := h } : State).windowByte a = s.windowByte a := rfl

@[simp] theorem State.windowByte_with_readData (s : State) (d : Option (BitVec 64)) (a : Nat) :
    ({ s with readData := d } : State).windowByte a = s.windowByte a := rfl

/-- Everything a byte write can do. -/
theorem State.writeByte_cases (s : State) (a : Nat) (v : Byte) :
    (dataRegion a = some .d ∧ s.writeByte a v = s.setD (dregAt a) (withByte (s.d (dregAt a)) (a % 16) v)) ∨
    (dataRegion a = some .x ∧ s.writeByte a v = s.setX (xregAt a) (withByte (s.x (xregAt a)) (a % 8) v)) ∨
    (dataRegion a = some .w ∧ s.writeByte a v = s.setW (wregAt a) (withByte (s.w (wregAt a)) (a % 32) v)) ∨
    ((dataRegion a = some .s ∨ dataRegion a = none) ∧ s.writeByte a v = s) := by
  unfold State.writeByte
  cases h : dataRegion a with
  | none => simp
  | some r => cases r <;> simp

/-- R54, R58: a byte write leaves the text, the control registers and everything outside the unit. -/
theorem State.writeByte_frame (s : State) (a : Nat) (v : Byte) :
    (s.writeByte a v).str = s.str ∧ (s.writeByte a v).slen = s.slen ∧ (s.writeByte a v).status = s.status
      ∧ (s.writeByte a v).cause = s.cause ∧ (s.writeByte a v).ecmd = s.ecmd ∧ (s.writeByte a v).cfg = s.cfg
      ∧ (s.writeByte a v).host = s.host ∧ (s.writeByte a v).readData = s.readData
      ∧ (s.writeByte a v).resets = s.resets := by
  rcases s.writeByte_cases a v with ⟨-, h⟩ | ⟨-, h⟩ | ⟨-, h⟩ | ⟨-, h⟩ <;> simp [h]

/-- The same of a write of several bytes. -/
theorem State.writeBytes_frame (s : State) (a : Nat) (v : BitVec 64) (n : Nat) :
    (s.writeBytes a v n).str = s.str ∧ (s.writeBytes a v n).slen = s.slen ∧ (s.writeBytes a v n).status = s.status
      ∧ (s.writeBytes a v n).cause = s.cause ∧ (s.writeBytes a v n).ecmd = s.ecmd ∧ (s.writeBytes a v n).cfg = s.cfg
      ∧ (s.writeBytes a v n).host = s.host ∧ (s.writeBytes a v n).readData = s.readData
      ∧ (s.writeBytes a v n).resets = s.resets := by
  induction n with
  | zero => exact ⟨rfl, rfl, rfl, rfl, rfl, rfl, rfl, rfl, rfl⟩
  | succ n ih =>
    obtain ⟨h1, h2, h3, h4, h5, h6, h7, h8, h9⟩ := ih
    obtain ⟨g1, g2, g3, g4, g5, g6, g7, g8, g9⟩ := (s.writeBytes a v n).writeByte_frame (a + n) (byteOf v n)
    simp only [State.writeBytes]
    exact ⟨g1.trans h1, g2.trans h2, g3.trans h3, g4.trans h4, g5.trans h5, g6.trans h6, g7.trans h7, g8.trans h8,
      g9.trans h9⟩

end Sys2Proof.Machine
end

