-- ==== Sys2Proof/Tests/Slice0.lean ====
section
/-! SUPPORT. The model's own tests. Expected results are the vectors of spec/95_test_vectors.md, the worked examples of
the rules named in each section, or words added up from the fields of spec/30_encoding.md R71 and R78. The second half
shows, for every statement with hypotheses, a concrete state and operands that meet them. -/

namespace Sys2Proof.Tests
open Sys2Proof.Machine

/-- A unit with every register 0, out of the fault state; a test's helper, not the state after reset. -/
def unit : State :=
  { cfg := Config.standard, dregs := Vector.replicate 8 0, xregs := Vector.replicate 8 0,
    wregs := Vector.replicate 2 0, str := Vector.replicate 40 0, slen := 0, status := 0, cause := 0, ecmd := 0,
    host := [], readData := none, resets := 0 }

/-- The same under NEGZERO_POLICY = reject. -/
def strict : State := { unit with cfg := { negzeroPolicy := .reject, tolongAcceptsMin := false } }

/-- The same in the fault state of R234, after `add d2, d0, d1` overflowed. -/
def faulted : State := { unit with status := 1, cause := 1, ecmd := 0x00004220 }

/-- Whether an outcome is a next state with a property. -/
def after (o : Host.Outcome State Fault Refusal) (p : State → Bool) : Bool :=
  match o with
  | .next t => p t
  | .fault _ => false
  | .refused _ => false

/-- The fault of code `c` is recorded with word `w`, and D[i], W[0], X[0] are those of `s`. -/
def faultedBy (s t : State) (c : Word) (w : Word) (i : DReg) : Bool :=
  t.status == 1 && t.cause == c && t.ecmd == w && t.d i == s.d i && t.w 0 == s.w 0 && t.x 0 == s.x 0

def max : Dec := 0x4B3B4CA85A86C47A098A223FFFFFFFFF
def minusMax : Dec := 0xCB3B4CA85A86C47A098A223FFFFFFFFF
def allOnes : Dec := 0xFFFFFFFFFFFFFFFFFFFFFFFFFFFFFFFF
def largest : Dec := 0x7FFFFFFFFFFFFFFFFFFFFFFFFFFFFFFF
/-- −n for a small n. -/
def minus (n : Nat) : Dec := BitVec.ofNat 128 (2 ^ 127 + n)
/-- The wide register of spec/95_test_vectors.md 2.2, limbs 80000001 FFFFFFFF AAAAAAAA … low to high. -/
def limbs22 : Wide := 0x99999999EEEEEEEEDDDDDDDDCCCCCCCCBBBBBBBBAAAAAAAAFFFFFFFF80000001

/-! ### WellFormed: an ill-formed term for each check (R80 step 4) -/

theorem test_wellFormed_split_equal_destinations : (Instr.split 1 1 0).wellFormed = false := by decide
theorem test_wellFormed_div_equal_destinations : (Instr.div 2 2 0 0 1 1).wellFormed = false := by decide
theorem test_wellFormed_split_distinct : (Instr.split 0 1 1).wellFormed = true := by decide

/-! ### Decoding, one word for every constructor, from R71, R72, R78 and spec/95_test_vectors.md 2.8 -/

theorem test_decode_codec :
    [0x00000301, 0x00000002, 0x00000903, 0x00000A04, 0x00004205, 0x00020006, 0x00004107, 0x00061208, 0xFFFF0109].map decode
      = [Instr.zero 3, .empty 0, .fromlong 1 1, .tolong 2 1, .frombig 2 0 1, .tobig 0 1 0, .pack 1 0 1, .split 2 3 2,
         .li 1 0xFFFF].map Except.ok := by decide

theorem test_decode_shift :
    [0x00000810, 0x0000D111, 0x00010512, 0x0400C112, 0x00068813, 0x00008914].map decode
      = [Instr.shld 0 1, .shlp 1 2 3, .shr false 5 0 4, .shr true 1 0 3, .shlmp 0 3 1 2, .shrmp 1 1 2].map Except.ok := by
  decide

theorem test_decode_additive :
    [0x00004220, 0x00020A21, 0x00000A22, 0x00004223, 0x00001B24, 0x00001C25].map decode
      = [Instr.add 2 0 1, .addo 2 1 1 0, .neg 2 1, .cmp 2 0 1, .isneg 3 3, .iszero 4 3].map Except.ok := by decide

theorem test_decode_multiplicative_and_division :
    [0x0000D130, 0x0000D131, 0x00002932, 0x01A64240, 0x01AA4440].map decode
      = [Instr.mul 1 2 3, .mull 1 2 3, .mul256 1 5, .div 2 3 0 2 1 3, .div 4 5 0 2 1 3].map Except.ok := by decide

theorem test_decode_rescale_and_text :
    [0x00004150, 0x00004251, 0x00003852, 0x0000D053, 0x00002060].map decode
      = [Instr.rescale 1 0 1, .ovf 2 0 1, .tio 7, .tio2 2 3, .tostr 4].map Except.ok := by decide

theorem test_decode_illegal_words :
    [0x00000000, 0x000000FF, 0x0000000A, 0xFFFFFFFF].map decode = List.replicate 4 (.error .reservedOpcode)
    ∧ [0x00000B01, 0x00024220, 0x04004220, 0x08004220, 0x80004220, 0x00002A32, 0xFFFF0909, 0x00003952].map decode
      = List.replicate 8 (.error .fixedBitsWrong)
    ∧ [0x00844240, 0x00020908].map decode = List.replicate 2 (.error .equalDestinations) := by decide

theorem test_encode_worked :
    [Instr.div 2 3 0 2 1 3, .shr true 4 0 4, .shlmp 0 1 1 2, .li 3 30, .tobig 0 1 0].map encode
      = [0x01A64240, 0x04010412, 0x00028813, 0x001E0309, 0x00020006] := by decide

theorem test_table_mnemonics_and_opcodes :
    opcodeTable.length = 29 ∧ (opcodeTable.map fun r => opcodeOf r.pattern).Nodup := by decide

theorem test_decodeTableWord_div : decodeTableWord 32 0x01A64240 = some (.div 2 3 0 2 1 3) := by decide

/-! ### Numbers (R6, R7, R12) -/

theorem test_pow10_entries :
    pow10 20 = 0x56BC75E2D63100000 ∧ pow10 38 = 0x4B3B4CA85A86C47A098A224000000000 ∧ maxUnscaled + 1 = pow10 38
      ∧ max.toNat = maxUnscaled ∧ val minusMax = minUnscaled := by decide

theorem test_encz_never_negative_zero : encz 0 = 0 ∧ enc true 0 = 0 ∧ encz (-1) = minus 1 ∧ val negativeZero = 0 := by
  decide

/-! ### Codec (95_test_vectors.md 2.1) -/

theorem test_zero : after (exec (.zero 3) (unit.setD 3 max)) (fun t => t.d 3 == 0 && t.err == false) = true := by decide
theorem test_empty : after (exec (.empty 0) (unit.setD 0 max)) (fun t => t.d 0 == 0) = true := by decide
theorem test_fromlong_min :
    after (exec (.fromlong 0 1) (unit.setX 1 0x8000000000000000))
      (fun t => t.d 0 == 0x80000000000000008000000000000000) = true := by decide
theorem test_tolong_min_both_settings :
    after (exec (.tolong 2 1) (unit.setD 1 0x80000000000000008000000000000000)) (fun t => t.x 2 == 0x8000000000000000) = true
    ∧ after (exec (.tolong 2 1) (strict.setD 1 0x80000000000000008000000000000000)) (fun t => t.cause == 1) = true := by
  decide
theorem test_tolong_overflow :
    after (exec (.tolong 2 1) (unit.setD 1 0x8000000000000000)) (fun t => t.cause == 1 && t.ecmd == 0x00000A04) = true := by
  decide
theorem test_frombig_limits :
    after (exec (.frombig 0 0 1) ((unit.setW 0 (max.setWidth 256)).setX 1 1)) (fun t => t.d 0 == minusMax) = true
    ∧ after (exec (.frombig 0 0 1) (unit.setW 0 (BitVec.ofNat 256 (10 ^ 38)))) (fun t => t.cause == 1) = true := by decide
theorem test_frombig_operandRange_first :
    after (exec (.frombig 0 0 1) ((unit.setW 0 (BitVec.ofNat 256 (10 ^ 38))).setX 1 2)) (fun t => t.cause == 4) = true := by
  decide
theorem test_tobig :
    after (exec (.tobig 1 0 2) (unit.setD 2 allOnes)) (fun t => t.w 1 == largest.setWidth 256 && t.x 0 == 1) = true := by
  decide
theorem test_pack_negative_zero :
    after (exec (.pack 1 0 1) (unit.setX 1 0x8000000000000000)) (fun t => t.d 1 == negativeZero) = true := by decide
theorem test_split :
    after (exec (.split 2 3 2) (unit.setD 2 0xFEDCBA98765432100123456789ABCDEF))
      (fun t => t.x 2 == 0x0123456789ABCDEF && t.x 3 == 0xFEDCBA9876543210) = true := by decide
theorem test_li_minus_32768 : after (exec (.li 5 0x8000) unit) (fun t => t.x 5 == 0xFFFFFFFFFFFF8000) = true := by decide

/-! ### Shifts (95_test_vectors.md 2.2) -/

theorem test_shld_sign_stays :
    after (exec (.shld 0 1) ((unit.setD 0 (minus 3)).setX 1 4)) (fun t => t.d 0 == minus 48) = true := by decide
theorem test_shld_overflow :
    after (exec (.shld 0 1) ((unit.setD 0 1).setX 1 (BitVec.ofNat 64 (2 ^ 40)))) (fun t => t.cause == 1 && t.d 0 == 1) = true
    ∧ after (exec (.shld 0 1) (unit.setD 0 largest)) (fun t => t.cause == 1) = true := by decide
theorem test_shlp_sign_is_a_bit :
    after (exec (.shlp 1 0 1) ((unit.setD 0 (minus 1)).setX 1 1)) (fun t => t.d 1 == 2) = true
    ∧ after (exec (.shlp 1 0 1) ((unit.setD 0 1).setX 1 127)) (fun t => t.d 1 == negativeZero) = true := by decide
theorem test_shr_sticky :
    after (exec (.shr true 1 0 1) ((unit.setD 0 9).setX 1 3)) (fun t => t.d 1 == 2) = true
    ∧ after (exec (.shr false 1 0 1) ((unit.setD 0 (minus 1)).setX 1 1)) (fun t => t.d 1 == 0) = true := by decide
theorem test_shr_large_count :
    after (exec (.shr true 1 0 1) ((unit.setD 0 largest).setX 1 200)) (fun t => t.d 1 == 1) = true := by decide
theorem test_shlmp :
    after (exec (.shlmp 0 3 1 2) (((unit.setW 0 limbs22).setX 1 2).setX 2 36))
      (fun t => t.w 0 == 0x99999999EEEEEEEEDDDDDDDDCCCCCCCC0000000FFFFFFFF80000001000000000 && t.x 3 == 4) = true := by decide
theorem test_shlmp_capacity :
    after (exec (.shlmp 0 3 1 2) (((unit.setW 0 limbs22).setX 1 7).setX 2 33)) (fun t => t.cause == 4 && t.w 0 == limbs22)
      = true := by decide
theorem test_shrmp :
    after (exec (.shrmp 1 1 2) (((unit.setW 1 limbs22).setX 1 3).setX 2 36))
      (fun t => t.w 1 == 0x99999999EEEEEEEEDDDDDDDDCCCCCCCCBBBBBBBB000000000AAAAAAAAFFFFFFF) = true := by decide
theorem test_shrmp_length_nine : after (exec (.shrmp 1 1 2) (unit.setX 1 9)) (fun t => t.cause == 4) = true := by decide

/-! ### Additive (95_test_vectors.md 2.3) -/

theorem test_add_borrow :
    after (exec (.add 2 0 1) ((unit.setD 0 0x80000001000000000000000000000000).setD 1 0x100000000))
      (fun t => t.d 2 == 0x80000000FFFFFFFFFFFFFFFF00000000) = true := by decide
theorem test_add_overflow_is_precise :
    after (exec (.add 0 0 1) ((unit.setD 0 max).setD 1 1)) (fun t => t.cause == 1 && t.d 0 == max && t.status == 1) = true := by
  decide
theorem test_addo_wraps_to_canonical_zero :
    after (exec (.addo 2 1 0 1) ((unit.setD 0 allOnes).setD 1 (minus 1)))
      (fun t => t.d 2 == 0 && t.x 1 == 0xFFFFFFFFFFFFFFFF && t.err == false) = true := by decide
theorem test_addo_max_max :
    after (exec (.addo 1 0 0 0) (unit.setD 0 max)) (fun t => t.d 1 == 0x16769950B50D88F41314447FFFFFFFFE && t.x 0 == 1) = true := by
  decide
theorem test_neg_negative_zero :
    after (exec (.neg 1 0) (unit.setD 0 negativeZero)) (fun t => t.d 1 == 0) = true
    ∧ after (exec (.neg 1 0) (strict.setD 0 negativeZero)) (fun t => t.cause == 4 && t.ecmd == 0x00000122) = true := by decide
theorem test_cmp_negatives :
    after (exec (.cmp 2 0 1) ((unit.setD 0 (minus 2)).setD 1 (minus 3))) (fun t => t.x 2 == 1) = true
    ∧ after (exec (.cmp 2 0 1) ((unit.setD 0 negativeZero).setX 2 5)) (fun t => t.x 2 == 0) = true := by decide
theorem test_isneg :
    after (exec (.isneg 3 3) (unit.setD 3 (minus 1))) (fun t => t.x 3 == 1) = true
    ∧ after (exec (.isneg 3 3) (unit.setD 3 negativeZero)) (fun t => t.x 3 == 0) = true := by decide
theorem test_iszero :
    after (exec (.iszero 4 3) (unit.setD 3 negativeZero)) (fun t => t.x 4 == 1) = true
    ∧ after (exec (.iszero 4 3) (unit.setD 3 (minus 1))) (fun t => t.x 4 == 0) = true := by decide

/-! ### Multiplicative and division (95_test_vectors.md 2.4, 2.5) -/

theorem test_mul_signs :
    after (exec (.mul 1 2 3) ((unit.setD 2 0x5AF3107A3FFF).setD 3 0x800000000000D3C21BCECCEDA1000000))
      (fun t => t.d 1 == 0xCB3B4CA85A85F0B7EDBB55525F000000) = true := by decide
theorem test_mul_bounds :
    after (exec (.mul 1 2 3) ((unit.setD 2 0x8AC7230489E7FFFF).setD 3 0x8AC7230489E80001)) (fun t => t.d 1 == max) = true
    ∧ after (exec (.mul 1 2 3) ((unit.setD 2 0x8AC7230489E80000).setD 3 0x8AC7230489E80000)) (fun t => t.cause == 1) = true := by
  decide
theorem test_mull_min :
    after (exec (.mull 1 2 3) ((unit.setD 2 0x8AC7230489E80000).setX 3 0x8000000000000000))
      (fun t => t.d 1 == 0xC563918244F400000000000000000000) = true := by decide
theorem test_mul256 :
    after (exec (.mul256 1 5) ((unit.setW 1 0x123456780000000000000000DEADBEEF00000000000000000000000000000003).setD 5 (minus 2)))
      (fun t => t.w 1 == 0x0000000000000000000000000000000180000000000000000000000000000006) = true := by decide
theorem test_div_rescaled :
    after (exec (.div 2 3 0 2 1 3) (((unit.setD 0 1).setD 1 3).setX 2 38))
      (fun t => t.d 2 == 0x1913C4381E2CEC28ADD8B61555555555 && t.d 3 == 1) = true
    ∧ after (exec (.div 0 1 0 0 1 0) ((unit.setD 0 (minus 7)).setD 1 2)) (fun t => t.d 0 == minus 3 && t.d 1 == minus 1)
      = true := by decide
theorem test_div_faults :
    after (exec (.div 4 5 0 2 1 3) ((unit.setX 2 39).setD 0 1)) (fun t => faultedBy unit t 4 0x01AA4440 5) = true
    ∧ after (exec (.div 4 5 0 2 1 3) unit) (fun t => faultedBy unit t 2 0x01AA4440 5) = true
    ∧ after (exec (.div 4 5 0 2 1 2) (((unit.setD 0 0x259DA6542D43623D04C5112000000000).setD 1 max).setX 2 1))
      (fun t => t.cause == 1 && t.d 4 == 0) = true := by decide

/-! ### Rescale, range checks, text (95_test_vectors.md 2.6, 2.7) -/

theorem test_rescale_half_up :
    after (exec (.rescale 1 0 1) ((unit.setD 0 (minus 15)).setX 1 0xFFFFFFFFFFFFFFFF)) (fun t => t.d 1 == minus 2) = true
    ∧ after (exec (.rescale 1 0 1) ((unit.setD 0 (minus 4)).setX 1 0xFFFFFFFFFFFFFFFF)) (fun t => t.d 1 == 0) = true := by decide
theorem test_rescale_extremes :
    after (exec (.rescale 1 0 1) ((unit.setD 0 max).setX 1 0x8000000000000000)) (fun t => t.d 1 == 0) = true
    ∧ after (exec (.rescale 1 0 1) ((unit.setD 0 100).setX 1 36)) (fun t => t.cause == 1) = true
    ∧ after (exec (.rescale 1 0 1) ((unit.setD 0 largest).setX 1 0)) (fun t => t.d 1 == largest && t.err == false) = true := by
  decide
theorem test_ovf :
    after (exec (.ovf 2 0 1) ((unit.setD 0 (minus 100)).setX 1 2)) (fun t => t.x 2 == 1) = true
    ∧ after (exec (.ovf 2 0 1) (unit.setX 1 39)) (fun t => t.cause == 4) = true := by decide
theorem test_tio :
    after (exec (.tio 7) (unit.setD 7 minusMax)) (fun t => t.err == false) = true
    ∧ after (exec (.tio 7) (unit.setD 7 0xCB3B4CA85A86C47A098A224000000000)) (fun t => t.cause == 1) = true := by decide
theorem test_tio2 :
    after (exec (.tio2 2 3) ((unit.setX 2 0x098A223FFFFFFFFF).setX 3 0xCB3B4CA85A86C47A)) (fun t => t.err == false) = true
    ∧ after (exec (.tio2 2 3) ((unit.setX 2 0x098A224000000000).setX 3 0xCB3B4CA85A86C47A)) (fun t => t.cause == 1) = true := by
  decide
theorem test_tostr_short :
    after (exec (.tostr 4) (unit.setD 4 (minus 10)))
      (fun t => t.slen == 3 && t.str.toList.take 4 == [0x2D, 0x31, 0x30, 0]) = true := by decide
theorem test_tostr_full :
    after (exec (.tostr 4) (unit.setD 4 allOnes))
      (fun t => t.slen == 40 && t.str.toList.take 4 == [0x2D, 0x31, 0x37, 0x30] && t.str.toList.drop 37 == [0x37, 0x32, 0x37])
      = true := by decide

/-! ### Faults, the window and the step (95_test_vectors.md 2.9) -/

theorem test_step_fault_then_drop :
    after (step (((unit.setD 0 max).setD 1 1).withFetchWord 32 0x00004220))
      (fun t => faultedBy (unit.setD 2 0) t 1 0x00004220 2) = true
    ∧ after (step (faulted.withFetchWord 32 0x00000000)) (fun t => t == faulted) = true := by decide
theorem test_step_illegal_word :
    after (step (unit.withFetchWord 32 0x00844240)) (fun t => faultedBy unit t 3 0x00844240 2) = true := by decide
theorem test_step_clear :
    after (step { faulted with host := [.write 0x174 4 0xFFFFFFFE] }) (fun t => t == faulted) = true
    ∧ after (step { faulted with host := [.write 0x174 4 1] }) (fun t => t == unit) = true := by decide
theorem test_step_write_one_byte :
    after (step { unit.setD 0 minusMax with host := [.write 0x00F 1 0x4B] }) (fun t => t.d 0 == max) = true := by decide
theorem test_window_reads :
    let s := ((unit.setD 0 minusMax).setX 1 0x0123456789ABCDEF).setW 0 0xECEBBB8000000001
    s.winRead 0x000 8 = 0x098A223FFFFFFFFF ∧ s.winRead 0x00E 2 = 0xCB3B ∧ s.winRead 0x08C 4 = 0x01234567
      ∧ s.winRead 0x104 4 = 0xECEBBB80 ∧ s.winRead 0x170 4 = 0 := by decide
theorem test_window_access_errors :
    [(0x001, 2), (0x004, 8), (0x000, 16), (0x000, 3), (0x0C0, 4), (0x16C, 4), (0x180, 4), (0x174, 1), (0x168, 8), (0x170, 2)].all
      (fun p => !admitted p.1 p.2) = true ∧ admitted 0x160 8 = true ∧ admitted 0x174 4 = true := by decide
theorem test_step_refuses_access_error :
    (match step { unit with host := [.read 0x004 8] } with
      | .refused r => r == .accessError
      | .next _ => false
      | .fault r => nomatch r) = true := by decide
theorem test_step_reset :
    after (step { faulted with host := [.reset] }) (fun t => t.status == 0 && t.cause == 0 && t.ecmd == 0) = true := by decide
theorem test_step_runs_from_reset :
    after (step (State.reset.withFetchWord 32 0xFFFF0109)) (fun t => t.x 1 == 0xFFFFFFFFFFFFFFFF) = true := by decide

/-! ### Datapaths (R146, R163, R188) -/

theorem test_divider_trace_qhat_high_by_two :
    limbDivide (toLimbs 8 0x18000000000000000) (toLimbs 8 0x200000003) = (0xBFFFFFFE, 0x1C0000006)
    ∧ quotientStep 2 [0xC0000000, 0x80000000] [0, 0, 0x60000000] = ([0x80000000, 0x70000001, 0], 0xBFFFFFFE) := by decide
theorem test_divider_trace_add_back :
    mulSub 2 [0x80000000, 0xC0000000, 0xBFFFFFFF] [0x80000000, 0x80000000, 0x7FFFFFFF, 1] 0 0
      = ([0x80000000, 0xFFFFFFFF, 0xFFFFFFFF, 0xFFFFFFFF], 1)
    ∧ limbDivide (toLimbs 8 0x2FFFFFFFF00000001) (toLimbs 8 0x17FFFFFFF80000001) = (1, 0x17FFFFFFF80000000) := by decide
theorem test_limbMultiply_max :
    limbMultiply (toLimbs 8 max.toNat) (toLimbs 4 max.toNat)
      = [0x00000001, 0xECEBBB80, 0xBC87870B, 0xE0FF0CA0, 0xE8652978, 0x0764B4AB, 0x119915B5, 0x161BCCA7] := by decide
theorem test_adder_halves :
    adderAdd 0x8000000000000000FFFFFFFFFFFFFFFF (minus 1) = .ok 0x80000000000000010000000000000000
    ∧ adderAddo max max = (0x16769950B50D88F41314447FFFFFFFFE, 1) := by decide

/-! ### Assembler (R82 to R84) -/

theorem test_pseudo_expansions :
    (pseudoSub 3 0 1 2).map (List.map encode) = some [0x00000A22, 0x00008320] ∧ pseudoSub 3 0 1 0 = none
      ∧ assembleLi 1 (-1) = some (.li 1 0xFFFF) ∧ assembleLi 1 32768 = none := by decide

/-! ## Witnesses: for every statement with hypotheses, a state and operands that meet them all

A statement with clauses over one input has a witness for each clause, at the boundary between the clauses. -/

/-- A unit whose host is about to take one step. -/
def hosted (h : HostStep) : State := { unit with host := [h] }

/-- The same in the fault state. -/
def hostedFaulted (h : HostStep) : State := { faulted with host := [h] }

theorem unit_controlInvariant : ControlInvariant unit := ⟨by decide, by decide, by decide, by decide, by decide⟩
theorem faulted_controlInvariant : ControlInvariant faulted :=
  ⟨by decide, by decide, by decide, by decide, by decide⟩

/-! ### Encoding and the step -/

theorem witness_DecodeInvertsEncode :
    (Instr.div 7 6 7 7 7 7).wellFormed = true ∧ (Instr.li 7 0xFFFF).wellFormed = true := by decide
theorem witness_EncodeInvertsDecode : decode 0x07FE0012 = .error .fixedBitsWrong ∧ decode 0x0401FF12 = .ok (.shr true 7 7 7) := by
  decide
/-- Both directions: a word that fits its row, one that misses it in one bit, one with equal destinations. -/
theorem witness_DecoderAcceptsExactlyTheTable :
    (∃ p ∈ specMaskMatch, (0x00061208 : Word) &&& p.1 = p.2) ∧ (¬∃ p ∈ specMaskMatch, (0x00161208 : Word) &&& p.1 = p.2)
      ∧ (0x00061208 : Word).extractLsb' 8 3 ≠ (0x00061208 : Word).extractLsb' 17 3
      ∧ (0x00041208 : Word).extractLsb' 8 3 = (0x00041208 : Word).extractLsb' 17 3 := by decide
theorem witness_ReservedOpcodesAreIllegal :
    unit.err = false ∧ reservedOpcode 0x0A ∧ ¬reservedOpcode 0x09 ∧ reservedOpcode 0xFF ∧ ¬reservedOpcode 0x60 := by
  refine ⟨by decide, ?_, ?_, ?_, ?_⟩ <;> unfold reservedOpcode <;> decide
theorem witness_StepRunsTheDecodedCommand :
    ∃ (s : State) (rest : List HostStep) (v : BitVec 64) (i : Instr),
      s.host = .write 0x170 4 v :: rest ∧ decode (v.setWidth 32) = .ok i :=
  ⟨hosted (.write 0x170 4 0x00004220), [], 0x00004220, .add 2 0 1, rfl, by decide⟩
theorem witness_IllegalWordEntersTheFaultState :
    ∃ (s : State) (rest : List HostStep) (v : BitVec 64) (r : Reject),
      s.host = .write 0x170 4 v :: rest ∧ decode (v.setWidth 32) = .error r ∧ s.err = false :=
  ⟨hosted (.write 0x170 4 0), [], 0, .reservedOpcode, rfl, by decide, by decide⟩
theorem witness_FaultStateDropsCommandsAndServesTheHost :
    (∃ v, (hostedFaulted (.write 0x170 4 0x00000301)).host = .write 0x170 4 v :: [])
    ∧ (hostedFaulted (.read 0x17C 4)).host = .read 0x17C 4 :: [] ∧ admitted 0x17C 4 = true
    ∧ (hostedFaulted (.write 0x138 8 5)).host = .write 0x138 8 5 :: [] ∧ admitted 0x138 8 = true ∧ 0x138 < 0x140
    ∧ (hostedFaulted (.read 0x17C 4)).err = true :=
  ⟨⟨_, rfl⟩, rfl, by decide, rfl, by decide, by decide, by decide⟩
theorem witness_EveryCommandCompletesAndOnlyAccessErrorsAreRefused :
    unit.host = [] ∧ (∃ t, step (hosted (.read 0x000 8)) = .next t)
      ∧ step (hosted (.read 0x004 8)) = .refused .accessError :=
  ⟨rfl, ⟨_, rfl⟩, rfl⟩

/-! ### Faults and the control registers -/

theorem witness_CommandFaultIsPrecise :
    ∃ (i : Instr) (s t : State), s.err = false ∧ exec i s = .next t ∧ t.err = true :=
  ⟨.div 4 5 0 2 1 3, unit, _, by decide, rfl, by decide⟩
theorem witness_CommandsThatNeverFault :
    neverFaults (.split 0 1 0) = true ∧ (Instr.split 0 1 0).wellFormed = true ∧ unit.err = false
      ∧ unit.cfg.negzeroPolicy = .canonicalise := by decide
theorem witness_NegativeZeroOperandIsRejected :
    let i := Instr.div 0 1 2 0 3 0
    let s := (strict.setD 3 negativeZero).setX 0 39
    i.wellFormed = true ∧ s.err = false ∧ s.cfg.negzeroPolicy = .reject ∧ 3 ∈ valueSources i ∧ s.d 3 = negativeZero := by
  decide
theorem witness_ValueReadCanonicalisesOrRejects :
    (unit.setD 0 (minus 1)).d 0 ≠ negativeZero
    ∧ ((unit.setD 0 negativeZero).d 0 = negativeZero ∧ (unit.setD 0 negativeZero).cfg.negzeroPolicy = .canonicalise)
    ∧ ((strict.setD 0 negativeZero).d 0 = negativeZero ∧ (strict.setD 0 negativeZero).cfg.negzeroPolicy = .reject) := by
  decide
theorem witness_HostClearLeavesTheFaultState :
    (hostedFaulted (.write 0x174 4 1)).host = .write 0x174 4 1 :: [] ∧ (hostedFaulted (.write 0x174 4 1)).err = true
      ∧ (1 : BitVec 64).getLsbD 0 = true
      ∧ (hosted (.write 0x174 4 1)).host = .write 0x174 4 1 :: [] ∧ (hosted (.write 0x174 4 1)).err = false
      ∧ (hostedFaulted (.write 0x174 4 2)).host = .write 0x174 4 2 :: [] ∧ (2 : BitVec 64).getLsbD 0 = false := by decide
/-- One step that enters the fault state and one that leaves it. -/
theorem witness_StepKeepsTheControlInvariant :
    (∃ t, ControlInvariant unit ∧ step (hosted (.write 0x170 4 0)) = .next t ∧ t.err = true)
      ∧ (∃ t, ControlInvariant faulted ∧ step (hostedFaulted (.write 0x174 4 1)) = .next t ∧ t.err = false)
      ∧ ControlInvariant (hosted (.write 0x170 4 0)) ∧ ControlInvariant (hostedFaulted (.write 0x174 4 1)) :=
  ⟨⟨_, unit_controlInvariant, rfl, by decide⟩, ⟨_, faulted_controlInvariant, rfl, by decide⟩,
    ⟨by decide, by decide, by decide, by decide, by decide⟩, ⟨by decide, by decide, by decide, by decide, by decide⟩⟩
theorem witness_ResetEventClearsTheControlRegisters : (hostedFaulted .reset).host = .reset :: [] := rfl
theorem witness_ConfigurationIsNeverChanged : ∃ t, step (hosted .reset) = .next t := ⟨_, rfl⟩
theorem witness_OnlyTostrAndResetChangeTheText :
    ∃ s t : State, step s = .next t ∧ (∀ rest, s.host ≠ .reset :: rest)
      ∧ ∀ v rest ds, s.host = .write 0x170 4 v :: rest → decode (v.setWidth 32) ≠ .ok (.tostr ds) :=
  ⟨hosted (.write 0x140 8 1), _, rfl, by intro rest h; simp [hosted] at h,
    by intro v rest ds h; simp [hosted] at h⟩
theorem witness_CommandChangesOnlyItsDestinations :
    ∃ s t : State, exec (.addo 2 1 0 0) s = .next t ∧ writesText (.addo 2 1 0 0) = false ∧ t.err = s.err :=
  ⟨unit.setD 0 max, _, rfl, rfl, by decide⟩
theorem witness_NoNegativeZeroIsWritten :
    ∃ s t : State, writesThroughEnc (.neg 1 0) = true ∧ exec (.neg 1 0) s = .next t :=
  ⟨unit.setD 0 0, _, rfl, rfl⟩
/-- Exponent 0 on MAX_UNSCALED, and exponent 36 on 99. -/
theorem witness_CheckedResultsStayInRange :
    checkedCommand (.rescale 1 0 1) = true
    ∧ (∃ s t : State, (∀ dd ds xe, Instr.rescale 1 0 1 = .rescale dd ds xe → s64 (s.x xe) = 0 →
        (s.d ds).toNat % 2 ^ 127 ≤ 10 ^ 38 - 1) ∧ s64 (s.x 1) = 0 ∧ exec (.rescale 1 0 1) s = .next t ∧ t.d 1 ≠ s.d 1)
    ∧ ∃ s t : State, (∀ dd ds xe, Instr.rescale 1 0 1 = .rescale dd ds xe → s64 (s.x xe) = 0 →
        (s.d ds).toNat % 2 ^ 127 ≤ 10 ^ 38 - 1) ∧ s64 (s.x 1) ≠ 0 ∧ exec (.rescale 1 0 1) s = .next t ∧ t.d 1 ≠ s.d 1 :=
  ⟨rfl, ⟨unit.setD 0 max, _, by rintro dd ds xe h; cases h; decide, by decide, rfl, by decide⟩,
    ⟨(unit.setD 0 99).setX 1 36, _, by rintro dd ds xe h; cases h; decide, by decide, rfl, by decide⟩⟩

/-! ### Codec -/

theorem witness_ZeroAndEmptyWriteCanonicalZero : (unit.setD 3 max).err = false := by decide
theorem witness_FromlongWritesTheSignedWord : (unit.setX 1 0x8000000000000000).err = false := by decide
/-- −2^63 and −2^63 − 1, then −2^63 where the parameter refuses it, then 2^63 − 1 and 2^63. -/
theorem witness_TolongConvertsOrOverflows :
    ((unit.setD 0 0x80000000000000008000000000000000).dv 0 = .ok 0x80000000000000008000000000000000
      ∧ -2 ^ 63 ≤ val 0x80000000000000008000000000000000 ∧ unit.cfg.tolongAcceptsMin = true)
    ∧ ((unit.setD 0 0x80000000000000008000000000000001).dv 0 = .ok 0x80000000000000008000000000000001
      ∧ val 0x80000000000000008000000000000001 < -2 ^ 63)
    ∧ ((strict.setD 0 0x80000000000000008000000000000000).dv 0 = .ok 0x80000000000000008000000000000000
      ∧ val 0x80000000000000008000000000000000 < -(2 ^ 63 - 1) ∧ strict.cfg.tolongAcceptsMin = false)
    ∧ ((unit.setD 0 0x7FFFFFFFFFFFFFFF).dv 0 = .ok 0x7FFFFFFFFFFFFFFF ∧ val 0x7FFFFFFFFFFFFFFF ≤ 2 ^ 63 - 1)
    ∧ ((unit.setD 0 0x8000000000000000).dv 0 = .ok 0x8000000000000000 ∧ 2 ^ 63 - 1 < val 0x8000000000000000)
    ∧ ((strict.setD 0 negativeZero).dv 0 = .error .operandRange ∧ strict.err = false ∧ unit.err = false) := by decide
theorem witness_FrombigEncodesSignAndMagnitude :
    let s := (unit.setW 0 (max.setWidth 256)).setX 1 1
    let beyond := (unit.setW 0 (BitVec.ofNat 256 (10 ^ 38))).setX 1 1
    (s.err = false ∧ (s.x 1).toNat ≤ 1 ∧ (s.w 0).toNat ≤ 10 ^ 38 - 1)
      ∧ (beyond.err = false ∧ (beyond.x 1).toNat ≤ 1 ∧ 10 ^ 38 - 1 < (beyond.w 0).toNat)
      ∧ ((beyond.setX 1 2).err = false ∧ 1 < ((beyond.setX 1 2).x 1).toNat) := by decide
theorem witness_TobigDeliversSignAndMagnitude :
    (unit.setD 2 allOnes).dv 2 = .ok allOnes ∧ (unit.setD 2 negativeZero).dv 2 = .ok canonicalZero
      ∧ (strict.setD 2 negativeZero).dv 2 = .error .operandRange ∧ unit.err = false ∧ strict.err = false := by decide
theorem witness_PackAndSplitMoveTheHalves : (unit.setD 2 allOnes).err = false ∧ (2 : XReg) ≠ 3 := by decide
theorem witness_LiWritesTheSignExtendedImmediate : unit.err = false := by decide

/-! ### Shifts -/

/-- MAX_UNSCALED and MAX_UNSCALED + 1 as the shifted value, and a read that faults. -/
theorem witness_ShldMultipliesByAPowerOfTwo :
    ((unit.setD 0 max).dv 0 = .ok max ∧ (val max * 2 ^ (unit.x 1).toNat).natAbs ≤ 10 ^ 38 - 1)
    ∧ (((unit.setD 0 0x259DA6542D43623D04C5112000000000).setX 1 1).dv 0 = .ok 0x259DA6542D43623D04C5112000000000
      ∧ 10 ^ 38 - 1 < (val 0x259DA6542D43623D04C5112000000000 * 2 ^ ((unit.setX 1 1).x 1).toNat).natAbs)
    ∧ ((strict.setD 0 negativeZero).dv 0 = .error .operandRange ∧ strict.err = false ∧ unit.err = false) := by decide
theorem witness_ShlpShiftsTheWholePattern : ((unit.setD 0 1).setX 1 128).err = false := by decide
theorem witness_ShrFloorsOrCeilsTheMagnitude :
    ((unit.setD 0 largest).setX 1 127).err = false ∧ ((unit.setD 0 largest).setX 1 127).dv 0 = .ok largest
      ∧ (strict.setD 0 negativeZero).err = false ∧ (strict.setD 0 negativeZero).dv 0 = .error .operandRange := by decide
/-- A new length of 8 and of 9. -/
theorem witness_ShlmpShiftsTheUsedLimbsLeft :
    unit.err = false
    ∧ (((unit.setX 1 7).setX 2 32).x 1).toNat + ((((unit.setX 1 7).setX 2 32).x 2).toNat + 31) / 32 ≤ 8
    ∧ 8 < (((unit.setX 1 7).setX 2 33).x 1).toNat + ((((unit.setX 1 7).setX 2 33).x 2).toNat + 31) / 32 := by decide
theorem witness_ShrmpShiftsTheUsedLimbsRight :
    unit.err = false ∧ ((unit.setX 1 8).x 1).toNat ≤ 8 ∧ 8 < ((unit.setX 1 9).x 1).toNat := by decide

/-! ### Additive commands -/

/-- A sum of MAX_UNSCALED and a sum of MAX_UNSCALED + 1. -/
theorem witness_AddWritesTheExactSumOrOverflows :
    ((unit.setD 0 max).dv 0 = .ok max ∧ (unit.setD 0 max).dv 1 = .ok 0 ∧ (val max + val 0).natAbs ≤ 10 ^ 38 - 1)
    ∧ (((unit.setD 0 max).setD 1 1).dv 0 = .ok max ∧ ((unit.setD 0 max).setD 1 1).dv 1 = .ok 1
      ∧ 10 ^ 38 - 1 < (val max + val 1).natAbs)
    ∧ ((strict.setD 1 negativeZero).dv 1 = .error .operandRange ∧ strict.err = false ∧ unit.err = false) := by decide
/-- Sums of 2^127 − 1 and of −2^127. -/
theorem witness_AddoReportsTheCarryAsADelta :
    let s := unit.setD 0 largest
    let u := (unit.setD 0 allOnes).setD 1 (minus 1)
    (s.err = false ∧ s.dv 0 = .ok largest ∧ s.dv 1 = .ok 0 ∧ (val largest + val 0).natAbs < 2 ^ 127)
      ∧ (u.err = false ∧ u.dv 0 = .ok allOnes ∧ u.dv 1 = .ok (minus 1) ∧ 2 ^ 127 ≤ (val allOnes + val (minus 1)).natAbs)
      ∧ (strict.setD 1 negativeZero).dv 1 = .error .operandRange := by decide
theorem witness_NegNegatesTheValue :
    unit.err = false ∧ (unit.setD 0 max).dv 0 = .ok max ∧ (unit.setD 0 negativeZero).dv 0 = .ok canonicalZero
      ∧ (strict.setD 0 negativeZero).dv 0 = .error .operandRange := by decide
theorem witness_CmpOrdersByValue :
    let s := (unit.setD 0 (minus 2)).setD 1 (minus 3)
    s.err = false ∧ s.dv 0 = .ok (minus 2) ∧ s.dv 1 = .ok (minus 3)
      ∧ (strict.setD 0 negativeZero).dv 0 = .error .operandRange := by decide
theorem witness_IsnegAndIszeroAnswerWithAWord :
    unit.err = false ∧ (unit.setD 0 (minus 1)).dv 0 = .ok (minus 1) ∧ unit.dv 0 = .ok 0
      ∧ (strict.setD 0 negativeZero).dv 0 = .error .operandRange := by decide

/-! ### Multiplicative commands and division -/

theorem witness_MulWritesTheExactProductOrOverflows :
    let s := (unit.setD 0 0x8AC7230489E7FFFF).setD 1 0x8AC7230489E80001
    let u := (unit.setD 0 0x8AC7230489E80000).setD 1 0x8AC7230489E80000
    (s.err = false ∧ s.dv 0 = .ok 0x8AC7230489E7FFFF ∧ s.dv 1 = .ok 0x8AC7230489E80001
      ∧ (val 0x8AC7230489E7FFFF * val 0x8AC7230489E80001).natAbs ≤ 10 ^ 38 - 1)
    ∧ (u.err = false ∧ u.dv 0 = .ok 0x8AC7230489E80000 ∧ u.dv 1 = .ok 0x8AC7230489E80000
      ∧ 10 ^ 38 - 1 < (val 0x8AC7230489E80000 * val 0x8AC7230489E80000).natAbs)
    ∧ (strict.setD 0 negativeZero).dv 0 = .error .operandRange := by decide
theorem witness_MullMultipliesByASignedWord :
    let s := (unit.setD 0 0x8AC7230489E7FFFF).setX 1 0x8000000000000000
    let u := (unit.setD 0 max).setX 1 2
    (s.err = false ∧ s.dv 0 = .ok 0x8AC7230489E7FFFF ∧ (val 0x8AC7230489E7FFFF * (s.x 1).toInt).natAbs ≤ 10 ^ 38 - 1)
    ∧ (u.err = false ∧ u.dv 0 = .ok max ∧ 10 ^ 38 - 1 < (val max * (u.x 1).toInt).natAbs)
    ∧ (strict.setD 0 negativeZero).dv 0 = .error .operandRange := by decide
theorem witness_Mul256WritesTheWideProduct : ((unit.setW 0 limbs22).setD 5 allOnes).err = false := by decide
/-- Rescale amounts 38 and 39, a divisor of 0, quotients of 10^38 − 1 and 10^38, a remainder of 5·10^38. -/
theorem witness_DivWritesQuotientAndRemainder :
    let s := (unit.setD 0 max).setD 1 1
    let wide := (((unit.setD 0 1).setD 1 3).setX 2 38).setX 3 38
    let beyond := (((unit.setD 0 1).setD 1 1).setX 2 38)
    let rem := (((unit.setD 0 0x259DA6542D43623D04C5112000000000).setD 1 max).setX 2 1).setX 3 1
    (2 : DReg) ≠ 3
    ∧ (s.err = false ∧ s.dv 0 = .ok max ∧ s.dv 1 = .ok 1 ∧ val 1 ≠ 0
      ∧ ((val max * 10 ^ 0).tdiv (val 1 * 10 ^ 0)).natAbs < 10 ^ 38 ∧ ((val max * 10 ^ 0).tmod (val 1 * 10 ^ 0)).natAbs < 10 ^ 38)
    ∧ (wide.err = false ∧ wide.dv 0 = .ok 1 ∧ wide.dv 1 = .ok 3 ∧ (wide.x 2).toInt ≤ 38 ∧ (wide.x 3).toInt ≤ 38)
    ∧ (¬((wide.setX 3 39).x 3).toInt ≤ 38 ∧ ¬0 ≤ ((wide.setX 2 0xFFFFFFFFFFFFFFFF).x 2).toInt)
    ∧ (unit.dv 1 = .ok 0 ∧ val 0 = 0 ∧ (unit.x 2).toInt = 0)
    ∧ (beyond.err = false ∧ beyond.dv 0 = .ok 1 ∧ beyond.dv 1 = .ok 1 ∧ (beyond.x 2).toInt = 38
      ∧ 10 ^ 38 ≤ ((val 1 * 10 ^ 38).tdiv (val 1 * 10 ^ 0)).natAbs)
    ∧ (rem.err = false ∧ rem.dv 0 = .ok 0x259DA6542D43623D04C5112000000000 ∧ rem.dv 1 = .ok max
      ∧ 10 ^ 38 ≤ ((val 0x259DA6542D43623D04C5112000000000 * 10 ^ 1).tmod (val max * 10 ^ 1)).natAbs)
    ∧ (strict.setD 1 negativeZero).dv 1 = .error .operandRange := by decide
theorem witness_DivObeysItsLaws :
    ∃ t, (0 : DReg) ≠ 1 ∧ ((unit.setD 0 (minus 7)).setD 1 2).err = false
      ∧ ((unit.setD 0 (minus 7)).setD 1 2).dv 0 = .ok (minus 7) ∧ ((unit.setD 0 (minus 7)).setD 1 2).dv 1 = .ok 2
      ∧ exec (.div 0 1 0 0 1 0) ((unit.setD 0 (minus 7)).setD 1 2) = .next t ∧ t.err = false :=
  ⟨_, by decide, by decide, by decide, by decide, rfl, by decide⟩

/-! ### Rescale, range checks, text -/

/-- Exponents 0, 36 on 99 and on 100, −1 and −2^63. -/
theorem witness_RescaleMultipliesOrRoundsHalfUp :
    (unit.err = false ∧ (unit.setD 0 largest).dv 0 = .ok largest ∧ (unit.x 1).toInt = 0)
    ∧ ((unit.setD 0 99).dv 0 = .ok 99 ∧ 0 < ((unit.setX 1 36).x 1).toInt ∧ (val 99 * 10 ^ 36).natAbs ≤ 10 ^ 38 - 1)
    ∧ ((unit.setD 0 100).dv 0 = .ok 100 ∧ 10 ^ 38 - 1 < (val 100 * 10 ^ 36).natAbs)
    ∧ (((unit.setX 1 0xFFFFFFFFFFFFFFFF).x 1).toInt < 0 ∧ ((unit.setX 1 0x8000000000000000).x 1).toInt < 0)
    ∧ (strict.setD 0 negativeZero).dv 0 = .error .operandRange := by decide
/-- Precisions 1, 38, 0 and 39. -/
theorem witness_OvfTestsThePrecision :
    unit.err = false ∧ (unit.setD 0 10).dv 0 = .ok 10
      ∧ 1 ≤ ((unit.setX 1 1).x 1).toInt ∧ ((unit.setX 1 38).x 1).toInt ≤ 38
      ∧ (unit.x 1).toInt < 1 ∧ 38 < ((unit.setX 1 39).x 1).toInt
      ∧ (strict.setD 0 negativeZero).dv 0 = .error .operandRange := by decide
/-- MAX_UNSCALED and 10^38, in a register and as the two words. -/
theorem witness_TioAndTio2OnlyTestTheRange :
    let s := (unit.setX 2 0x098A223FFFFFFFFF).setX 3 0xCB3B4CA85A86C47A
    let u := (unit.setX 2 0x098A224000000000).setX 3 0xCB3B4CA85A86C47A
    (unit.err = false ∧ (unit.setD 0 minusMax).dv 0 = .ok minusMax ∧ (val minusMax).natAbs ≤ 10 ^ 38 - 1)
    ∧ ((unit.setD 0 0x4B3B4CA85A86C47A098A224000000000).dv 0 = .ok 0x4B3B4CA85A86C47A098A224000000000
      ∧ 10 ^ 38 - 1 < (val 0x4B3B4CA85A86C47A098A224000000000).natAbs)
    ∧ (strict.setD 0 negativeZero).dv 0 = .error .operandRange
    ∧ (s.x 3).toNat % 2 ^ 63 * 2 ^ 64 + (s.x 2).toNat ≤ 10 ^ 38 - 1
    ∧ 10 ^ 38 - 1 < (u.x 3).toNat % 2 ^ 63 * 2 ^ 64 + (u.x 2).toNat := by decide
theorem witness_RangeChecksAgree :
    let s := (unit.setD 0 negativeZero).setX 1 38
    s.err = false ∧ s.dv 0 = .ok canonicalZero ∧ s.x 1 = 38 ∧ (2 : XReg) ≠ 3 := by decide
theorem witness_TostrWritesTheDecimalText :
    unit.err = false ∧ (unit.setD 4 allOnes).dv 4 = .ok allOnes ∧ (unit.setD 4 negativeZero).dv 4 = .ok canonicalZero
      ∧ (strict.setD 4 negativeZero).dv 4 = .error .operandRange := by decide

/-! ### Sequences -/

theorem witness_CodecRoundTrips :
    let s := ((unit.setW 0 (max.setWidth 256)).setX 1 1).setD 2 minusMax
    s.err = false ∧ (s.x 1).toNat ≤ 1 ∧ (s.w 0).toNat ≤ 10 ^ 38 - 1 ∧ s.d 2 ≠ negativeZero
      ∧ (val (s.d 2)).natAbs ≤ 10 ^ 38 - 1 ∧ s.cfg.tolongAcceptsMin = true
      ∧ ((strict.setX 1 0x8000000000000001).x 1).toInt ≠ -2 ^ 63
      ∧ ((unit.setW 0 5).w 0).toNat = ((unit.setX 2 0xFFFFFFFFFFFFFFFB).x 2).toInt.natAbs
      ∧ ((unit.setX 1 1).x 1).toNat = (if ((unit.setX 2 0xFFFFFFFFFFFFFFFB).x 2).toInt < 0 then 1 else 0) := by decide
theorem witness_PseudoInstructionsSubtractAndMove :
    let s := (unit.setD 0 max).setD 1 (minus 1)
    s.err = false ∧ pseudoSub 3 0 1 2 = some [.neg 2 1, .add 3 0 2] ∧ s.dv 0 = .ok max ∧ s.dv 1 = .ok (minus 1)
      ∧ 10 ^ 38 - 1 < (val max - val (minus 1)).natAbs ∧ (val max - val 0).natAbs ≤ 10 ^ 38 - 1 := by decide

/-! ### The register window -/

theorem witness_AccessesAreAdmittedExactly :
    ((hosted (.read 0x0B8 8)).host = .read 0x0B8 8 :: [] ∧ admittedBySpec 0x0B8 8)
    ∧ ((hosted (.read 0x0C0 1)).host = .read 0x0C0 1 :: [] ∧ ¬admittedBySpec 0x0C0 1)
    ∧ ((hosted (.write 0x160 8 0)).host = .write 0x160 8 0 :: [] ∧ admittedBySpec 0x160 8)
    ∧ ((hosted (.write 0x168 8 0)).host = .write 0x168 8 0 :: [] ∧ ¬admittedBySpec 0x168 8) := by
  refine ⟨⟨rfl, ?_⟩, ⟨rfl, ?_⟩, ⟨rfl, ?_⟩, ⟨rfl, ?_⟩⟩ <;> unfold admittedBySpec <;> decide
theorem witness_ReadReturnsTheWindowBytes :
    (hosted (.read 0x170 4)).host = .read 0x170 4 :: [] ∧ admittedBySpec 0x170 4 ∧ admittedBySpec 0x078 8 := by
  refine ⟨rfl, ?_, ?_⟩ <;> unfold admittedBySpec <;> decide
theorem witness_WriteStoresExactlyItsBytes :
    ((hosted (.write 0x00F 1 5)).host = .write 0x00F 1 5 :: [] ∧ admittedBySpec 0x00F 1 ∧ 0x00F < 0x168)
    ∧ (hosted (.write 0x160 8 5)).host = .write 0x160 8 5 :: [] ∧ admittedBySpec 0x160 8 ∧ 0x160 < 0x168 := by
  refine ⟨⟨rfl, ?_, ?_⟩, rfl, ?_, ?_⟩ <;> try unfold admittedBySpec
  all_goals decide
theorem witness_ReadOnlyRegistersDropWrites :
    ((hosted (.write 0x167 1 5)).host = .write 0x167 1 5 :: [] ∧ admittedBySpec 0x167 1)
    ∧ ((hosted (.write 0x168 4 5)).host = .write 0x168 4 5 :: [] ∧ admittedBySpec 0x168 4)
    ∧ ((hosted (.write 0x178 4 5)).host = .write 0x178 4 5 :: [] ∧ admittedBySpec 0x178 4)
    ∧ ((hosted (.write 0x17C 4 5)).host = .write 0x17C 4 5 :: [] ∧ admittedBySpec 0x17C 4)
    ∧ ((hosted (.write 0x174 4 5)).host = .write 0x174 4 5 :: [] ∧ admittedBySpec 0x174 4) := by
  refine ⟨⟨rfl, ?_⟩, ⟨rfl, ?_⟩, ⟨rfl, ?_⟩, ⟨rfl, ?_⟩, ⟨rfl, ?_⟩⟩ <;> unfold admittedBySpec <;> decide
theorem witness_WindowShowsEveryRegisterLittleEndian :
    (unit.setD 7 minusMax).windowByte (16 * 7 + 15) = some 0xCB ∧ unit.windowByte 0x0C0 = none
      ∧ unit.windowByte 0x180 = none ∧ (unit.setX 0 0x11).windowByte 0x080 = some 0x11 := by decide

/-! ### The datapaths -/

theorem witness_AdderDeliversTheContracts : largest ≠ negativeZero ∧ allOnes ≠ negativeZero := by decide
theorem witness_LimbDividerIsExact :
    (2 ^ 256 - 1 < 2 ^ 256 ∧ 2 ^ 64 - 1 < 2 ^ 256 ∧ 2 ^ 64 - 1 ≠ 0)
      ∧ limbDivide (toLimbs 8 (2 ^ 256 - 1)) (toLimbs 8 (2 ^ 64 - 1)) = ((2 ^ 256 - 1) / (2 ^ 64 - 1), 0) := by decide
theorem witness_DatapathsDeliverTheContracts :
    2 ^ 127 - 1 < 2 ^ 127 ∧ (38 ≤ 38 ∧ 1 ≤ 38)
      ∧ datapathDivide (2 ^ 127 - 1) 38 1 0 = .error .overflow ∧ datapathScaleDown (2 ^ 127 - 1) 38 = 2 := by decide

end Sys2Proof.Tests
end

section
/-! PROOFS. What no command and no window write touches (spec/70_reset_and_hazards.md R262, R264), and what a value
read gives (spec/00_scope.md R13, spec/10_state.md R23). -/

namespace Sys2Proof.Machine

/-! ### The value read (R13, R23) -/

/-- A pattern other than negative zero is read as it stands, under both policies. -/
theorem valueRead_of_ne_negativeZero (p : NegzeroPolicy) {b : Dec} (hb : b ≠ negativeZero) : valueRead p b = .ok b := by
  have hsm : ¬(sign b = true ∧ mag b = 0) := mt (eq_negativeZero_iff b).2 hb
  rcases valueRead_cases p b with ⟨hs, hm, -⟩ | ⟨hs, hm, -⟩ | ⟨-, h⟩
  · exact absurd ⟨hs, hm⟩ hsm
  · exact absurd ⟨hs, hm⟩ hsm
  · exact h

@[simp] theorem valueRead_canonicalise_negativeZero :
    valueRead .canonicalise negativeZero = .ok canonicalZero := by decide

@[simp] theorem valueRead_reject_negativeZero : valueRead .reject negativeZero = .error .operandRange := by decide

/-- Settles O13, by the three equations of `valueRead`. -/
theorem valueReadCanonicalisesOrRejects : Obligations.ValueReadCanonicalisesOrRejects := by
  intro s r
  refine ⟨fun hne => valueRead_of_ne_negativeZero _ hne, fun hz hp => ?_, fun hz hp => ?_⟩
  · rw [State.dv, hz, hp, valueRead_canonicalise_negativeZero]
  · rw [State.dv, hz, hp, valueRead_reject_negativeZero]

/-! ### What a command can write (R264) -/

/-- The states that come from `s` by writes of data registers and of the text, the only writes a command that
completes makes. -/
inductive DataWrites (s : State) : State → Prop where
  | none : DataWrites s s
  | setD {t : State} (i : DReg) (v : Dec) : DataWrites s t → DataWrites s (t.setD i v)
  | setX {t : State} (i : XReg) (v : Scalar) : DataWrites s t → DataWrites s (t.setX i v)
  | setW {t : State} (k : WReg) (v : Wide) : DataWrites s t → DataWrites s (t.setW k v)
  | setText {t : State} (b : Vector Byte 40) (n : Word) : DataWrites s t → DataWrites s (t.setText b n)

theorem SameOutside.refl (s : State) : SameOutside s s := ⟨rfl, rfl, rfl, rfl⟩

theorem raise_sameOutside (s : State) (F : FaultKind) (w : Word) : SameOutside s (s.raise F w) := ⟨rfl, rfl, rfl, rfl⟩

theorem DataWrites.sameOutside {s t : State} (h : DataWrites s t) : SameOutside s t := by
  induction h with
  | none => exact .refl s
  | setD | setX | setW | setText => assumption

theorem DataWrites.sameControl {s t : State} (h : DataWrites s t) : SameControl s t := by
  induction h with
  | none => exact ⟨rfl, rfl, rfl⟩
  | setD | setX | setW | setText => assumption

/-! A property of every state a meaning can complete with, along the shapes a meaning is built of. -/

theorem onOk_ok {P : State → Prop} {u : State} (h : P u) : ∀ t, (Except.ok u : Except FaultKind State) = .ok t → P t := by
  rintro t ⟨⟩
  exact h

theorem onOk_error {P : State → Prop} (F : FaultKind) : ∀ t, (Except.error F : Except FaultKind State) = .ok t → P t := by
  rintro t ⟨⟩

theorem onOk_bind {α : Type} {P : State → Prop} {e : Except FaultKind α} {f : α → Except FaultKind State}
    (h : ∀ a t, f a = .ok t → P t) : ∀ t, (e >>= f) = .ok t → P t := by
  intro t ht
  obtain ⟨a, -, ha⟩ := bind_eq_ok.1 ht
  exact h a t ha

theorem onOk_ite {P : State → Prop} {c : Prop} [Decidable c] {F : FaultKind} {e : Except FaultKind State}
    (h : ∀ t, e = .ok t → P t) : ∀ t, (if c then .error F else e) = .ok t → P t := by
  split
  · exact onOk_error F
  · exact h

/-- Every command is one performed effect, and an effect that completes only writes data registers or the text. -/
theorem exec_effect (i : Instr) (s : State) :
    ∃ e, exec i s = perform i s e ∧ ∀ u, e = .ok u → DataWrites s u := by
  cases i with
  | zero | empty | fromlong | pack | shlp => exact ⟨_, rfl, onOk_ok (.setD _ _ .none)⟩
  | li => exact ⟨_, rfl, onOk_ok (.setX _ _ .none)⟩
  | mul256 => exact ⟨_, rfl, onOk_ok (.setW _ _ .none)⟩
  | split => exact ⟨_, rfl, onOk_ite (onOk_ok (.setX _ _ (.setX _ _ .none)))⟩
  | neg | shr => exact ⟨_, rfl, onOk_bind fun _ => onOk_ok (.setD _ _ .none)⟩
  | isneg | iszero => exact ⟨_, rfl, onOk_bind fun _ => onOk_ok (.setX _ _ .none)⟩
  | tolong => exact ⟨_, rfl, onOk_bind fun _ => onOk_ite (onOk_ok (.setX _ _ .none))⟩
  | tobig => exact ⟨_, rfl, onOk_bind fun _ => onOk_ok (.setX _ _ (.setW _ _ .none))⟩
  | shrmp => exact ⟨_, rfl, onOk_bind fun _ => onOk_ok (.setW _ _ .none)⟩
  | shlmp => exact ⟨_, rfl, onOk_bind fun _ => onOk_ite (onOk_ok (.setX _ _ (.setW _ _ .none)))⟩
  | tio2 => exact ⟨_, rfl, onOk_bind fun _ => onOk_ok .none⟩
  | tostr => exact ⟨_, rfl, onOk_bind fun _ => onOk_ok (.setText _ _ .none)⟩
  | frombig | shld | rescale | mull =>
    exact ⟨_, rfl, onOk_bind fun _ => onOk_bind fun _ => onOk_ok (.setD _ _ .none)⟩
  | cmp | ovf => exact ⟨_, rfl, onOk_bind fun _ => onOk_bind fun _ => onOk_ok (.setX _ _ .none)⟩
  | addo => exact ⟨_, rfl, onOk_bind fun _ => onOk_bind fun _ => onOk_ok (.setX _ _ (.setD _ _ .none))⟩
  | tio => exact ⟨_, rfl, onOk_bind fun _ => onOk_bind fun _ => onOk_ok .none⟩
  | add | mul =>
    exact ⟨_, rfl, onOk_bind fun _ => onOk_bind fun _ => onOk_bind fun _ => onOk_ok (.setD _ _ .none)⟩
  | div =>
    exact ⟨_, rfl, onOk_ite (onOk_bind fun _ => onOk_bind fun _ => onOk_bind fun _ => onOk_bind fun _ =>
      onOk_bind fun _ => onOk_ok (.setD _ _ (.setD _ _ .none)))⟩

/-- Everything a command can do: it is dropped (R235), or it completes with writes of data registers and the text, or it
enters a fault with its own encoding in ECMD (R234). -/
theorem exec_cases {i : Instr} {s t : State} (h : exec i s = .next t) :
    (s.err = true ∧ t = s) ∨ (s.err = false ∧ DataWrites s t) ∨ (s.err = false ∧ ∃ F, t = s.raise F (encode i)) := by
  obtain ⟨e, he, hw⟩ := exec_effect i s
  rcases perform_cases (he ▸ h) with hdrop | ⟨hs, hok⟩ | ⟨hs, F, -, ht⟩
  · exact .inl hdrop
  · exact .inr (.inl ⟨hs, hw t hok⟩)
  · exact .inr (.inr ⟨hs, F, ht⟩)

/-! ### What stays outside the unit (R262, R264) -/

theorem exec_sameOutside {i : Instr} {s t : State} (h : exec i s = .next t) : SameOutside s t := by
  rcases exec_cases h with ⟨-, rfl⟩ | ⟨-, hw⟩ | ⟨-, F, rfl⟩
  · exact .refl t
  · exact hw.sameOutside
  · exact raise_sameOutside s F _

theorem command_error_sameOutside (s : State) (w : Word) (F : FaultKind) : SameOutside s (s.command w (.error F)) := by
  cases hs : s.err with
  | true => rw [State.command_of_err hs]; exact .refl s
  | false => rw [State.command_error hs]; exact raise_sameOutside s F w

theorem execute_sameOutside {w : Word} {s t : State} (h : execute w s = .next t) : SameOutside s t := by
  rcases execute_cases w s with ⟨i, -, he⟩ | ⟨-, he⟩
  · exact exec_sameOutside (he ▸ h)
  · obtain rfl : s.command w (.error .illegalCommand) = t := by simpa [he] using h
    exact command_error_sameOutside s w _

theorem clearFault_sameOutside (s : State) (w : Word) : SameOutside s (s.clearFault w) := by
  rcases s.clearFault_cases w with ⟨-, -, h⟩ | ⟨-, h⟩ <;> rw [h]
  · exact ⟨rfl, rfl, rfl, rfl⟩
  · exact .refl s

theorem writeBytes_sameOutside (s : State) (a : Nat) (v : BitVec 64) (n : Nat) : SameOutside s (s.writeBytes a v n) := by
  obtain ⟨-, -, -, -, -, hcfg, hhost, hread, hresets⟩ := s.writeBytes_frame a v n
  exact ⟨hcfg, hhost, hread, hresets⟩

theorem winWrite_sameOutside (s : State) (a n : Nat) (v : BitVec 64) : SameOutside s (s.winWrite a n v) := by
  unfold State.winWrite
  cases controlReg a with
  | none => exact writeBytes_sameOutside s a v n
  | some c =>
    cases c with
    | status => exact clearFault_sameOutside s _
    | slen | cmd | cause | ecmd => exact .refl s

/-- R262: no host step changes the configuration, reset included. -/
theorem hostStep_cfg {k : HostStep} {s t : State} (h : hostStep k s = .next t) : t.cfg = s.cfg := by
  rcases hostStep_cases h with ⟨-, rfl⟩ | ⟨a, n, -, -, rfl⟩ | ⟨a, n, v, -, -, -, he⟩ | ⟨a, n, v, -, -, -, rfl⟩
  · exact s.hardReset_cfg
  · rfl
  · exact (execute_sameOutside he).1
  · exact (winWrite_sameOutside s a n v).1

/-- Settles O18: the idle step changes nothing, and no host step changes the configuration. -/
theorem configurationIsNeverChanged : Obligations.ConfigurationIsNeverChanged := by
  intro s t h
  rcases step_cases h with ⟨-, rfl⟩ | ⟨k, rest, -, hk⟩
  · rfl
  · exact hostStep_cfg (s := { s with host := rest }) hk

end Sys2Proof.Machine
end

section
/-! PROOFS. What a command writes, with the bound on every magnitude (spec/10_state.md R23, R25) and on the length of
the text (R31): one lemma about every command, from which the invariant and the two range statements follow. -/

namespace Sys2Proof.Machine

/-! ### Magnitudes (R25, R120, R122, R180, R200) -/

/-- R23: a value read changes no magnitude: negative zero and canonical zero both have magnitude 0. -/
theorem mag_of_valueRead_ok {p : NegzeroPolicy} {b a : Dec} (h : valueRead p b = .ok a) : mag a = mag b := by
  rcases valueRead_cases p b with ⟨-, -, -, hv⟩ | ⟨-, hm, -, hv⟩ | ⟨-, hv⟩ <;> rw [hv] at h <;> cases h
  · rw [hm]; decide
  · rfl

theorem checked_le {m p : Nat} (h : checked m = .ok p) : p ≤ maxUnscaled := by
  obtain ⟨hle, rfl⟩ := checked_ok.1 h
  exact hle

theorem shiftedMag_le {m n p : Nat} (h : shiftedMag m n = .ok p) : p ≤ maxUnscaled := by
  unfold shiftedMag at h
  split at h
  · cases h; exact Nat.zero_le _
  · split at h
    · cases h
    · exact checked_le h

theorem stickyShifted_le (roundUp : Bool) {m : Nat} (hm : m < 2 ^ 127) (n : Nat) :
    stickyShifted roundUp m n ≤ 2 ^ 127 - 1 := by
  have hdiv : m / 2 ^ n ≤ m := Nat.div_le_self _ _
  by_cases hn : 127 ≤ n
  · simp only [stickyShifted, ge_iff_le, hn, if_true]
    split <;> omega
  · simp only [stickyShifted, ge_iff_le, hn, if_false]
    split
    · next hup =>
      have hlost : m % 2 ^ n ≠ 0 := by simpa using (Bool.and_eq_true_iff.1 hup).2
      have hpos : 0 < 2 ^ n := Nat.two_pow_pos n
      have hlt : m / 2 ^ n < m := by
        refine Nat.div_lt_self (Nat.pos_of_ne_zero fun h0 => hlost (by simp [h0])) ?_
        exact Nat.one_lt_two_pow fun h0 => hlost (by simp [h0, Nat.mod_one])
      omega
    · omega

theorem divideMags_le {U V : Nat} {qr : Nat × Nat} (h : divideMags U V = .ok qr) :
    qr.1 ≤ maxUnscaled ∧ qr.2 ≤ maxUnscaled := by
  unfold divideMags at h
  split at h
  · cases h
  · split at h
    · cases h
    · cases h
      simp only [maxUnscaled]
      omega

theorem scaledUp_le {m e q : Nat} (h : scaledUp m e = .ok q) : q ≤ maxUnscaled := by
  unfold scaledUp at h
  split at h
  · cases h; exact Nat.zero_le _
  · split at h
    · cases h
    · exact checked_le h

/-- R200: one division by ten brings every 127-bit magnitude into range, rounding included. -/
theorem scaledDown_le {m k : Nat} (hm : m < 2 ^ 127) (hk : 1 ≤ k) : scaledDown m k ≤ maxUnscaled := by
  have hten : 10 ≤ pow10 k := Nat.le_self_pow (by omega) 10
  have hdiv : m / pow10 k ≤ m / 10 := Nat.div_le_div_left hten (by decide)
  unfold scaledDown maxUnscaled
  split
  · omega
  · split <;> omega

/-- R200: exponent 0 copies the magnitude, and every other exponent leaves it in range. -/
theorem rescaledMag_le {m q : Nat} {e : Int} (hm : m < 2 ^ 127) (h : rescaledMag m e = .ok q) :
    q ≤ if e = 0 then m else maxUnscaled := by
  unfold rescaledMag at h
  by_cases h0 : e = 0
  · rw [if_pos h0] at h ⊢
    cases h; exact le_rfl
  · rw [if_neg h0] at h ⊢
    split at h
    · exact scaledUp_le h
    · cases h
      exact scaledDown_le hm (by omega)

theorem natAbs_s64_le (p : Scalar) : (s64 p).natAbs ≤ maxUnscaled := by
  have hrange := s64_range p
  unfold maxUnscaled
  omega

/-! ### The length of the text (R31, R220) -/

theorem digitCount_le (m : Nat) : digitCount m ≤ 39 := by
  unfold digitCount
  cases h : (List.range' 1 39).find? (fun k => decide (m < 10 ^ k)) with
  | none => exact le_rfl
  | some k =>
    have hk := List.mem_of_find?_eq_some h
    rw [List.mem_range'_1] at hk
    simp only [Option.getD_some]
    omega

theorem length_digitCodes (m : Nat) : (digitCodes m).length = digitCount m := by simp [digitCodes]

/-- R31: a minus sign and 39 digits fill the buffer. -/
theorem length_textOf_le (b : Dec) : (textOf b).length ≤ 40 := by
  have hdigits := digitCount_le (mag b)
  rw [textOf, List.length_append, length_digitCodes]
  split <;> simp only [List.length_nil, List.length_singleton] <;> omega

theorem toNat_ofNat_length_textOf_le (b : Dec) : (BitVec.ofNat 32 (textOf b).length).toNat ≤ 40 :=
  (BitVec.toNat_ofNat _ _ ▸ Nat.mod_le _ _).trans (length_textOf_le b)

/-! ### The patterns and lengths a command may write -/

/-- The states that come from `s` by writes in which every decimal pattern has the property `P` and the text is at most
40 characters long. -/
inductive BoundedWrites (P : Dec → Prop) (s : State) : State → Prop where
  | none : BoundedWrites P s s
  | setD {t : State} (i : DReg) {v : Dec} (hv : P v) : BoundedWrites P s t → BoundedWrites P s (t.setD i v)
  | setX {t : State} (i : XReg) (v : Scalar) : BoundedWrites P s t → BoundedWrites P s (t.setX i v)
  | setW {t : State} (k : WReg) (v : Wide) : BoundedWrites P s t → BoundedWrites P s (t.setW k v)
  | setText {t : State} (b : Vector Byte 40) {n : Word} (hn : n.toNat ≤ 40) :
      BoundedWrites P s t → BoundedWrites P s (t.setText b n)

theorem BoundedWrites.dataWrites {P : Dec → Prop} {s t : State} (h : BoundedWrites P s t) : DataWrites s t := by
  induction h with
  | none => exact .none
  | setD i _ _ ih => exact .setD i _ ih
  | setX i v _ ih => exact .setX i v ih
  | setW k v _ ih => exact .setW k v ih
  | setText b _ _ ih => exact .setText b _ ih

theorem BoundedWrites.slen_le {P : Dec → Prop} {s t : State} (h : BoundedWrites P s t) (hs : s.slen.toNat ≤ 40) :
    t.slen.toNat ≤ 40 := by
  induction h with
  | none => exact hs
  | setText b hn => exact hn
  | setD | setX | setW => assumption

theorem BoundedWrites.d_cases {P : Dec → Prop} {s t : State} (h : BoundedWrites P s t) (r : DReg) :
    t.d r = s.d r ∨ P (t.d r) := by
  induction h with
  | none => exact .inl rfl
  | setX | setW | setText => assumption
  | @setD t i v hv _ ih =>
    rw [State.d_setD]
    split
    · exact .inr hv
    · exact ih

/-- The largest magnitude a command writes through `enc`: MAX_UNSCALED for a checked command, except that RESCALE by
exponent 0 copies its source (R25 (2), R200; log 13), and 127 bits otherwise. -/
def magBound (s : State) : Instr → Nat
  | .rescale _ ds xe => if s64 (s.x xe) = 0 then mag (s.d ds) else maxUnscaled
  | i => if checkedCommand i then maxUnscaled else 2 ^ 127 - 1

/-- What a command may write to a decimal register: any pattern when it moves raw bits (SHLP, PACK), else the `enc` of a
magnitude within its bound. -/
def Writable (s : State) (i : Instr) (v : Dec) : Prop :=
  writesThroughEnc i = true → ∃ sg m, m ≤ magBound s i ∧ v = enc sg m

theorem Writable.of_le {s : State} {i : Instr} {sg : Bool} {m : Nat} (h : m ≤ magBound s i) : Writable s i (enc sg m) :=
  fun _ => ⟨sg, m, h, rfl⟩

theorem Writable.canonicalZero (s : State) (i : Instr) : Writable s i canonicalZero :=
  .of_le (sg := false) (Nat.zero_le _)

theorem magBound_lt (s : State) (i : Instr) : magBound s i < 2 ^ 127 := by
  unfold magBound
  split <;> split
  · exact mag_lt _
  all_goals decide

theorem magBound_le_of_checked {s : State} {i : Instr} (hi : checkedCommand i = true)
    (hsrc : ∀ dd ds xe, i = .rescale dd ds xe → s64 (s.x xe) = 0 → mag (s.d ds) ≤ maxUnscaled) :
    magBound s i ≤ maxUnscaled := by
  unfold magBound
  split
  · next dd ds xe =>
    split
    · exact hsrc dd ds xe rfl ‹_›
    · exact le_rfl
  · rw [if_pos hi]

theorem writesThroughEnc_of_checked {i : Instr} (h : checkedCommand i = true) : writesThroughEnc i = true := by
  cases i with
  | shlp | pack => cases h
  | _ => rfl

/-- A property of every state a bind can complete with, when what its first half answered matters. -/
theorem onOk_bind_eq {α : Type} {P : State → Prop} {e : Except FaultKind α} {f : α → Except FaultKind State}
    (h : ∀ a, e = .ok a → ∀ t, f a = .ok t → P t) : ∀ t, (e >>= f) = .ok t → P t := by
  intro t ht
  obtain ⟨a, he, ha⟩ := bind_eq_ok.1 ht
  exact h a he t ha

/-- Every command is one performed effect, and an effect that completes writes within the command's bounds. -/
theorem exec_boundedEffect (i : Instr) (s : State) :
    ∃ e, exec i s = perform i s e ∧ ∀ u, e = .ok u → BoundedWrites (Writable s i) s u := by
  cases i with
  | pack | shlp => exact ⟨_, rfl, onOk_ok (.setD _ (fun h => nomatch h) .none)⟩
  | zero | empty => exact ⟨_, rfl, onOk_ok (.setD _ (.canonicalZero s _) .none)⟩
  | fromlong => exact ⟨_, rfl, onOk_ok (.setD _ (.of_le (natAbs_s64_le _)) .none)⟩
  | frombig | mull =>
    exact ⟨_, rfl, onOk_bind fun _ => onOk_bind_eq fun _ hm => onOk_ok (.setD _ (.of_le (checked_le hm)) .none)⟩
  | shld =>
    exact ⟨_, rfl, onOk_bind fun _ => onOk_bind_eq fun _ hm => onOk_ok (.setD _ (.of_le (shiftedMag_le hm)) .none)⟩
  | add =>
    exact ⟨_, rfl, onOk_bind fun _ => onOk_bind fun _ => onOk_bind_eq fun _ hm =>
      onOk_ok (.setD _ (.of_le (checked_ok.1 hm).1) .none)⟩
  | mul =>
    exact ⟨_, rfl, onOk_bind fun _ => onOk_bind fun _ => onOk_bind_eq fun _ hm =>
      onOk_ok (.setD _ (.of_le (checked_le hm)) .none)⟩
  | div =>
    exact ⟨_, rfl, onOk_ite (onOk_bind fun _ => onOk_bind fun _ => onOk_bind fun _ => onOk_bind fun _ =>
      onOk_bind_eq fun _ hqr => onOk_ok
        (.setD _ (.of_le (divideMags_le hqr).2) (.setD _ (.of_le (divideMags_le hqr).1) .none)))⟩
  | rescale dd ds xe =>
    refine ⟨_, rfl, onOk_bind_eq fun b hb => onOk_bind_eq fun q hq => onOk_ok (.setD _ (.of_le ?_) .none)⟩
    have hle := rescaledMag_le (mag_lt b) hq
    rwa [mag_of_valueRead_ok hb] at hle
  | neg => exact ⟨_, rfl, onOk_bind fun b => onOk_ok (.setD _ (.of_le (Nat.le_pred_of_lt (mag_lt b))) .none)⟩
  | shr => exact ⟨_, rfl, onOk_bind fun b => onOk_ok (.setD _ (.of_le (stickyShifted_le _ (mag_lt b) _)) .none)⟩
  | addo =>
    exact ⟨_, rfl, onOk_bind fun _ => onOk_bind fun _ => onOk_ok
      (.setX _ _ (.setD _ (.of_le (Nat.le_pred_of_lt (Nat.mod_lt _ (by decide)))) .none))⟩
  | tostr => exact ⟨_, rfl, onOk_bind fun b => onOk_ok (.setText _ (toNat_ofNat_length_textOf_le b) .none)⟩
  | li => exact ⟨_, rfl, onOk_ok (.setX _ _ .none)⟩
  | mul256 => exact ⟨_, rfl, onOk_ok (.setW _ _ .none)⟩
  | split => exact ⟨_, rfl, onOk_ite (onOk_ok (.setX _ _ (.setX _ _ .none)))⟩
  | isneg | iszero => exact ⟨_, rfl, onOk_bind fun _ => onOk_ok (.setX _ _ .none)⟩
  | cmp | ovf => exact ⟨_, rfl, onOk_bind fun _ => onOk_bind fun _ => onOk_ok (.setX _ _ .none)⟩
  | tolong => exact ⟨_, rfl, onOk_bind fun _ => onOk_ite (onOk_ok (.setX _ _ .none))⟩
  | tobig => exact ⟨_, rfl, onOk_bind fun _ => onOk_ok (.setX _ _ (.setW _ _ .none))⟩
  | shlmp => exact ⟨_, rfl, onOk_bind fun _ => onOk_ite (onOk_ok (.setX _ _ (.setW _ _ .none)))⟩
  | shrmp => exact ⟨_, rfl, onOk_bind fun _ => onOk_ok (.setW _ _ .none)⟩
  | tio => exact ⟨_, rfl, onOk_bind fun _ => onOk_bind fun _ => onOk_ok .none⟩
  | tio2 => exact ⟨_, rfl, onOk_bind fun _ => onOk_ok .none⟩

/-- A command is dropped (R235) or writes within its bounds, or it enters a fault (R234). -/
theorem exec_boundedWrites {i : Instr} {s t : State} (h : exec i s = .next t) :
    BoundedWrites (Writable s i) s t ∨ ∃ F, t = s.raise F (encode i) := by
  obtain ⟨e, he, hw⟩ := exec_boundedEffect i s
  rcases perform_cases (he ▸ h) with ⟨-, rfl⟩ | ⟨-, hok⟩ | ⟨-, F, -, ht⟩
  · exact .inl .none
  · exact .inl (hw t hok)
  · exact .inr ⟨F, ht⟩

end Sys2Proof.Machine
end

section
/-! PROOFS. The control invariant of R31 to R34 and R237: what sets it up, and that every step keeps it. -/

namespace Sys2Proof.Machine

/-! ### The operations that write a control register -/

/-- The invariant speaks of STATUS, CAUSE, ECMD and SLEN alone. -/
theorem ControlInvariant.of_sameControl {s t : State} (h : ControlInvariant s) (hc : SameControl s t)
    (hlen : t.slen.toNat ≤ 40) : ControlInvariant t := by
  obtain ⟨hstatus, hcause, hecmd⟩ := hc
  have herr : t.err = s.err := by rw [State.err, hstatus, State.err]
  exact ⟨hstatus ▸ h.status_reserved, by rw [hcause, herr]; exact h.cause_zero_iff, hcause ▸ h.cause_range,
    by rw [hecmd, herr]; exact h.ecmd_zero, hlen⟩

theorem ControlInvariant.status_cases {s : State} (h : ControlInvariant s) : s.status = 0 ∨ s.status = 1 := by
  have hle := h.status_reserved
  bv_omega

/-- The control registers 0, as after reset and after the host's clear. -/
theorem controlInvariant_of_zero {s : State} (hstatus : s.status = 0) (hcause : s.cause = 0) (hecmd : s.ecmd = 0)
    (hlen : s.slen.toNat ≤ 40) : ControlInvariant s := by
  have herr : s.err = false := by simp [State.err, hstatus]
  exact ⟨by simp [hstatus], by simp [hcause, herr], by simp [hcause], fun _ => hecmd, hlen⟩

/-- R237: fault entry keeps the invariant. -/
theorem raise_controlInvariant {s : State} (h : ControlInvariant s) (F : FaultKind) (w : Word) :
    ControlInvariant (s.raise F w) where
  status_reserved := by
    rcases h.status_cases with hs | hs <;> simp [hs]
  cause_zero_iff := by
    rw [State.raise_cause, State.err_raise]
    exact iff_of_false F.code_ne_zero (by decide)
  cause_range := F.code_le
  ecmd_zero := by simp
  slen_range := h.slen_range

/-- R236, R237: so does the host's write to STATUS. -/
theorem clearFault_controlInvariant {s : State} (h : ControlInvariant s) (w : Word) :
    ControlInvariant (s.clearFault w) := by
  rcases s.clearFault_cases w with ⟨-, -, hc⟩ | ⟨-, hc⟩ <;> rw [hc]
  · refine controlInvariant_of_zero ?_ rfl rfl h.slen_range
    rcases h.status_cases with hs | hs <;> simp [hs]
  · exact h

/-- R40: it holds after every reset, whatever the free value SLEN is reduced from. -/
theorem afterReset_controlInvariant (cfg : Config) (n : Nat) : ControlInvariant (State.afterReset cfg n) := by
  refine controlInvariant_of_zero rfl rfl rfl ?_
  have hlt : Config.resetSlen n % 41 < 41 := Nat.mod_lt _ (by decide)
  simp only [State.afterReset, BitVec.toNat_ofNat]
  omega

theorem hardReset_controlInvariant (s : State) : ControlInvariant s.hardReset :=
  have h := afterReset_controlInvariant s.cfg s.resets
  h.of_sameControl ⟨rfl, rfl, rfl⟩ h.slen_range

/-! ### Commands, window accesses and steps -/

theorem exec_controlInvariant {i : Instr} {s t : State} (h : ControlInvariant s) (ht : exec i s = .next t) :
    ControlInvariant t := by
  rcases exec_boundedWrites ht with hw | ⟨F, rfl⟩
  · exact h.of_sameControl hw.dataWrites.sameControl (hw.slen_le h.slen_range)
  · exact raise_controlInvariant h F _

theorem execute_controlInvariant {w : Word} {s t : State} (h : ControlInvariant s) (ht : execute w s = .next t) :
    ControlInvariant t := by
  rcases execute_cases w s with ⟨i, -, he⟩ | ⟨-, he⟩
  · exact exec_controlInvariant h (he ▸ ht)
  · obtain rfl : s.command w (.error .illegalCommand) = t := by simpa [he] using ht
    cases hs : s.err with
    | true => rwa [State.command_of_err hs]
    | false => rw [State.command_error hs]; exact raise_controlInvariant h _ w

theorem winWrite_controlInvariant {s : State} (h : ControlInvariant s) (a n : Nat) (v : BitVec 64) :
    ControlInvariant (s.winWrite a n v) := by
  unfold State.winWrite
  cases controlReg a with
  | none =>
    obtain ⟨-, hslen, hstatus, hcause, hecmd, -⟩ := s.writeBytes_frame a v n
    exact h.of_sameControl ⟨hstatus, hcause, hecmd⟩ (hslen ▸ h.slen_range)
  | some c =>
    cases c with
    | status => exact clearFault_controlInvariant h _
    | slen | cmd | cause | ecmd => exact h

theorem hostStep_controlInvariant {k : HostStep} {s t : State} (h : ControlInvariant s) (ht : hostStep k s = .next t) :
    ControlInvariant t := by
  rcases hostStep_cases ht with ⟨-, rfl⟩ | ⟨a, n, -, -, rfl⟩ | ⟨a, n, v, -, -, -, he⟩ | ⟨a, n, v, -, -, -, rfl⟩
  · exact hardReset_controlInvariant s
  · exact h.of_sameControl ⟨rfl, rfl, rfl⟩ h.slen_range
  · exact execute_controlInvariant h he
  · exact winWrite_controlInvariant h a n v

/-- Settles O15: the idle step changes nothing, and each host step keeps the invariant. -/
theorem stepKeepsTheControlInvariant : Obligations.StepKeepsTheControlInvariant := by
  intro s t h ht
  rcases step_cases ht with ⟨-, rfl⟩ | ⟨k, rest, -, hk⟩
  · exact h
  · exact hostStep_controlInvariant (s := { s with host := rest }) (h.of_sameControl ⟨rfl, rfl, rfl⟩ h.slen_range) hk

/-- Settles O16: the state after reset is the one after reset number 0. -/
theorem resetMeetsTheControlInvariant : Obligations.ResetMeetsTheControlInvariant :=
  have h := afterReset_controlInvariant Config.standard 0
  ⟨h, h.cause_zero_iff.1 rfl⟩

end Sys2Proof.Machine
end

section
/-! PROOFS. What a command leaves in the decimal registers (spec/10_state.md R23, R25). -/

namespace Sys2Proof.Machine

/-- A command that writes through `enc` leaves each decimal register as it was or holding the `enc` of a magnitude within
its bound. -/
theorem exec_d_cases {i : Instr} {s t : State} (hi : writesThroughEnc i = true) (h : exec i s = .next t) (r : DReg) :
    t.d r = s.d r ∨ ∃ sg m, m ≤ magBound s i ∧ t.d r = enc sg m := by
  rcases exec_boundedWrites h with hw | ⟨F, rfl⟩
  · exact (hw.d_cases r).imp_right fun hv => hv hi
  · exact .inl (s.d_raise F _ r)

/-- Settles O21: `enc` of a 127-bit magnitude is never negative zero. -/
theorem noNegativeZeroIsWritten : Obligations.NoNegativeZeroIsWritten := by
  intro i s t r hi h
  refine (exec_d_cases hi h r).imp_right ?_
  rintro ⟨sg, m, hm, hd⟩
  rw [hd]
  exact enc_ne_negativeZero sg m (hm.trans_lt (magBound_lt s i))

/-- Settles O22: the bound of a checked command is MAX_UNSCALED, given the source's bound for RESCALE by 0. -/
theorem checkedResultsStayInRange : Obligations.CheckedResultsStayInRange := by
  intro i s t r hi hsrc h
  refine (exec_d_cases (writesThroughEnc_of_checked hi) h r).imp_right ?_
  rintro ⟨sg, m, hm, hd⟩
  rw [hd]
  have hmag : mag (enc sg m) = m := mag_enc sg m (hm.trans_lt (magBound_lt s i))
  exact hmag.le.trans (hm.trans (magBound_le_of_checked hi hsrc))

end Sys2Proof.Machine
end

section
/-! PROOFS. The map of the register window (spec/20_memory.md R51), the accesses it admits (R55), and the steps that
make one (R56, R57). -/

namespace Sys2Proof.Machine

/-! ### The map (R51) -/

/-- R51: the first offset of a data region. -/
def DataRegion.first : DataRegion → Nat
  | .d => 0x000
  | .x => 0x080
  | .w => 0x100
  | .s => 0x140

/-- R51: the first offset past a data region. -/
def DataRegion.limit : DataRegion → Nat
  | .d => 0x080
  | .x => 0x0C0
  | .w => 0x140
  | .s => 0x168

/-- R51: the offset of a control register. -/
def ControlReg.offset : ControlReg → Nat
  | .slen => 0x168
  | .cmd => 0x170
  | .status => 0x174
  | .cause => 0x178
  | .ecmd => 0x17C

theorem dataRegion_eq_some {a : Nat} {r : DataRegion} : dataRegion a = some r ↔ r.first ≤ a ∧ a < r.limit := by
  unfold dataRegion
  cases r with
  | d | x | w | s => simp only [DataRegion.first, DataRegion.limit]; split_ifs <;> simp <;> omega

theorem dataRegion_eq_none {a : Nat} : dataRegion a = none ↔ (0x0C0 ≤ a ∧ a < 0x100) ∨ 0x168 ≤ a := by
  unfold dataRegion
  split_ifs <;> simp <;> omega

theorem controlReg_eq_some {a : Nat} {c : ControlReg} : controlReg a = some c ↔ c.offset ≤ a ∧ a < c.offset + 4 := by
  unfold controlReg
  cases c with
  | slen | cmd | status | cause | ecmd => simp only [ControlReg.offset]; split_ifs <;> simp <;> omega

theorem controlReg_eq_none {a : Nat} :
    controlReg a = none ↔ a < 0x168 ∨ (0x16C ≤ a ∧ a < 0x170) ∨ 0x180 ≤ a := by
  unfold controlReg
  split_ifs <;> simp <;> omega

theorem ControlReg.offset_range (c : ControlReg) : 0x168 ≤ c.offset ∧ c.offset % 4 = 0 := by
  cases c <;> decide

/-- R51: no offset is in a data region and in a control register. -/
theorem dataRegion_of_controlReg {a : Nat} {c : ControlReg} (h : controlReg a = some c) : dataRegion a = none := by
  obtain ⟨hc, -⟩ := controlReg_eq_some.1 h
  exact dataRegion_eq_none.2 (.inr (c.offset_range.1.trans hc))

theorem DataRegion.exists_iff {p : DataRegion → Prop} : (∃ r, p r) ↔ p .d ∨ p .x ∨ p .w ∨ p .s := by
  refine ⟨fun ⟨r, hr⟩ => by cases r <;> simp [hr], ?_⟩
  rintro (h | h | h | h) <;> exact ⟨_, h⟩

theorem ControlReg.exists_iff {p : ControlReg → Prop} :
    (∃ c, p c) ↔ p .slen ∨ p .cmd ∨ p .status ∨ p .cause ∨ p .ecmd := by
  refine ⟨fun ⟨c, hc⟩ => by cases c <;> simp [hc], ?_⟩
  rintro (h | h | h | h | h) <;> exact ⟨_, h⟩

/-! ### Admitted accesses (R55) -/

/-- R55 (c): where an access may stand. -/
def Placed (a n : Nat) : Prop :=
  (∃ r : DataRegion, r.first ≤ a ∧ a + n ≤ r.limit) ∨ (n = 4 ∧ ∃ c : ControlReg, a = c.offset)

theorem insideOneRegion_iff {a n : Nat} (hn : 0 < n) :
    insideOneRegion a n = true ↔ ∃ r : DataRegion, r.first ≤ a ∧ a + n ≤ r.limit := by
  simp only [insideOneRegion, Bool.and_eq_true, Option.isSome_iff_exists, List.all_eq_true, List.mem_range, beq_iff_eq]
  constructor
  · rintro ⟨⟨r, hr⟩, hall⟩
    have hlast := (hall (n - 1) (by omega)).trans hr
    rw [dataRegion_eq_some] at hr hlast
    exact ⟨r, hr.1, by omega⟩
  · rintro ⟨r, hfirst, hlimit⟩
    have hbyte : ∀ i, i < n → dataRegion (a + i) = some r := fun i hi => dataRegion_eq_some.2 ⟨by omega, by omega⟩
    have hr : dataRegion a = some r := hbyte 0 hn
    exact ⟨⟨r, hr⟩, fun i hi => (hbyte i hi).trans hr.symm⟩

theorem atControlReg_iff {a n : Nat} : atControlReg a n = true ↔ n = 4 ∧ ∃ c : ControlReg, a = c.offset := by
  simp only [atControlReg, Bool.and_eq_true, Option.isSome_iff_exists, beq_iff_eq, controlReg_eq_some, and_assoc]
  refine and_congr_right fun _ => ⟨?_, ?_⟩
  · rintro ⟨halign, c, hc⟩
    have hoffset := c.offset_range.2
    exact ⟨c, by omega⟩
  · rintro ⟨c, rfl⟩
    exact ⟨c.offset_range.2, c, le_rfl, by omega⟩

theorem admitted_iff_placed {a n : Nat} :
    admitted a n = true ↔ (n = 1 ∨ n = 2 ∨ n = 4 ∨ n = 8) ∧ a % n = 0 ∧ Placed a n := by
  simp only [admitted, Bool.and_eq_true, Bool.or_eq_true, beq_iff_eq, and_assoc, or_assoc]
  refine and_congr_right fun hn => and_congr_right fun _ => ?_
  rw [insideOneRegion_iff (by omega), atControlReg_iff, Placed]

theorem admittedBySpec_iff_placed {a n : Nat} :
    admittedBySpec a n ↔ (n = 1 ∨ n = 2 ∨ n = 4 ∨ n = 8) ∧ a % n = 0 ∧ Placed a n := by
  simp [admittedBySpec, Placed, DataRegion.exists_iff, ControlReg.exists_iff, DataRegion.first, DataRegion.limit,
    ControlReg.offset, or_assoc]

/-- R55: the model's check admits what the spec's map does. -/
theorem admitted_iff {a n : Nat} : admitted a n = true ↔ admittedBySpec a n :=
  admitted_iff_placed.trans admittedBySpec_iff_placed.symm

theorem size_le_of_admittedBySpec {a n : Nat} (h : admittedBySpec a n) : n ≤ 8 := by
  obtain ⟨hsize, -⟩ := h
  omega

/-- R55: an admitted access at or past SLEN is one of the four bytes of a control register. -/
theorem size_eq_of_admittedBySpec {a n : Nat} (h : admittedBySpec a n) (ha : 0x168 ≤ a) : n = 4 := by
  obtain ⟨hsize, -, hplace⟩ := h
  omega

/-! ### The steps that make an access (R56, R57) -/

@[simp] theorem State.windowNat_with_host (s : State) (h : List HostStep) (a n : Nat) :
    ({ s with host := h } : State).windowNat a n = s.windowNat a n := by
  induction n generalizing a with
  | zero => rfl
  | succ n ih => rw [State.windowNat, State.windowByte_with_host, ih, State.windowNat]

/-- A read returns the same word whatever host steps are still to come. -/
@[simp] theorem State.winRead_with_host (s : State) (h : List HostStep) (a n : Nat) :
    ({ s with host := h } : State).winRead a n = s.winRead a n :=
  congrArg _ (s.windowNat_with_host h a n)

theorem execute_of_decode {w : Word} {i : Instr} (h : decode w = .ok i) (s : State) : execute w s = exec i s := by
  simp [execute, h]

/-- R80, R266: every command word has a next state. -/
theorem execute_next (w : Word) (s : State) : ∃ t, execute w s = .next t := by
  rcases execute_cases w s with ⟨i, -, he⟩ | ⟨-, he⟩
  · rw [he]; exact exec_next i s
  · exact ⟨_, he⟩

section
variable {s : State} {rest : List HostStep} {a n : Nat} {v : BitVec 64}

theorem step_of_read (hs : s.host = .read a n :: rest) (h : admittedBySpec a n) :
    step s = .next { s with host := rest, readData := some (s.winRead a n) } := by
  rw [step_of_host hs, hostStep, if_pos (admitted_iff.2 h), State.winRead_with_host]

theorem step_of_write (hs : s.host = .write a n v :: rest) (h : admittedBySpec a n) (ha : a ≠ cmdOffset) :
    step s = .next (({ s with host := rest } : State).winWrite a n v) := by
  rw [step_of_host hs, hostStep, if_pos (admitted_iff.2 h), if_neg ha]

theorem step_of_commandWrite (hs : s.host = .write cmdOffset n v :: rest) (h : admittedBySpec cmdOffset n) :
    step s = execute (v.setWidth 32) { s with host := rest } := by
  rw [step_of_host hs, hostStep, if_pos (admitted_iff.2 h), if_pos rfl]

theorem step_of_read_refused (hs : s.host = .read a n :: rest) (h : ¬admittedBySpec a n) :
    step s = .refused .accessError := by
  rw [step_of_host hs, hostStep, if_neg (mt admitted_iff.1 h)]

theorem step_of_write_refused (hs : s.host = .write a n v :: rest) (h : ¬admittedBySpec a n) :
    step s = .refused .accessError := by
  rw [step_of_host hs, hostStep, if_neg (mt admitted_iff.1 h)]

theorem step_of_write_next (hs : s.host = .write a n v :: rest) (h : admittedBySpec a n) : ∃ t, step s = .next t := by
  by_cases ha : a = cmdOffset
  · subst ha
    rw [step_of_commandWrite hs h]
    exact execute_next _ _
  · exact ⟨_, step_of_write hs h ha⟩

end

/-- Settles O52, by the equivalence of the model's check with the map of R51. -/
theorem accessesAreAdmittedExactly : Obligations.AccessesAreAdmittedExactly := fun _ _ _ _ _ =>
  ⟨fun hs => ⟨fun h => ⟨_, step_of_read hs h⟩, step_of_read_refused hs⟩,
    fun hs => ⟨step_of_write_next hs, step_of_write_refused hs⟩⟩

/-- R35, R55: four bytes at CMD are an admitted access. -/
theorem admittedBySpec_cmd : admittedBySpec cmdOffset 4 := admitted_iff.1 (by decide)

/-- Settles O6: a write to CMD is the execution of its word, which is the command the word decodes to. -/
theorem stepRunsTheDecodedCommand : Obligations.StepRunsTheDecodedCommand := by
  intro s rest v i hs hi
  rw [step_of_commandWrite hs admittedBySpec_cmd, execute_of_decode hi]

end Sys2Proof.Machine
end

section
/-! PROOFS. What the window shows (spec/20_memory.md R51 to R53) and what a read of it returns (R54). -/

namespace Sys2Proof.Machine

/-! ### The byte at an offset (R51 to R53) -/

theorem State.windowByte_of_dataRegion (s : State) {a : Nat} {r : DataRegion} (h : dataRegion a = some r) :
    s.windowByte a = some (s.dataByte a r) := by
  simp [State.windowByte, h]

theorem State.windowByte_of_controlReg (s : State) {a : Nat} {c : ControlReg} (h : controlReg a = some c) :
    s.windowByte a = some (byteOf (s.controlWord c) (a % 4)) := by
  simp [State.windowByte, dataRegion_of_controlReg h, h]

theorem State.windowByte_of_reserved (s : State) {a : Nat} (hd : dataRegion a = none) (hc : controlReg a = none) :
    s.windowByte a = none := by
  simp [State.windowByte, hd, hc]

/-- R52: decimal register i holds the offsets from 16·i. -/
theorem State.windowByte_dreg (s : State) (i : DReg) {k : Nat} (hk : k < 16) :
    s.windowByte (16 * i.val + k) = some (byteOf (s.d i) k) := by
  have hregion : dataRegion (16 * i.val + k) = some .d := dataRegion_eq_some.2 (show 0x000 ≤ _ ∧ _ < 0x080 by omega)
  have hreg : dregAt (16 * i.val + k) = i := by ext; simp only [dregAt]; omega
  have hbyte : (16 * i.val + k) % 16 = k := by omega
  rw [s.windowByte_of_dataRegion hregion, State.dataByte, hreg, hbyte]

/-- R52: scalar register i holds the offsets from 0x080 + 8·i. -/
theorem State.windowByte_xreg (s : State) (i : XReg) {k : Nat} (hk : k < 8) :
    s.windowByte (0x080 + 8 * i.val + k) = some (byteOf (s.x i) k) := by
  have hregion : dataRegion (0x080 + 8 * i.val + k) = some .x := dataRegion_eq_some.2 (show 0x080 ≤ _ ∧ _ < 0x0C0 by omega)
  have hreg : xregAt (0x080 + 8 * i.val + k) = i := by ext; simp only [xregAt]; omega
  have hbyte : (0x080 + 8 * i.val + k) % 8 = k := by omega
  rw [s.windowByte_of_dataRegion hregion, State.dataByte, hreg, hbyte]

/-- R53: wide register w holds the offsets from 0x100 + 32·w. -/
theorem State.windowByte_wreg (s : State) (w : WReg) {k : Nat} (hk : k < 32) :
    s.windowByte (0x100 + 32 * w.val + k) = some (byteOf (s.w w) k) := by
  have hregion : dataRegion (0x100 + 32 * w.val + k) = some .w := dataRegion_eq_some.2 (show 0x100 ≤ _ ∧ _ < 0x140 by omega)
  have hreg : wregAt (0x100 + 32 * w.val + k) = w := by ext; simp only [wregAt]; omega
  have hbyte : (0x100 + 32 * w.val + k) % 32 = k := by omega
  rw [s.windowByte_of_dataRegion hregion, State.dataByte, hreg, hbyte]

/-- R51: character i of S is at 0x140 + i. -/
theorem State.windowByte_str (s : State) (i : Fin 40) : s.windowByte (0x140 + i.val) = some (s.str.get i) := by
  have hregion : dataRegion (0x140 + i.val) = some .s := dataRegion_eq_some.2 (show 0x140 ≤ _ ∧ _ < 0x168 by omega)
  have hchar : strAt (0x140 + i.val) = i := by ext; simp only [strAt]; omega
  rw [s.windowByte_of_dataRegion hregion, State.dataByte, hchar]

/-- R51: a control register holds four offsets, little-endian. -/
theorem State.windowByte_controlReg (s : State) (c : ControlReg) {k : Nat} (hk : k < 4) :
    s.windowByte (c.offset + k) = some (byteOf (s.controlWord c) k) := by
  have hbyte : (c.offset + k) % 4 = k := by have := c.offset_range.2; omega
  rw [s.windowByte_of_controlReg (c := c) (controlReg_eq_some.2 ⟨by omega, by omega⟩), hbyte]

theorem byteOf_zero (n k : Nat) : byteOf (0 : BitVec n) k = 0 := by simp [byteOf]

/-- R35: the offsets of CMD read as 0. -/
theorem State.windowByte_cmd (s : State) {k : Nat} (hk : k < 4) : s.windowByte (0x170 + k) = some 0 := by
  have hcmd := s.windowByte_controlReg .cmd hk
  rwa [State.controlWord_cmd, byteOf_zero] at hcmd

/-- R53: byte k of limb j is byte 4·j + k of the wide register. -/
theorem byteOf_limb (v : Wide) (j : Nat) {k : Nat} (hk : k < 4) : byteOf (limb v j) k = byteOf v (4 * j + k) := by
  simp only [byteOf, limb]
  ext i hi
  simp only [BitVec.getElem_extractLsb', BitVec.getLsbD_extractLsb']
  rw [decide_eq_true (by omega), Bool.true_and]
  congr 1
  omega

/-- Settles O56, register by register. -/
theorem windowShowsEveryRegisterLittleEndian : Obligations.WindowShowsEveryRegisterLittleEndian := by
  intro s
  refine ⟨fun i k hk => s.windowByte_dreg i hk, fun i k hk => s.windowByte_xreg i hk, fun w j k hj hk => ?_,
    s.windowByte_str, fun k hk => ?_, fun a ha => ?_⟩
  · have hw := s.windowByte_wreg w (k := 4 * j + k) (by omega)
    rw [← byteOf_limb _ _ hk, ← Nat.add_assoc] at hw
    exact hw
  · exact ⟨s.windowByte_cmd hk, s.windowByte_controlReg .slen hk, s.windowByte_controlReg .status hk,
      s.windowByte_controlReg .cause hk, s.windowByte_controlReg .ecmd hk⟩
  · exact s.windowByte_of_reserved (dataRegion_eq_none.2 (by omega)) (controlReg_eq_none.2 (by omega))

/-! ### The word a read returns (R54) -/

/-- R55: every offset of an admitted access holds a byte. -/
theorem exists_windowByte_of_placed (s : State) {a n k : Nat} (h : Placed a n) (hk : k < n) :
    ∃ b, s.windowByte (a + k) = some b := by
  rcases h with ⟨r, hfirst, hlimit⟩ | ⟨rfl, c, rfl⟩
  · exact ⟨_, s.windowByte_of_dataRegion (r := r) (dataRegion_eq_some.2 ⟨by omega, by omega⟩)⟩
  · exact ⟨_, s.windowByte_controlReg c hk⟩

theorem State.windowNat_lt (s : State) (a n : Nat) : s.windowNat a n < 2 ^ (8 * n) := by
  induction n generalizing a with
  | zero => simp [State.windowNat]
  | succ n ih =>
    have hbyte := ((s.windowByte a).getD 0).isLt
    have hrest := ih (a + 1)
    rw [State.windowNat, Nat.mul_succ, Nat.pow_add]
    omega

/-- R54: byte k of the number read is the window byte k offsets on. -/
theorem State.windowNat_byte (s : State) (a : Nat) {n k : Nat} (hk : k < n) :
    s.windowNat a n / 2 ^ (8 * k) % 2 ^ 8 = ((s.windowByte (a + k)).getD 0).toNat := by
  induction n generalizing a k with
  | zero => omega
  | succ n ih =>
    have hbyte := ((s.windowByte a).getD 0).isLt
    rw [State.windowNat]
    cases k with
    | zero => simp only [Nat.mul_zero, Nat.pow_zero, Nat.add_zero]; omega
    | succ k =>
      have hdrop : (((s.windowByte a).getD 0).toNat + 256 * s.windowNat (a + 1) n) / 2 ^ 8 = s.windowNat (a + 1) n := by
        omega
      rw [Nat.mul_succ, Nat.add_comm (8 * k), Nat.pow_add, ← Nat.div_div_eq_div_mul, hdrop, ih (a + 1) (by omega),
        Nat.add_right_comm, Nat.add_assoc]

theorem State.toNat_winRead (s : State) (a : Nat) {n : Nat} (hn : n ≤ 8) : (s.winRead a n).toNat = s.windowNat a n := by
  have hlt : s.windowNat a n < 2 ^ 64 := (s.windowNat_lt a n).trans_le (Nat.pow_le_pow_right (by decide) (by omega))
  rw [State.winRead, BitVec.toNat_ofNat, Nat.mod_eq_of_lt hlt]

theorem State.byteOf_winRead (s : State) (a : Nat) {n k : Nat} (hn : n ≤ 8) (hk : k < n) :
    byteOf (s.winRead a n) k = (s.windowByte (a + k)).getD 0 := by
  apply BitVec.eq_of_toNat_eq
  rw [byteOf, BitVec.extractLsb'_toNat, s.toNat_winRead a hn, Nat.shiftRight_eq_div_pow, s.windowNat_byte a hk]

/-- R35, R54: a read of CMD returns 0. -/
theorem State.winRead_cmd (s : State) : s.winRead 0x170 4 = 0 := by
  simp [State.winRead, State.windowNat, s.windowByte_cmd (k := 0), s.windowByte_cmd (k := 1), s.windowByte_cmd (k := 2),
    s.windowByte_cmd (k := 3)]

/-- Settles O53: the word is `winRead`, whose bytes are those of the window. -/
theorem readReturnsTheWindowBytes : Obligations.ReadReturnsTheWindowBytes := by
  intro s rest a n hs h
  have hn := size_le_of_admittedBySpec h
  refine ⟨s.winRead a n, step_of_read hs h, fun k hk => ?_, ?_, ?_⟩
  · obtain ⟨-, -, hplaced⟩ := admittedBySpec_iff_placed.1 h
    obtain ⟨b, hb⟩ := exists_windowByte_of_placed s hplaced hk
    rw [s.byteOf_winRead a hn hk, hb, Option.getD_some]
  · rw [s.toNat_winRead a hn]
    exact s.windowNat_lt a n
  · rintro rfl
    rw [size_eq_of_admittedBySpec h (by decide), s.winRead_cmd]

end Sys2Proof.Machine
end

section
/-! PROOFS. What a write to the window stores (spec/20_memory.md R54) and what it drops (R58). -/

namespace Sys2Proof.Machine

/-! ### One byte stored (R54) -/

/-- Of a register into which one byte may have been written, every other byte. -/
theorem byteOf_ite_withByte_of_ne {n : Nat} {c : Prop} [Decidable c] {p q : BitVec n} {k j : Nat} (v : Byte)
    (h : c → p = q ∧ j ≠ k) : byteOf (if c then withByte p k v else q) j = byteOf q j := by
  split
  · next hc =>
    obtain ⟨rfl, hj⟩ := h hc
    exact byteOf_withByte_ne p k j v hj
  · rfl

/-- R54, R58: a byte written to D, X or W is the byte there. -/
theorem State.dataByte_writeByte_self (s : State) {a : Nat} {r : DataRegion} (v : Byte) (ha : dataRegion a = some r)
    (hr : r ≠ .s) : (s.writeByte a v).dataByte a r = v := by
  cases r with
  | s => exact absurd rfl hr
  | d =>
    simp only [State.writeByte, ha, State.dataByte, State.d_setD, if_true]
    exact byteOf_withByte_self _ _ _ (by omega)
  | x =>
    simp only [State.writeByte, ha, State.dataByte, State.x_setX, if_true]
    exact byteOf_withByte_self _ _ _ (by omega)
  | w =>
    simp only [State.writeByte, ha, State.dataByte, State.w_setW, if_true]
    exact byteOf_withByte_self _ _ _ (by omega)

/-! Two offsets of a region that lie in one register are two bytes of it (R51 to R53). -/

section
variable {a b : Nat}

theorem mod_ne_of_dregAt_eq (ha : dataRegion a = some .d) (hb : dataRegion b = some .d) (hne : b ≠ a)
    (h : dregAt a = dregAt b) : b % 16 ≠ a % 16 := by
  have hra : 0x000 ≤ a ∧ a < 0x080 := dataRegion_eq_some.1 ha
  have hrb : 0x000 ≤ b ∧ b < 0x080 := dataRegion_eq_some.1 hb
  simp only [dregAt, Fin.mk.injEq] at h
  omega

theorem mod_ne_of_xregAt_eq (ha : dataRegion a = some .x) (hb : dataRegion b = some .x) (hne : b ≠ a)
    (h : xregAt a = xregAt b) : b % 8 ≠ a % 8 := by
  have hra : 0x080 ≤ a ∧ a < 0x0C0 := dataRegion_eq_some.1 ha
  have hrb : 0x080 ≤ b ∧ b < 0x0C0 := dataRegion_eq_some.1 hb
  simp only [xregAt, Fin.mk.injEq] at h
  omega

theorem mod_ne_of_wregAt_eq (ha : dataRegion a = some .w) (hb : dataRegion b = some .w) (hne : b ≠ a)
    (h : wregAt a = wregAt b) : b % 32 ≠ a % 32 := by
  have hra : 0x100 ≤ a ∧ a < 0x140 := dataRegion_eq_some.1 ha
  have hrb : 0x100 ≤ b ∧ b < 0x140 := dataRegion_eq_some.1 hb
  simp only [wregAt, Fin.mk.injEq] at h
  omega

end

/-- R54: a byte write leaves every other offset. -/
theorem State.dataByte_writeByte_of_ne (s : State) {a b : Nat} {r : DataRegion} (v : Byte) (hb : dataRegion b = some r)
    (hne : b ≠ a) : (s.writeByte a v).dataByte b r = s.dataByte b r := by
  rcases s.writeByte_cases a v with ⟨ha, h⟩ | ⟨ha, h⟩ | ⟨ha, h⟩ | ⟨-, h⟩ <;> rw [h]
  · cases r with
    | x | w | s => rfl
    | d =>
      simp only [State.dataByte, State.d_setD]
      exact byteOf_ite_withByte_of_ne v fun hreg => ⟨by rw [hreg], mod_ne_of_dregAt_eq ha hb hne hreg⟩
  · cases r with
    | d | w | s => rfl
    | x =>
      simp only [State.dataByte, State.x_setX]
      exact byteOf_ite_withByte_of_ne v fun hreg => ⟨by rw [hreg], mod_ne_of_xregAt_eq ha hb hne hreg⟩
  · cases r with
    | d | x | s => rfl
    | w =>
      simp only [State.dataByte, State.w_setW]
      exact byteOf_ite_withByte_of_ne v fun hreg => ⟨by rw [hreg], mod_ne_of_wregAt_eq ha hb hne hreg⟩

theorem State.controlWord_writeByte (s : State) (a : Nat) (v : Byte) (c : ControlReg) :
    (s.writeByte a v).controlWord c = s.controlWord c := by
  obtain ⟨-, hslen, hstatus, hcause, hecmd, -⟩ := s.writeByte_frame a v
  cases c <;> simp only [State.controlWord, hslen, hstatus, hcause, hecmd]

theorem State.windowByte_writeByte_self (s : State) {a : Nat} {r : DataRegion} (v : Byte) (ha : dataRegion a = some r)
    (hr : r ≠ .s) : (s.writeByte a v).windowByte a = some v := by
  rw [State.windowByte_of_dataRegion _ ha, s.dataByte_writeByte_self v ha hr]

theorem State.windowByte_writeByte_of_ne (s : State) {a b : Nat} (v : Byte) (hne : b ≠ a) :
    (s.writeByte a v).windowByte b = s.windowByte b := by
  cases hd : dataRegion b with
  | some r =>
    rw [State.windowByte_of_dataRegion _ hd, s.windowByte_of_dataRegion hd, s.dataByte_writeByte_of_ne v hd hne]
  | none =>
    cases hc : controlReg b with
    | some c => rw [State.windowByte_of_controlReg _ hc, s.windowByte_of_controlReg hc, s.controlWord_writeByte]
    | none => rw [State.windowByte_of_reserved _ hd hc, s.windowByte_of_reserved hd hc]

/-- R58: from S upwards a byte write stores nothing. -/
theorem State.writeByte_of_text_le (s : State) {a : Nat} (v : Byte) (ha : 0x140 ≤ a) : s.writeByte a v = s := by
  rcases s.writeByte_cases a v with ⟨hr, -⟩ | ⟨hr, -⟩ | ⟨hr, -⟩ | ⟨-, h⟩
  case inr.inr.inr => exact h
  all_goals
    have hlimit := (dataRegion_eq_some.1 hr).2
    simp only [DataRegion.limit] at hlimit
    omega

/-! ### The bytes of one write (R54, R58) -/

theorem State.windowByte_writeBytes_of_lt (s : State) {a k n : Nat} {r : DataRegion} (v : BitVec 64) (hk : k < n)
    (ha : dataRegion (a + k) = some r) (hr : r ≠ .s) :
    (s.writeBytes a v n).windowByte (a + k) = some (byteOf v k) := by
  induction n with
  | zero => omega
  | succ n ih =>
    rw [State.writeBytes]
    by_cases hkn : k = n
    · subst hkn
      exact State.windowByte_writeByte_self _ _ ha hr
    · rw [State.windowByte_writeByte_of_ne _ _ (by omega), ih (by omega)]

theorem State.windowByte_writeBytes_of_outside (s : State) {a b n : Nat} (v : BitVec 64)
    (hb : b < a ∨ a + n ≤ b ∨ 0x140 ≤ b) : (s.writeBytes a v n).windowByte b = s.windowByte b := by
  induction n with
  | zero => rfl
  | succ n ih =>
    rw [State.writeBytes, ← ih (by omega)]
    by_cases hbn : b = a + n
    · rw [State.writeByte_of_text_le _ _ (by omega)]
    · exact State.windowByte_writeByte_of_ne _ _ hbn

/-- R58: a write to S is dropped. -/
theorem State.writeBytes_of_text_le (s : State) {a : Nat} (v : BitVec 64) (n : Nat) (ha : 0x140 ≤ a) :
    s.writeBytes a v n = s := by
  induction n with
  | zero => rfl
  | succ n ih => rw [State.writeBytes, ih, s.writeByte_of_text_le _ (by omega)]

theorem writeBytes_sameText (s : State) (a : Nat) (v : BitVec 64) (n : Nat) : SameText s (s.writeBytes a v n) := by
  obtain ⟨hstr, hslen, -⟩ := s.writeBytes_frame a v n
  exact ⟨hstr, hslen⟩

theorem writeBytes_sameControl (s : State) (a : Nat) (v : BitVec 64) (n : Nat) :
    SameControl s (s.writeBytes a v n) := by
  obtain ⟨-, -, hstatus, hcause, hecmd, -⟩ := s.writeBytes_frame a v n
  exact ⟨hstatus, hcause, hecmd⟩

/-! ### A write to a region or register (R57, R58) -/

/-- R51: below SLEN a write is a write of data bytes. -/
theorem State.winWrite_of_lt (s : State) {a : Nat} (n : Nat) (v : BitVec 64) (ha : a < 0x168) :
    s.winWrite a n v = s.writeBytes a v n := by
  rw [State.winWrite, controlReg_eq_none.2 (.inl ha)]

/-- R55: an admitted access below SLEN lies in data regions. -/
theorem dataRegion_of_placed {a n k : Nat} (h : Placed a n) (ha : a < 0x168) (hk : k < n) :
    ∃ r, dataRegion (a + k) = some r := by
  rcases h with ⟨r, hfirst, hlimit⟩ | ⟨-, c, rfl⟩
  · exact ⟨r, dataRegion_eq_some.2 ⟨by omega, by omega⟩⟩
  · exact absurd c.offset_range.1 (by omega)

/-- Settles O54: the bytes are stored one by one, each at its own offset. -/
theorem writeStoresExactlyItsBytes : Obligations.WriteStoresExactlyItsBytes := by
  intro s rest a n v hs h ha
  have hstep := step_of_write hs h (by rw [cmdOffset]; omega)
  rw [State.winWrite_of_lt _ n v ha] at hstep
  refine ⟨_, hstep, writeBytes_sameText _ a v n, writeBytes_sameControl _ a v n, writeBytes_sameOutside _ a v n, ?_, ?_⟩
  · intro k hk htext
    obtain ⟨-, -, hplaced⟩ := admittedBySpec_iff_placed.1 h
    obtain ⟨r, hr⟩ := dataRegion_of_placed hplaced ha hk
    refine State.windowByte_writeBytes_of_lt _ v hk hr ?_
    rintro rfl
    exact absurd (dataRegion_eq_some.1 hr).1 (Nat.not_le.2 htext)
  · intro b hb
    rw [State.windowByte_writeBytes_of_outside _ v hb, State.windowByte_with_host]

/-- R32, R58, R236: the host's write to STATUS leaves the bits above ERR. -/
theorem State.clearFault_status_shiftRight (s : State) (w : Word) : (s.clearFault w).status >>> 1 = s.status >>> 1 := by
  rcases s.clearFault_cases w with ⟨-, -, h⟩ | ⟨-, h⟩ <;> rw [h]
  ext k hk
  simpa [-BitVec.reduceNot, Nat.add_comm 1 k] using BitVec.lt_of_getLsbD

/-- Settles O55: S drops every byte, SLEN, CAUSE and ECMD drop the write, and STATUS is only cleared. -/
theorem readOnlyRegistersDropWrites : Obligations.ReadOnlyRegistersDropWrites := by
  intro s rest a n v hs h
  refine ⟨?_, ?_⟩
  · rintro (⟨htext, ha⟩ | rfl | rfl | rfl)
    · rw [step_of_write hs h (by rw [cmdOffset]; omega), State.winWrite_of_lt _ n v ha,
        State.writeBytes_of_text_le _ v n htext]
    all_goals exact step_of_write hs h (by decide)
  · rintro rfl
    exact ⟨_, step_of_write hs h (by decide), State.clearFault_status_shiftRight _ _⟩

end Sys2Proof.Machine
end

section
/-! PROOFS. The rows of the opcode table (spec/30_encoding.md R78, R81), the decoder that searches them (R80), and that
encoding and decoding undo each other (R75). -/

namespace Sys2Proof

/-! ### A word put together from its own fields (R71, R72) -/

/-- A field read and placed again is that part of the word. -/
theorem getElem_regAt_regField (w : Word) (lo : Nat) {i : Nat} (hi : i < 32) :
    (regAt (regField w lo) lo)[i] = (decide (lo ≤ i ∧ i < lo + 3) && w[i]) := by
  have hfield : regAt (regField w lo) lo = (w.extractLsb' lo 3).setWidth 32 <<< lo := rfl
  simp only [hfield, BitVec.getElem_shiftLeft, BitVec.getElem_setWidth, BitVec.getLsbD_extractLsb']
  by_cases hlo : lo ≤ i
  · have hoff : i - lo < 3 ↔ i < lo + 3 := by omega
    simp [hi, hlo, hoff, Nat.not_lt.2 hlo]
  · simp [hlo, Nat.lt_of_not_le hlo]

theorem getElem_of_extractLsb'_eq_zero {w : Word} {lo len i : Nat} (h : w.extractLsb' lo len = 0) (hi : i < 32)
    (hlo : lo ≤ i) (hlen : i < lo + len) : w[i] = false := by
  have hbit := congrArg (·.getLsbD (i - lo)) h
  simpa [show i - lo < len by omega, Nat.add_sub_cancel' hlo, hi] using hbit

/-- R71: with bits 31:27 zero, a word is format R's of its opcode, fields and modifier. -/
theorem formatR_fields {w : Word} (htop : w.extractLsb' 27 5 = 0) :
    formatR (opcodeOf w) (fieldR1 w) (fieldR2 w) (fieldR3 w) (fieldR4 w) (fieldR5 w) (fieldR6 w) (fieldM w) = w := by
  have hzero : ∀ i (hi : i < 32), 27 ≤ i → w[i] = false := fun i hi hlo =>
    getElem_of_extractLsb'_eq_zero htop hi hlo hi
  unfold formatR fieldR1 fieldR2 fieldR3 fieldR4 fieldR5 fieldR6 fieldM opcodeOf
  ext i hi
  interval_cases i <;> simp [getElem_regAt_regField, hzero]

/-- R72: with bits 15:11 zero, a word is format I's of its opcode, r1 and immediate. -/
theorem formatI_fields {w : Word} (hmid : w.extractLsb' 11 5 = 0) :
    formatI (opcodeOf w) (fieldR1 w) (fieldImm w) = w := by
  have hzero : ∀ i (hi : i < 32), 11 ≤ i → i < 16 → w[i] = false := fun i hi hlo hlen =>
    getElem_of_extractLsb'_eq_zero hmid hi hlo hlen
  unfold formatI fieldR1 fieldImm opcodeOf
  ext i hi
  interval_cases i <;> simp [getElem_regAt_regField, hzero]

/-! ### The fields of a word that fits a mask and a match, an opcode (R74, R75, R81) -/

theorem extractLsb'_setWidth_opcode (op : BitVec 8) {lo : Nat} (hlo : 8 ≤ lo) (len : Nat) :
    (op.setWidth 32).extractLsb' lo len = 0 := by
  ext i hi
  simp [BitVec.getLsbD_of_ge op (lo + i) (by omega)]

section
variable {w mask : Word} {op : BitVec 8}

theorem opcodeOf_of_fits (h : w &&& mask = op.setWidth 32) (hmask : opcodeOf mask = 0xFF) : opcodeOf w = op := by
  have hbits : opcodeOf w &&& opcodeOf mask = opcodeOf (op.setWidth 32) := by
    rw [← h, opcodeOf, opcodeOf, opcodeOf, BitVec.extractLsb'_and]
  rw [hmask] at hbits
  calc opcodeOf w = opcodeOf w &&& 0xFF := BitVec.and_allOnes.symm
    _ = op := by rw [hbits]; ext i hi; simp [opcodeOf, hi, hi.trans (by decide : 8 < 32)]

theorem extractLsb'_and_of_fits (h : w &&& mask = op.setWidth 32) {lo : Nat} (hlo : 8 ≤ lo) (len : Nat) :
    w.extractLsb' lo len &&& mask.extractLsb' lo len = 0 := by
  rw [← BitVec.extractLsb'_and, h, extractLsb'_setWidth_opcode op hlo]

/-- Above the opcode, bits the mask covers are zero. -/
theorem extractLsb'_of_fits (h : w &&& mask = op.setWidth 32) {lo len : Nat} (hlo : 8 ≤ lo)
    (hmask : mask.extractLsb' lo len = BitVec.allOnes len) : w.extractLsb' lo len = 0 := by
  have hbits := extractLsb'_and_of_fits h hlo len
  rwa [hmask, BitVec.and_allOnes] at hbits

/-- R75: a register field that must be zero. -/
theorem regField_unused (h : w &&& mask = op.setWidth 32) {lo : Nat} (hlo : 8 ≤ lo := by decide)
    (hmask : mask.extractLsb' lo 3 = 7 := by decide) : 0 = regField w lo := by
  rw [regField, extractLsb'_of_fits h hlo hmask]
  rfl

/-- R74: a field of which the mask covers the two upper bits names a wide register. -/
theorem regField_wide (h : w &&& mask = op.setWidth 32) {lo : Nat} (hlo : 8 ≤ lo := by decide)
    (hmask : mask.extractLsb' lo 3 = 6 := by decide) : wideField (wideReg (regField w lo)) = regField w lo := by
  have hbits := extractLsb'_and_of_fits h hlo 3
  rw [hmask] at hbits
  rw [regField]
  generalize w.extractLsb' lo 3 = field at hbits
  decide +revert

/-- R75: the modifier where it must be zero. -/
theorem fieldM_unused (h : w &&& mask = op.setWidth 32) (hmask : mask.extractLsb' 26 1 = 1 := by decide) :
    false = fieldM w := by
  have hbit := congrArg (·.getLsbD 0) (extractLsb'_of_fits h (by decide : 8 ≤ 26) hmask)
  simpa [fieldM] using hbit.symm

/-- A word that fits a row of format R is the encoding with that row's opcode and the operands its fields hold. -/
theorem formatR_of_fits {r1 r2 r3 r4 r5 r6 : Fin 8} {m : Bool} (h : w &&& mask = op.setWidth 32)
    (h1 : r1 = fieldR1 w) (h2 : r2 = fieldR2 w) (h3 : r3 = fieldR3 w) (h4 : r4 = fieldR4 w) (h5 : r5 = fieldR5 w)
    (h6 : r6 = fieldR6 w) (hm : m = fieldM w) (hop : opcodeOf mask = 0xFF := by decide)
    (htop : mask.extractLsb' 27 5 = 0x1F := by decide) : formatR op r1 r2 r3 r4 r5 r6 m = w := by
  rw [h1, h2, h3, h4, h5, h6, hm, ← opcodeOf_of_fits h hop, formatR_fields (extractLsb'_of_fits h (by decide) htop)]

/-- The same of LI's row, the one of format I (R72). -/
theorem formatI_of_fits (h : w &&& mask = op.setWidth 32) (hop : opcodeOf mask = 0xFF := by decide)
    (hmid : mask.extractLsb' 11 5 = 0x1F := by decide) : formatI op (fieldR1 w) (fieldImm w) = w := by
  rw [← opcodeOf_of_fits h hop, formatI_fields (extractLsb'_of_fits h (by decide) hmid)]

/-! The operand shapes that several rows share. -/

theorem formatR_r1_of_fits (h : w &&& 0xFFFFF8FF = op.setWidth 32) : formatR op (fieldR1 w) 0 0 0 0 0 false = w :=
  formatR_of_fits h rfl (regField_unused h) (regField_unused h) (regField_unused h) (regField_unused h)
    (regField_unused h) (fieldM_unused h)

theorem formatR_r2_of_fits (h : w &&& 0xFFFFC7FF = op.setWidth 32) : formatR op 0 (fieldR2 w) 0 0 0 0 false = w :=
  formatR_of_fits h (regField_unused h) rfl (regField_unused h) (regField_unused h) (regField_unused h)
    (regField_unused h) (fieldM_unused h)

theorem formatR_r1_r2_of_fits (h : w &&& 0xFFFFC0FF = op.setWidth 32) :
    formatR op (fieldR1 w) (fieldR2 w) 0 0 0 0 false = w :=
  formatR_of_fits h rfl rfl (regField_unused h) (regField_unused h) (regField_unused h) (regField_unused h)
    (fieldM_unused h)

theorem formatR_r1_r2_r3_of_fits (h : w &&& 0xFFFE00FF = op.setWidth 32) :
    formatR op (fieldR1 w) (fieldR2 w) (fieldR3 w) 0 0 0 false = w :=
  formatR_of_fits h rfl rfl rfl (regField_unused h) (regField_unused h) (regField_unused h) (fieldM_unused h)

end

/-! ### Every row (R78, R81) -/

/-- The words with the row's opcode and no other bit of its mask are the encodings of what their fields are read as. -/
def Row.Spells (r : Row) : Prop := ∀ w, w &&& r.mask = (opcodeOf r.pattern).setWidth 32 → encode (r.build w) = w

theorem codecRows_spell : ∀ r ∈ codecRows, r.Spells := by
  simp only [codecRows, List.forall_mem_cons, Row.Spells]
  refine ⟨fun w h => ?zero, fun w h => ?empty, fun w h => ?fromlong, fun w h => ?tolong, fun w h => ?frombig,
    fun w h => ?tobig, fun w h => ?pack, fun w h => ?split, fun w h => ?li, nofun⟩
  case zero | empty => exact formatR_r1_of_fits h
  case fromlong | tolong => exact formatR_r1_r2_of_fits h
  case pack => exact formatR_r1_r2_r3_of_fits h
  case li => exact formatI_of_fits h
  case frombig =>
    exact formatR_of_fits h rfl (regField_wide h) rfl (regField_unused h) (regField_unused h) (regField_unused h)
      (fieldM_unused h)
  case tobig =>
    exact formatR_of_fits h (regField_wide h) rfl (regField_unused h) rfl (regField_unused h) (regField_unused h)
      (fieldM_unused h)
  case split =>
    exact formatR_of_fits h rfl rfl (regField_unused h) rfl (regField_unused h) (regField_unused h) (fieldM_unused h)

theorem shiftRows_spell : ∀ r ∈ shiftRows, r.Spells := by
  simp only [shiftRows, List.forall_mem_cons, Row.Spells]
  refine ⟨fun w h => ?shld, fun w h => ?shlp, fun w h => ?shr, fun w h => ?shlmp, fun w h => ?shrmp, nofun⟩
  case shld => exact formatR_r1_r2_of_fits h
  case shlp => exact formatR_r1_r2_r3_of_fits h
  case shr =>
    exact formatR_of_fits h rfl rfl rfl (regField_unused h) (regField_unused h) (regField_unused h) rfl
  case shlmp =>
    exact formatR_of_fits h (regField_wide h) rfl rfl rfl (regField_unused h) (regField_unused h) (fieldM_unused h)
  case shrmp =>
    exact formatR_of_fits h (regField_wide h) rfl rfl (regField_unused h) (regField_unused h) (regField_unused h)
      (fieldM_unused h)

theorem additiveRows_spell : ∀ r ∈ additiveRows, r.Spells := by
  simp only [additiveRows, List.forall_mem_cons, Row.Spells]
  refine ⟨fun w h => ?add, fun w h => ?addo, fun w h => ?neg, fun w h => ?cmp, fun w h => ?isneg,
    fun w h => ?iszero, nofun⟩
  case add | cmp => exact formatR_r1_r2_r3_of_fits h
  case neg | isneg | iszero => exact formatR_r1_r2_of_fits h
  case addo => exact formatR_of_fits h rfl rfl rfl rfl (regField_unused h) (regField_unused h) (fieldM_unused h)

theorem arithmeticRows_spell : ∀ r ∈ arithmeticRows, r.Spells := by
  simp only [arithmeticRows, List.forall_mem_cons, Row.Spells]
  refine ⟨fun w h => ?mul, fun w h => ?mull, fun w h => ?mul256, fun w h => ?div, fun w h => ?rescale,
    fun w h => ?ovf, fun w h => ?tio, fun w h => ?tio2, fun w h => ?tostr, nofun⟩
  case mul | mull | rescale | ovf => exact formatR_r1_r2_r3_of_fits h
  case tio | tostr => exact formatR_r2_of_fits h
  case mul256 =>
    exact formatR_of_fits h (regField_wide h) rfl (regField_unused h) (regField_unused h) (regField_unused h)
      (regField_unused h) (fieldM_unused h)
  case div => exact formatR_of_fits h rfl rfl rfl rfl rfl rfl (fieldM_unused h)
  case tio2 =>
    exact formatR_of_fits h (regField_unused h) rfl rfl (regField_unused h) (regField_unused h) (regField_unused h)
      (fieldM_unused h)

theorem opcodeTable_spell {r : Row} (hr : r ∈ opcodeTable) : r.Spells := by
  simp only [opcodeTable, List.mem_append] at hr
  rcases hr with ((hr | hr) | hr) | hr
  · exact codecRows_spell r hr
  · exact shiftRows_spell r hr
  · exact additiveRows_spell r hr
  · exact arithmeticRows_spell r hr

/-- R78: each opcode has one row. -/
theorem row_eq_of_opcodeOf_eq {r r' : Row} (hr : r ∈ opcodeTable) (hr' : r' ∈ opcodeTable)
    (h : opcodeOf r.pattern = opcodeOf r'.pattern) : r = r' := by
  have hnodup : (opcodeTable.map fun r => opcodeOf r.pattern).Nodup := by decide
  exact List.inj_on_of_nodup_map hnodup hr hr' h

/-- R81: every mask covers the opcode, and every match is an opcode and no more. -/
theorem mask_covers_opcode {r : Row} (hr : r ∈ opcodeTable) :
    opcodeOf r.mask = 0xFF ∧ r.pattern = (opcodeOf r.pattern).setWidth 32 := by
  have hall : ∀ r ∈ opcodeTable, opcodeOf r.mask = 0xFF ∧ r.pattern = (opcodeOf r.pattern).setWidth 32 := by decide
  exact hall r hr

theorem opcodeOf_eq_of_fits_row {r : Row} {w : Word} (hr : r ∈ opcodeTable) (h : w &&& r.mask = r.pattern) :
    opcodeOf w = opcodeOf r.pattern := by
  obtain ⟨hmask, hpattern⟩ := mask_covers_opcode hr
  exact opcodeOf_of_fits (hpattern ▸ h) hmask

/-! ### The decoder (R80) -/

theorem find?_row_eq_some {w : Word} {r : Row} :
    opcodeTable.find? (fun r => opcodeOf r.pattern == opcodeOf w) = some r
      ↔ r ∈ opcodeTable ∧ opcodeOf r.pattern = opcodeOf w := by
  constructor
  · intro h
    exact ⟨List.mem_of_find?_eq_some h, by simpa using List.find?_some h⟩
  · rintro ⟨hr, hop⟩
    cases hfind : opcodeTable.find? (fun r => opcodeOf r.pattern == opcodeOf w) with
    | none => exact absurd (beq_iff_eq.2 hop) (List.find?_eq_none.1 hfind r hr)
    | some r' =>
      have hop' : opcodeOf r'.pattern = opcodeOf w := by simpa using List.find?_some hfind
      rw [row_eq_of_opcodeOf_eq (List.mem_of_find?_eq_some hfind) hr (hop'.trans hop.symm)]

/-- R80: a word is decoded exactly where it fits a row, the row's reading of it is well-formed, and that is what it is
decoded to. -/
theorem decode_eq_ok {w : Word} {i : Instr} :
    decode w = .ok i ↔
      ∃ r ∈ opcodeTable, w &&& r.mask = r.pattern ∧ (r.build w).wellFormed = true ∧ r.build w = i := by
  constructor
  · intro h
    unfold decode at h
    split at h
    · cases h
    · next r hfind =>
      split_ifs at h with hfits hwf
      · exact ⟨r, (find?_row_eq_some.1 hfind).1, not_not.1 hfits, hwf, Except.ok.inj h⟩
  · rintro ⟨r, hr, hfits, hwf, rfl⟩
    have hfind := find?_row_eq_some.2 ⟨hr, (opcodeOf_eq_of_fits_row hr hfits).symm⟩
    simp only [decode, hfind, hfits, hwf, ne_eq, not_true_eq_false, if_true, if_false]

/-- R79, R80 step 2: a word is refused as a reserved opcode exactly where no row has its opcode. -/
theorem decode_eq_reservedOpcode {w : Word} :
    decode w = .error .reservedOpcode ↔ ∀ r ∈ opcodeTable, opcodeOf r.pattern ≠ opcodeOf w := by
  have hnone : opcodeTable.find? (fun r => opcodeOf r.pattern == opcodeOf w) = none
      ↔ ∀ r ∈ opcodeTable, opcodeOf r.pattern ≠ opcodeOf w := by simp [List.find?_eq_none]
  rw [← hnone]
  unfold decode
  split
  · next h => simp [h]
  · next r h => split_ifs <;> simp [h]

/-! ### Encoding and decoding undo each other (R75) -/

/-- The row of each command, which its encoding fits and which reads it back. -/
theorem encodingFitsRow (i : Instr) : Laws.EncodingFitsRow.Statement i := by
  cases i with
  | zero dd => exact Laws.EncodingFitsRow.zero dd
  | empty dd => exact Laws.EncodingFitsRow.empty dd
  | fromlong dd xs => exact Laws.EncodingFitsRow.fromlong dd xs
  | tolong xd ds => exact Laws.EncodingFitsRow.tolong xd ds
  | frombig dd ws xsign => exact Laws.EncodingFitsRow.frombig dd ws xsign
  | tobig wd xsign ds => exact Laws.EncodingFitsRow.tobig wd xsign ds
  | pack dd xlo xhi => exact Laws.EncodingFitsRow.pack dd xlo xhi
  | split xlo xhi ds => exact Laws.EncodingFitsRow.split xlo xhi ds
  | li xd imm => exact Laws.EncodingFitsRow.li xd imm
  | shld dd xn => exact Laws.EncodingFitsRow.shld dd xn
  | shlp dd ds xn => exact Laws.EncodingFitsRow.shlp dd ds xn
  | shr roundUp dd ds xn => exact Laws.EncodingFitsRow.shr roundUp dd ds xn
  | shlmp wd xnew xlen xn => exact Laws.EncodingFitsRow.shlmp wd xnew xlen xn
  | shrmp wd xlen xn => exact Laws.EncodingFitsRow.shrmp wd xlen xn
  | add dd da db => exact Laws.EncodingFitsRow.add dd da db
  | addo dd xdelta da db => exact Laws.EncodingFitsRow.addo dd xdelta da db
  | neg dd ds => exact Laws.EncodingFitsRow.neg dd ds
  | cmp xd da db => exact Laws.EncodingFitsRow.cmp xd da db
  | isneg xd ds => exact Laws.EncodingFitsRow.isneg xd ds
  | iszero xd ds => exact Laws.EncodingFitsRow.iszero xd ds
  | mul dd da db => exact Laws.EncodingFitsRow.mul dd da db
  | mull dd da xk => exact Laws.EncodingFitsRow.mull dd da xk
  | mul256 wd db => exact Laws.EncodingFitsRow.mul256 wd db
  | div dq dr da xa db xb => exact Laws.EncodingFitsRow.div dq dr da xa db xb
  | rescale dd ds xe => exact Laws.EncodingFitsRow.rescale dd ds xe
  | ovf xd ds xp => exact Laws.EncodingFitsRow.ovf xd ds xp
  | tio ds => exact Laws.EncodingFitsRow.tio ds
  | tio2 xlo xhi => exact Laws.EncodingFitsRow.tio2 xlo xhi
  | tostr ds => exact Laws.EncodingFitsRow.tostr ds

/-- Settles O2: the encoding fits the command's row, which reads the command back. -/
theorem decodeInvertsEncode : Obligations.DecodeInvertsEncode := by
  intro i hwf
  obtain ⟨r, hfind, hfits, hbuild⟩ := encodingFitsRow i
  exact decode_eq_ok.2 ⟨r, (find?_row_eq_some.1 hfind).1, hfits, hbuild.symm ▸ hwf, hbuild⟩

/-- Settles O3: the words that fit a row are the encodings of what the row reads. -/
theorem encodeInvertsDecode : Obligations.EncodeInvertsDecode := by
  intro w i h
  obtain ⟨r, hr, hfits, hwf, rfl⟩ := decode_eq_ok.1 h
  exact ⟨opcodeTable_spell hr w (hfits.trans (mask_covers_opcode hr).2), hwf⟩

/-! ### The decoder against the spec's tables (R79, R81, R84) -/

/-- R81: the spec's masks and matches are those of the model's rows. -/
theorem specMaskMatch_eq : specMaskMatch = opcodeTable.map fun r => (r.mask, r.pattern) := rfl

theorem regField_eq_iff {w : Word} {lo lo' : Nat} :
    regField w lo = regField w lo' ↔ w.extractLsb' lo 3 = w.extractLsb' lo' 3 :=
  ⟨BitVec.eq_of_toFin_eq, congrArg BitVec.toFin⟩

/-- R80 step 4: only SPLIT and DIV read a word as a term that is not well-formed, where r1 = r4. -/
theorem wellFormed_build {r : Row} (hr : r ∈ opcodeTable) (w : Word) :
    (r.build w).wellFormed
      = !((opcodeOf r.pattern == 0x08 || opcodeOf r.pattern == 0x40) && fieldR1 w == fieldR4 w) := by
  fin_cases hr <;> rfl

theorem wellFormed_build_iff {r : Row} {w : Word} (hr : r ∈ opcodeTable) (hfits : w &&& r.mask = r.pattern) :
    (r.build w).wellFormed = true ↔
      ¬((w.extractLsb' 0 8 = 0x08 ∨ w.extractLsb' 0 8 = 0x40) ∧ w.extractLsb' 8 3 = w.extractLsb' 17 3) := by
  rw [wellFormed_build hr, ← opcodeOf_eq_of_fits_row hr hfits, ← regField_eq_iff, Bool.not_eq_true',
    ← Bool.not_eq_true]
  simp only [Bool.and_eq_true, Bool.or_eq_true, beq_iff_eq, opcodeOf, fieldR1, fieldR4]

/-- Settles O4: the decoder accepts what fits a row and is read as a well-formed term. -/
theorem decoderAcceptsExactlyTheTable : Obligations.DecoderAcceptsExactlyTheTable := by
  intro w
  constructor
  · rintro ⟨i, hi⟩
    obtain ⟨r, hr, hfits, hwf, -⟩ := decode_eq_ok.1 hi
    exact ⟨⟨_, specMaskMatch_eq ▸ List.mem_map_of_mem hr, hfits⟩, (wellFormed_build_iff hr hfits).1 hwf⟩
  · rintro ⟨⟨p, hp, hfits⟩, hdests⟩
    obtain ⟨r, hr, rfl⟩ := List.mem_map.1 (specMaskMatch_eq ▸ hp)
    exact ⟨_, decode_eq_ok.2 ⟨r, hr, hfits, (wellFormed_build_iff hr hfits).2 hdests, rfl⟩⟩

/-- R79: the opcodes listed as reserved are those of no row. -/
theorem reservedOpcode_iff (op : BitVec 8) :
    reservedOpcode op.toNat ↔ ∀ r ∈ opcodeTable, opcodeOf r.pattern ≠ op := by
  unfold reservedOpcode
  decide +revert

theorem toNat_opcodeOf (w : Word) : (opcodeOf w).toNat = w.toNat % 256 := by
  simp [opcodeOf, BitVec.extractLsb'_toNat]

theorem reservedOpcode_iff_decode {w : Word} :
    reservedOpcode (w.toNat % 256) ↔ decode w = .error .reservedOpcode := by
  rw [← toNat_opcodeOf, reservedOpcode_iff, decode_eq_reservedOpcode]

/-- Settles O1, by running the decoder. -/
theorem workedEncodingsDecode : Obligations.WorkedEncodingsDecode :=
  ⟨⟨rfl, rfl, rfl, rfl, rfl, rfl⟩, rfl, rfl, rfl⟩

end Sys2Proof
end

section
/-! PROOFS. What the unit does with a word that is no command (spec/30_encoding.md R79, R80). -/

namespace Sys2Proof.Machine

theorem execute_of_reject {w : Word} {r : Reject} {s : State} (h : decode w = .error r) (hs : s.err = false) :
    execute w s = .next (s.raise .illegalCommand w) := by
  simp [execute, h, hs]

/-- Settles O5: no row has a reserved opcode, and a word that is not decoded is refused. -/
theorem reservedOpcodesAreIllegal : Obligations.ReservedOpcodesAreIllegal := by
  refine fun w => ⟨reservedOpcode_iff_decode, fun s hs => ?_⟩
  rcases execute_cases w s with hi | ⟨⟨r, hr⟩, -⟩
  · exact .inl hi
  · exact .inr ⟨_, execute_of_reject hr hs, raise_faultEntered s _ w⟩

/-- Settles O7: the write to CMD executes its word, which enters the fault. -/
theorem illegalWordEntersTheFaultState : Obligations.IllegalWordEntersTheFaultState := by
  intro s rest v r hhost hr hs
  have hstep := step_of_commandWrite hhost admittedBySpec_cmd
  exact ⟨_, hstep.trans (execute_of_reject hr hs), raise_faultEntered _ _ _⟩

end Sys2Proof.Machine
end

section
/-! PROOFS. The two pseudo-instructions (spec/30_encoding.md R83): what NEG, ADD, LI and SHR do where their operands are
read, and the two sequences. -/

namespace Sys2Proof.Machine

/-! ### Patterns (R12, R13) -/

theorem enc_sign_mag {b : Dec} (hb : b ≠ negativeZero) : enc (sign b) (mag b) = b := by
  have hsm : ¬(sign b = true ∧ mag b = 0) := mt (eq_negativeZero_iff b).2 hb
  refine eq_of_sign_mag ?_ (mag_enc _ _ (mag_lt b))
  rw [sign_enc _ _ (mag_lt b)]
  cases hs : sign b <;> simp_all

/-- R142: toggling the sign negates the integer. -/
theorem val_enc_not_sign (b : Dec) : val (enc (!sign b) (mag b)) = -val b := by
  rw [val_enc _ _ (mag_lt b), val]
  cases sign b <;> simp

/-- R13: a value read is never negative zero. -/
theorem valueRead_ne_negativeZero {p : NegzeroPolicy} {b a : Dec} (h : valueRead p b = .ok a) : a ≠ negativeZero := by
  rcases valueRead_cases p b with ⟨-, -, -, hv⟩ | ⟨-, -, -, hv⟩ | ⟨hsm, hv⟩ <;> rw [hv] at h <;> cases h
  · decide
  · exact mt (eq_negativeZero_iff b).1 hsm

theorem maxUnscaled_eq : maxUnscaled = 10 ^ 38 - 1 := rfl

/-- R122: a shift by 0 leaves the magnitude. -/
theorem stickyShifted_zero (roundUp : Bool) (m : Nat) : stickyShifted roundUp m 0 = m := by
  simp [stickyShifted, Nat.mod_one]

/-! ### The value read under updates (R13) -/

theorem State.dv_setX (s : State) (i : XReg) (v : Scalar) (j : DReg) : (s.setX i v).dv j = s.dv j := rfl

theorem State.dv_setD_of_ne (s : State) {i j : DReg} (v : Dec) (h : i ≠ j) : (s.setD i v).dv j = s.dv j := by
  rw [State.dv, State.d_setD, if_neg h, State.setD_cfg, State.dv]

theorem State.dv_setD_self (s : State) (i : DReg) {v : Dec} (hv : v ≠ negativeZero) : (s.setD i v).dv i = .ok v := by
  rw [State.dv, State.d_setD, if_pos rfl, valueRead_of_ne_negativeZero _ hv]

/-! ### The four commands (R108, R122, R140, R142) -/

section
variable {s : State}

theorem exec_li (hs : s.err = false) (xd : XReg) (imm : BitVec 16) :
    exec (.li xd imm) s = .next (s.setX xd (imm.signExtend 64)) :=
  perform_ok hs _ _

theorem exec_neg {dd ds : DReg} {b : Dec} (hs : s.err = false) (hb : s.dv ds = .ok b) :
    exec (.neg dd ds) s = .next (s.setD dd (enc (!sign b) (mag b))) := by
  rw [exec, execNeg, hb, ok_bind, perform_ok hs]

theorem exec_shr {dd ds : DReg} {xn : XReg} {b : Dec} (roundUp : Bool) (hs : s.err = false) (hb : s.dv ds = .ok b) :
    exec (.shr roundUp dd ds xn) s
      = .next (s.setD dd (enc (sign b) (stickyShifted roundUp (mag b) (s.x xn).toNat))) := by
  rw [exec, execShr, hb, ok_bind, perform_ok hs]

theorem exec_add_of_le {dd da db : DReg} {a b : Dec} (hs : s.err = false) (ha : s.dv da = .ok a) (hb : s.dv db = .ok b)
    (h : (val a + val b).natAbs ≤ maxUnscaled) :
    exec (.add dd da db) s = .next (s.setD dd (encz (val a + val b))) := by
  rw [exec, execAdd, ha, ok_bind, hb, ok_bind, checked_ok.2 ⟨h, rfl⟩, ok_bind, perform_ok hs]

theorem exec_add_of_lt {dd da db : DReg} {a b : Dec} (hs : s.err = false) (ha : s.dv da = .ok a) (hb : s.dv db = .ok b)
    (h : maxUnscaled < (val a + val b).natAbs) :
    exec (.add dd da db) s = .next (s.raise .overflow (encode (.add dd da db))) := by
  rw [exec, execAdd, ha, ok_bind, hb, ok_bind, checked_error.2 ⟨h, rfl⟩, error_bind, perform_error hs]

end

/-! ### The sequences (R83) -/

theorem execAll_pair {i j : Instr} {s u : State} (h : exec i s = .next u) : execAll [i, j] s = exec j u := by
  obtain ⟨t, ht⟩ := exec_next j u
  simp only [execAll, h, ht]

theorem pseudoSub_eq_some {dd da db dt : DReg} {is : List Instr} :
    pseudoSub dd da db dt = some is ↔ dt ≠ da ∧ is = [.neg dt db, .add dd da dt] := by
  unfold pseudoSub
  split <;> simp_all [eq_comm]

/-- `sub` is ADD of its first operand and of what NEG left in the temporary register. -/
theorem execAll_pseudoSub {dd da db dt : DReg} {is : List Instr} {s : State} {a b : Dec} (hs : s.err = false)
    (his : pseudoSub dd da db dt = some is) (ha : s.dv da = .ok a) (hb : s.dv db = .ok b) :
    ∃ (u : State) (c : Dec), execAll is s = exec (.add dd da dt) u ∧ u.err = false ∧ u.dv da = .ok a ∧ u.dv dt = .ok c
      ∧ val c = -val b := by
  obtain ⟨hne, rfl⟩ := pseudoSub_eq_some.1 his
  refine ⟨_, _, execAll_pair (exec_neg hs hb), hs, ?_, s.dv_setD_self dt ?_, val_enc_not_sign b⟩
  · rw [s.dv_setD_of_ne _ hne, ha]
  · exact enc_ne_negativeZero _ _ (mag_lt b)

/-- `mov` writes the value read to its destination, after 0 to its scalar register. -/
theorem execAll_pseudoMov {dd ds : DReg} {xt : XReg} {s : State} {b : Dec} (hs : s.err = false) (hb : s.dv ds = .ok b) :
    execAll (pseudoMov dd ds xt) s = .next ((s.setX xt 0).setD dd b) := by
  have hli : exec (.li xt 0) s = .next (s.setX xt 0) := exec_li hs xt 0
  have hcount : ((s.setX xt 0).x xt).toNat = 0 := by rw [State.x_setX, if_pos rfl]; rfl
  have hshr := exec_shr (s := s.setX xt 0) (dd := dd) (xn := xt) false hs ((s.dv_setX xt 0 ds).trans hb)
  rw [pseudoMov, execAll_pair hli, hshr, hcount, stickyShifted_zero, enc_sign_mag (valueRead_ne_negativeZero hb)]

/-- Settles O51, by the two sequences. -/
theorem pseudoInstructionsSubtractAndMove : Obligations.PseudoInstructionsSubtractAndMove := by
  refine fun s hs => ⟨fun dd da db dt is a b his ha hb => ?_, fun dd ds xt b hb => ?_⟩
  · obtain ⟨u, c, hexec, hu, hua, huc, hc⟩ := execAll_pseudoSub hs his ha hb
    have hsum : val a + val c = val a - val b := by rw [hc, Int.sub_eq_add_neg]
    rw [hexec, ← hsum, ← maxUnscaled_eq]
    by_cases hle : (val a + val c).natAbs ≤ maxUnscaled
    · refine ⟨_, exec_add_of_le hu hua huc hle, fun _ => ⟨hu, ?_⟩, fun hlt => absurd hlt hle.not_gt⟩
      rw [State.d_setD, if_pos rfl, val_encz _ (hle.trans_lt (by decide))]
    · have hlt := Nat.lt_of_not_le hle
      exact ⟨_, exec_add_of_lt hu hua huc hlt, fun h => absurd h hle, fun _ => ⟨State.err_raise _ _ _, rfl⟩⟩
  · refine ⟨_, execAll_pseudoMov hs hb, ⟨⟨?_, ?_, fun _ _ => rfl⟩, ⟨rfl, rfl⟩, ⟨rfl, rfl, rfl⟩, rfl, rfl, rfl, rfl⟩, ?_⟩
    · intro i hi
      rw [State.d_setD, if_neg (Ne.symm (by simpa using hi)), State.d_setX]
    · intro i hi
      rw [State.x_setD, State.x_setX, if_neg (Ne.symm (by simpa using hi))]
    · rw [State.d_setD, if_pos rfl]

end Sys2Proof.Machine
end

section
/-! PROOFS. The codec commands (spec/40_codec.md R100 to R108): the rules of the frame and of the value read they are
stated with, one equation per command and outcome, and the round trips of R109. -/

namespace Sys2Proof.Machine

/-! ### The frame under register writes (R234, R264) -/

theorem ChangesOnly.refl (s : State) (ds : List DReg) (xs : List XReg) (ws : List WReg) : ChangesOnly s s ds xs ws :=
  ⟨⟨fun _ _ => rfl, fun _ _ => rfl, fun _ _ => rfl⟩, ⟨rfl, rfl⟩, ⟨rfl, rfl, rfl⟩, .refl s⟩

section
variable {s t : State} {ds : List DReg} {xs : List XReg} {ws : List WReg}

theorem ChangesOnly.setD {i : DReg} (v : Dec) (h : ChangesOnly s t ds xs ws) (hi : i ∈ ds) :
    ChangesOnly s (t.setD i v) ds xs ws := by
  obtain ⟨⟨hd, hx, hw⟩, hrest⟩ := h
  refine ⟨⟨fun j hj => ?_, hx, hw⟩, hrest⟩
  rw [State.d_setD, if_neg (ne_of_mem_of_not_mem hi hj), hd j hj]

theorem ChangesOnly.setX {i : XReg} (v : Scalar) (h : ChangesOnly s t ds xs ws) (hi : i ∈ xs) :
    ChangesOnly s (t.setX i v) ds xs ws := by
  obtain ⟨⟨hd, hx, hw⟩, hrest⟩ := h
  refine ⟨⟨hd, fun j hj => ?_, hw⟩, hrest⟩
  rw [State.x_setX, if_neg (ne_of_mem_of_not_mem hi hj), hx j hj]

theorem ChangesOnly.setW {k : WReg} (v : Wide) (h : ChangesOnly s t ds xs ws) (hk : k ∈ ws) :
    ChangesOnly s (t.setW k v) ds xs ws := by
  obtain ⟨⟨hd, hx, hw⟩, hrest⟩ := h
  refine ⟨⟨hd, hx, fun j hj => ?_⟩, hrest⟩
  rw [State.w_setW, if_neg (ne_of_mem_of_not_mem hk hj), hw j hj]

end

theorem changesOnly_setD (s : State) (i : DReg) (v : Dec) : ChangesOnly s (s.setD i v) [i] [] [] :=
  (ChangesOnly.refl s _ _ _).setD v (List.mem_singleton_self i)

theorem changesOnly_setX (s : State) (i : XReg) (v : Scalar) : ChangesOnly s (s.setX i v) [] [i] [] :=
  (ChangesOnly.refl s _ _ _).setX v (List.mem_singleton_self i)

theorem State.d_setD_self (s : State) (i : DReg) (v : Dec) : (s.setD i v).d i = v := by rw [State.d_setD, if_pos rfl]

theorem State.x_setX_self (s : State) (i : XReg) (v : Scalar) : (s.setX i v).x i = v := by rw [State.x_setX, if_pos rfl]

theorem State.w_setW_self (s : State) (k : WReg) (v : Wide) : (s.setW k v).w k = v := by rw [State.w_setW, if_pos rfl]

/-! ### Faults (R13, R23, R28) -/

/-- A command whose meaning begins with the value read of its one source enters the fault of that read. -/
theorem readFaultsOf_bind {i : Instr} {r : DReg} {s : State} {f : Dec → Except FaultKind State} (hs : s.err = false)
    (h : exec i s = perform i s (s.dv r >>= f)) : ReadFaultsOf i [r] s := by
  intro r' hr' F hF
  obtain rfl := List.mem_singleton.1 hr'
  rw [h, hF, error_bind, perform_error hs]
  exact ⟨_, rfl, raise_faultEntered s F _⟩

theorem unsignedInRange_error {p : Scalar} {hi : Nat} {F : FaultKind} :
    unsignedInRange p hi = .error F ↔ hi < p.toNat ∧ F = .operandRange := by
  unfold unsignedInRange
  split <;> simp_all [eq_comm]

/-! ### Signed words (R11, R102, R103) -/

theorem s64_eq_toInt (p : Scalar) : s64 p = p.toInt := by
  rw [s64, BitVec.toInt_eq_toNat_cond]
  split <;> split <;> omega

theorem natAbs_s64_lt (p : Scalar) : (s64 p).natAbs < 2 ^ 127 := (natAbs_s64_le p).trans_lt (by decide)

theorem encz_ne_negativeZero {z : Int} (hz : z.natAbs < 2 ^ 127) : encz z ≠ negativeZero := enc_ne_negativeZero _ _ hz

theorem le_tolongLowest (acceptsMin : Bool) : -2 ^ 63 ≤ tolongLowest acceptsMin := by cases acceptsMin <;> decide

/-- R109 (c): every word but −2^63 is in TOLONG's range, and −2^63 is where the parameter accepts it. -/
theorem tolongLowest_le_s64 {acceptsMin : Bool} {p : Scalar} (h : acceptsMin = true ∨ p.toInt ≠ -2 ^ 63) :
    tolongLowest acceptsMin ≤ s64 p := by
  have hmin := (s64_range p).1
  rw [← s64_eq_toInt] at h
  cases acceptsMin with
  | true => exact hmin
  | false =>
    have hne : s64 p ≠ -2 ^ 63 := h.resolve_left Bool.false_ne_true
    simp only [tolongLowest, Bool.false_eq_true, if_false]
    omega

/-! ### Sign words (R28, R104, R105) -/

theorem val_lt_zero_iff (b : Dec) : val b < 0 ↔ isneg b = true := by
  unfold val isneg
  cases sign b with
  | true => simp [Nat.pos_iff_ne_zero]
  | false => simp

@[simp] theorem toNat_boolWord (p : Bool) : (boolWord p).toNat = if p then 1 else 0 := by cases p <;> rfl

/-- A sign word is the Boolean word of what FROMBIG tests it for. -/
theorem boolWord_toNat_beq_one {p : Scalar} (h : p.toNat ≤ 1) : boolWord (p.toNat == 1) = p := by
  apply BitVec.eq_of_toNat_eq
  rw [toNat_boolWord]
  rcases Nat.le_one_iff_eq_zero_or_eq_one.1 h with hp | hp <;> rw [hp] <;> rfl

theorem isneg_enc (sg : Bool) {m : Nat} (hm : m < 2 ^ 127) : isneg (enc sg m) = (sg && m != 0) := by
  rw [isneg, sign_enc _ _ hm, mag_enc _ _ hm, Bool.and_assoc, Bool.and_self]

/-- R109 (b): the sign TOBIG delivers and the magnitude restore the pattern. -/
theorem enc_isneg_mag {b : Dec} (hb : b ≠ negativeZero) : enc (isneg b) (mag b) = b := by
  refine Eq.trans ?_ (enc_sign_mag hb)
  by_cases hm : mag b = 0
  · rw [hm]; rfl
  · rw [isneg, bne_iff_ne.2 hm, Bool.and_true]

theorem toNat_ofNat_mag (b : Dec) : (BitVec.ofNat 256 (mag b)).toNat = mag b := by
  rw [BitVec.toNat_ofNat, Nat.mod_eq_of_lt ((mag_lt b).trans (by decide))]

/-! ### The two halves of a pattern (R106, R107) -/

theorem toNat_append_scalar (hi lo : Scalar) : (hi ++ lo).toNat = hi.toNat * 2 ^ 64 + lo.toNat := by
  rw [BitVec.toNat_append, ← Nat.shiftLeft_add_eq_or_of_lt lo.isLt, Nat.shiftLeft_eq]

theorem toNat_lowWord (b : Dec) : (b.extractLsb' 0 64).toNat = b.toNat % 2 ^ 64 := by
  rw [BitVec.extractLsb'_toNat, Nat.shiftRight_zero]

theorem toNat_highWord (b : Dec) : (b.extractLsb' 64 64).toNat = b.toNat / 2 ^ 64 := by
  rw [BitVec.extractLsb'_toNat, Nat.shiftRight_eq_div_pow]
  have := b.isLt
  omega

theorem highWord_append_lowWord (b : Dec) : b.extractLsb' 64 64 ++ b.extractLsb' 0 64 = b := by
  apply BitVec.eq_of_toNat_eq
  rw [toNat_append_scalar, toNat_highWord, toNat_lowWord, Nat.div_add_mod']

/-! ### The commands (R100 to R107) -/

section
variable {s : State} (hs : s.err = false)
include hs

theorem exec_zero (dd : DReg) : exec (.zero dd) s = .next (s.setD dd canonicalZero) := perform_ok hs _ _

theorem exec_empty (dd : DReg) : exec (.empty dd) s = .next (s.setD dd canonicalZero) := perform_ok hs _ _

theorem exec_fromlong (dd : DReg) (xs : XReg) : exec (.fromlong dd xs) s = .next (s.setD dd (encz (s64 (s.x xs)))) :=
  perform_ok hs _ _

theorem exec_tolong_of_mem {xd : XReg} {ds : DReg} {b : Dec} (hb : s.dv ds = .ok b)
    (h : tolongLowest s.cfg.tolongAcceptsMin ≤ val b ∧ val b ≤ 2 ^ 63 - 1) :
    exec (.tolong xd ds) s = .next (s.setX xd (u64 (val b))) := by
  rw [exec, execTolong, hb, ok_bind, if_neg (by omega), perform_ok hs]

theorem exec_tolong_of_not_mem {xd : XReg} {ds : DReg} {b : Dec} (hb : s.dv ds = .ok b)
    (h : val b < tolongLowest s.cfg.tolongAcceptsMin ∨ 2 ^ 63 - 1 < val b) :
    exec (.tolong xd ds) s = .next (s.raise .overflow (encode (.tolong xd ds))) := by
  rw [exec, execTolong, hb, ok_bind, if_pos h, perform_error hs]

theorem exec_frombig_of_le {dd : DReg} {ws : WReg} {xsign : XReg} (hsign : (s.x xsign).toNat ≤ 1)
    (hmag : (s.w ws).toNat ≤ maxUnscaled) :
    exec (.frombig dd ws xsign) s = .next (s.setD dd (enc ((s.x xsign).toNat == 1) (s.w ws).toNat)) := by
  rw [exec, execFrombig, unsignedInRange_ok.2 ⟨hsign, rfl⟩, ok_bind, checked_ok.2 ⟨hmag, rfl⟩, ok_bind, perform_ok hs]

theorem exec_frombig_of_one_lt {dd : DReg} {ws : WReg} {xsign : XReg} (hsign : 1 < (s.x xsign).toNat) :
    exec (.frombig dd ws xsign) s = .next (s.raise .operandRange (encode (.frombig dd ws xsign))) := by
  rw [exec, execFrombig, unsignedInRange_error.2 ⟨hsign, rfl⟩, error_bind, perform_error hs]

theorem exec_frombig_of_lt {dd : DReg} {ws : WReg} {xsign : XReg} (hsign : (s.x xsign).toNat ≤ 1)
    (hmag : maxUnscaled < (s.w ws).toNat) :
    exec (.frombig dd ws xsign) s = .next (s.raise .overflow (encode (.frombig dd ws xsign))) := by
  rw [exec, execFrombig, unsignedInRange_ok.2 ⟨hsign, rfl⟩, ok_bind, checked_error.2 ⟨hmag, rfl⟩, error_bind,
    perform_error hs]

theorem exec_tobig {wd : WReg} {xsign : XReg} {ds : DReg} {b : Dec} (hb : s.dv ds = .ok b) :
    exec (.tobig wd xsign ds) s
      = .next ((s.setW wd (BitVec.ofNat 256 (mag b))).setX xsign (boolWord (isneg b))) := by
  rw [exec, execTobig, hb, ok_bind, perform_ok hs]

theorem exec_pack (dd : DReg) (xlo xhi : XReg) :
    exec (.pack dd xlo xhi) s = .next (s.setD dd (s.x xhi ++ s.x xlo)) := perform_ok hs _ _

theorem exec_split {xlo xhi : XReg} (ds : DReg) (hne : xlo ≠ xhi) :
    exec (.split xlo xhi ds) s
      = .next ((s.setX xlo ((s.d ds).extractLsb' 0 64)).setX xhi ((s.d ds).extractLsb' 64 64)) := by
  rw [exec, execSplit, if_neg hne, perform_ok hs]

end

/-! ### One command at a time -/

/-- Settles O23: both commands write canonical zero. -/
theorem zeroAndEmptyWriteCanonicalZero : Obligations.ZeroAndEmptyWriteCanonicalZero := fun dd s hs =>
  ⟨⟨_, exec_zero hs dd, changesOnly_setD s dd _, s.d_setD_self dd _⟩,
    ⟨_, exec_empty hs dd, changesOnly_setD s dd _, s.d_setD_self dd _⟩⟩

/-- Settles O29: sign extension keeps the signed reading. -/
theorem liWritesTheSignExtendedImmediate : Obligations.LiWritesTheSignExtendedImmediate := by
  intro xd imm s hs
  refine ⟨_, exec_li hs xd imm, changesOnly_setX s xd _, ?_⟩
  rw [State.x_setX_self, BitVec.toInt_signExtend_of_le (by decide)]

/-- Settles O24: `encz` of a signed word has that value and is not negative zero. -/
theorem fromlongWritesTheSignedWord : Obligations.FromlongWritesTheSignedWord := by
  intro dd xs s hs
  have hlt := natAbs_s64_lt (s.x xs)
  refine ⟨_, exec_fromlong hs dd xs, changesOnly_setD s dd _, ?_⟩
  rw [State.d_setD_self, ← s64_eq_toInt]
  exact ⟨val_encz _ hlt, encz_ne_negativeZero hlt⟩

/-- Settles O25: inside its range TOLONG writes a word whose signed reading is the value. -/
theorem tolongConvertsOrOverflows : Obligations.TolongConvertsOrOverflows := by
  refine fun xd ds s hs => ⟨fun b hb => ⟨fun h => ?_, fun h => ?_⟩, readFaultsOf_bind hs rfl⟩
  · refine ⟨_, exec_tolong_of_mem hs hb h, changesOnly_setX s xd _, ?_⟩
    rw [State.x_setX_self, ← s64_eq_toInt, s64_u64 _ ⟨(le_tolongLowest _).trans h.1, h.2⟩]
  · exact ⟨_, exec_tolong_of_not_mem hs hb h, raise_faultEntered s _ _⟩

/-- Settles O26, one outcome at a time. -/
theorem frombigEncodesSignAndMagnitude : Obligations.FrombigEncodesSignAndMagnitude := by
  refine fun dd ws xsign s hs => ⟨fun hsign hmag => ?_, fun hsign => ?_, fun hsign hmag => ?_⟩
  · have hlt : (s.w ws).toNat < 2 ^ 127 := hmag.trans_lt (by decide)
    have hone : s.x xsign = 1 ↔ ((s.x xsign).toNat == 1) = true := by
      rw [beq_iff_eq, ← BitVec.toNat_inj]; rfl
    refine ⟨_, exec_frombig_of_le hs hsign hmag, changesOnly_setD s dd _, ?_⟩
    rw [State.d_setD_self, val_enc _ _ hlt]
    exact ⟨by simp only [hone], enc_ne_negativeZero _ _ hlt⟩
  · exact ⟨_, exec_frombig_of_one_lt hs hsign, raise_faultEntered s _ _⟩
  · exact ⟨_, exec_frombig_of_lt hs hsign hmag, raise_faultEntered s _ _⟩

/-- Settles O27: a 127-bit magnitude fits the wide register whole. -/
theorem tobigDeliversSignAndMagnitude : Obligations.TobigDeliversSignAndMagnitude := by
  refine fun wd xsign ds s hs => ⟨fun b hb => ⟨_, exec_tobig hs hb, ?_, ?_, ?_⟩, readFaultsOf_bind hs rfl⟩
  · exact ((ChangesOnly.refl s _ _ _).setW _ (List.mem_singleton_self wd)).setX _ (List.mem_singleton_self xsign)
  · rw [State.w_setX, State.w_setW_self, toNat_ofNat_mag, natAbs_val]
  · simp only [State.x_setX_self, toNat_boolWord, val_lt_zero_iff]

/-! ### Sequences -/

/-- SPLIT then PACK puts the two halves back together. -/
theorem execAll_split_pack {s : State} (hs : s.err = false) {xlo xhi : XReg} (dd ds : DReg) (hne : xlo ≠ xhi) :
    ∃ t, execAll [.split xlo xhi ds, .pack dd xlo xhi] s = .next t ∧ t.d dd = s.d ds := by
  refine ⟨_, (execAll_pair (exec_split hs ds hne)).trans (exec_pack (by simpa using hs) dd xlo xhi), ?_⟩
  rw [State.d_setD_self, State.x_setX_self, State.x_setX, if_neg hne.symm, State.x_setX_self, highWord_append_lowWord]

/-- Settles O28, by the two halves of a pattern. -/
theorem packAndSplitMoveTheHalves : Obligations.PackAndSplitMoveTheHalves := by
  refine fun s hs => ⟨fun dd xlo xhi => ?_, fun xlo xhi ds hne => ?_, fun xlo xhi dd ds hne => ?_⟩
  · refine ⟨_, exec_pack hs dd xlo xhi, changesOnly_setD s dd _, ?_⟩
    rw [State.d_setD_self, toNat_append_scalar]
  · refine ⟨_, exec_split hs ds hne, ((ChangesOnly.refl s _ _ _).setX _ (by simp)).setX _ (by simp), ?_, ?_⟩
    · rw [State.x_setX, if_neg hne.symm, State.x_setX_self, toNat_lowWord]
    · rw [State.x_setX_self, toNat_highWord]
  · exact execAll_split_pack hs dd ds hne

section
variable {s : State} (hs : s.err = false)
include hs

/-- R109 (a): FROMBIG then TOBIG returns magnitude and sign word, a signed zero coming back unsigned. -/
theorem execAll_frombig_tobig (dd : DReg) {ws : WReg} (wd : WReg) {xsign : XReg} (xd : XReg)
    (hsign : (s.x xsign).toNat ≤ 1) (hmag : (s.w ws).toNat ≤ maxUnscaled) :
    ∃ t, execAll [.frombig dd ws xsign, .tobig wd xd dd] s = .next t ∧ t.w wd = s.w ws
      ∧ t.x xd = if (s.w ws).toNat = 0 then 0 else s.x xsign := by
  have hlt : (s.w ws).toNat < 2 ^ 127 := hmag.trans_lt (by decide)
  have hread := s.dv_setD_self dd (enc_ne_negativeZero ((s.x xsign).toNat == 1) _ hlt)
  refine ⟨_, (execAll_pair (exec_frombig_of_le hs hsign hmag)).trans (exec_tobig (by simpa using hs) hread), ?_, ?_⟩
  · rw [State.w_setX, State.w_setW_self, mag_enc _ _ hlt, BitVec.ofNat_toNat, BitVec.setWidth_eq]
  · rw [State.x_setX_self, isneg_enc _ hlt]
    by_cases h0 : (s.w ws).toNat = 0
    · simp [h0, boolWord]
    · rw [bne_iff_ne.2 h0, Bool.and_true, boolWord_toNat_beq_one hsign, if_neg h0]

/-- R109 (b): TOBIG then FROMBIG restores every pattern in range but negative zero. -/
theorem execAll_tobig_frombig (wd : WReg) (xd : XReg) {ds : DReg} (dd : DReg) (hne : s.d ds ≠ negativeZero)
    (hmag : mag (s.d ds) ≤ maxUnscaled) :
    ∃ t, execAll [.tobig wd xd ds, .frombig dd wd xd] s = .next t ∧ t.d dd = s.d ds := by
  have hread : s.dv ds = .ok (s.d ds) := valueRead_of_ne_negativeZero _ hne
  obtain ⟨u, hu, herr, hx, hw⟩ : ∃ u, exec (.tobig wd xd ds) s = .next u ∧ u.err = false
      ∧ (u.x xd).toNat = (if isneg (s.d ds) then 1 else 0) ∧ (u.w wd).toNat = mag (s.d ds) := by
    refine ⟨_, exec_tobig hs hread, hs, ?_, ?_⟩
    · rw [State.x_setX_self, toNat_boolWord]
    · rw [State.w_setX, State.w_setW_self, toNat_ofNat_mag]
  have hsign : (u.x xd).toNat ≤ 1 := by rw [hx]; split <;> decide
  have hisneg : ((u.x xd).toNat == 1) = isneg (s.d ds) := by rw [hx]; cases isneg (s.d ds) <;> rfl
  refine ⟨_, (execAll_pair hu).trans (exec_frombig_of_le herr hsign (hw.trans_le hmag)), ?_⟩
  rw [State.d_setD_self, hisneg, hw, enc_isneg_mag hne]

/-- R109 (c): FROMLONG then TOLONG returns every word, −2^63 where the parameter accepts it. -/
theorem execAll_fromlong_tolong (dd : DReg) {xs : XReg} (xd : XReg)
    (h : s.cfg.tolongAcceptsMin = true ∨ (s.x xs).toInt ≠ -2 ^ 63) :
    ∃ t, execAll [.fromlong dd xs, .tolong xd dd] s = .next t ∧ t.x xd = s.x xs := by
  have hlt := natAbs_s64_lt (s.x xs)
  have hval := val_encz _ hlt
  have hread := s.dv_setD_self dd (encz_ne_negativeZero hlt)
  have hmem : tolongLowest s.cfg.tolongAcceptsMin ≤ val (encz (s64 (s.x xs)))
      ∧ val (encz (s64 (s.x xs))) ≤ 2 ^ 63 - 1 := by
    rw [hval]
    exact ⟨tolongLowest_le_s64 h, (s64_range _).2⟩
  refine ⟨_, (execAll_pair (exec_fromlong hs dd xs)).trans (exec_tolong_of_mem (by simpa using hs) hread hmem), ?_⟩
  rw [State.x_setX_self, hval, u64_s64]

/-- R102, R104: FROMLONG and FROMBIG encode one integer as one pattern. -/
theorem exec_fromlong_d_eq_exec_frombig_d (dd : DReg) {xs xsign : XReg} {ws : WReg}
    (hmag : (s.w ws).toNat = (s64 (s.x xs)).natAbs) (hsign : (s.x xsign).toNat = if s64 (s.x xs) < 0 then 1 else 0) :
    ∃ t u, exec (.fromlong dd xs) s = .next t ∧ exec (.frombig dd ws xsign) s = .next u ∧ t.d dd = u.d dd := by
  have hle : (s.w ws).toNat ≤ maxUnscaled := hmag.trans_le (natAbs_s64_le _)
  have hsign1 : (s.x xsign).toNat ≤ 1 := by rw [hsign]; split <;> decide
  have hneg : ((s.x xsign).toNat == 1) = decide (s64 (s.x xs) < 0) := by rw [hsign]; split <;> simp_all
  refine ⟨_, _, exec_fromlong hs dd xs, exec_frombig_of_le hs hsign1 hle, ?_⟩
  rw [State.d_setD_self, State.d_setD_self, hneg, hmag, encz]

end

/-- Settles O50, one round trip at a time. -/
theorem codecRoundTrips : Obligations.CodecRoundTrips := by
  refine fun s hs => ⟨fun dd ws wd xsign xd => ?_, fun wd xd ds dd hne hmag => ?_, fun dd xs xd => ?_,
    fun dd xs xsign ws hmag hsign => ?_⟩
  · exact execAll_frombig_tobig hs dd wd xd
  · exact execAll_tobig_frombig hs wd xd dd hne (natAbs_val _ ▸ hmag)
  · exact execAll_fromlong_tolong hs dd xd
  · rw [← s64_eq_toInt] at hmag hsign
    exact exec_fromlong_d_eq_exec_frombig_d hs dd hmag hsign

end Sys2Proof.Machine
end

section
/-! PROOFS. The shift commands (spec/41_shift.md R120 to R124): their arithmetic as plain powers of two, what a limb of
a wide register reads, one equation per command and outcome, and the statements. -/

namespace Sys2Proof.Machine

/-! ### The shifted magnitudes and the shifted pattern (R120, R121, R122) -/

/-- R120: a nonzero magnitude shifted by 127 or more is out of range, so the guard only spares forming the power. -/
theorem shiftedMag_eq_checked (m n : Nat) : shiftedMag m n = checked (m * 2 ^ n) := by
  unfold shiftedMag
  split
  · next h0 => rw [h0, Nat.zero_mul]; rfl
  · next h0 =>
    split
    · next hn =>
      have hpow : 2 ^ 127 ≤ 2 ^ n := Nat.pow_le_pow_right (by decide) hn
      have hlt : maxUnscaled < 2 ^ n := lt_of_lt_of_le (by decide) hpow
      have hle : 2 ^ n ≤ m * 2 ^ n := Nat.le_mul_of_pos_left _ (Nat.pos_of_ne_zero h0)
      exact (checked_error.2 ⟨hlt.trans_le hle, rfl⟩).symm
    · rfl

theorem natAbs_val_mul_two_pow (b : Dec) (n : Nat) : (val b * 2 ^ n).natAbs = mag b * 2 ^ n := by
  rw [Int.natAbs_mul, natAbs_val, Int.natAbs_pow]; rfl

/-- R120: the sign is preserved, so scaling the magnitude scales the integer. -/
theorem val_enc_sign_mul {b : Dec} {k : Nat} (h : mag b * k < 2 ^ 127) :
    val (enc (sign b) (mag b * k)) = val b * k := by
  rw [val_enc _ _ h, val]
  cases sign b <;> simp

/-- R121: a count of 128 or more leaves a multiple of 2^128. -/
theorem toNat_patternShifted (b : Dec) (n : Nat) : (patternShifted b n).toNat = b.toNat * 2 ^ n % 2 ^ 128 := by
  unfold patternShifted
  split
  · next hn => exact (Nat.mod_eq_zero_of_dvd ((pow_dvd_pow 2 hn).mul_left _)).symm
  · exact BitVec.toNat_ofNat _ _

/-- R122: at a count of 127 or more a 127-bit magnitude is lost whole, as its division by the power says. -/
theorem stickyShifted_eq {m : Nat} (roundUp : Bool) (n : Nat) (hm : m < 2 ^ 127) :
    stickyShifted roundUp m n = if roundUp && m % 2 ^ n != 0 then m / 2 ^ n + 1 else m / 2 ^ n := by
  unfold stickyShifted
  by_cases hn : 127 ≤ n
  · have hlt : m < 2 ^ n := hm.trans_le (Nat.pow_le_pow_right (by decide) hn)
    simp only [ge_iff_le, hn, if_true, Nat.div_eq_of_lt hlt, Nat.mod_eq_of_lt hlt]
  · simp only [ge_iff_le, hn, if_false]

theorem add_pred_div_eq_ite (m : Nat) {k : Nat} (hk : 0 < k) :
    (m + (k - 1)) / k = if m % k ≠ 0 then m / k + 1 else m / k := by
  have hpred : k - 1 < k := Nat.sub_lt hk Nat.one_pos
  rw [Nat.add_div hk, Nat.div_eq_of_lt hpred, Nat.mod_eq_of_lt hpred, Nat.add_zero]
  split <;> split <;> omega

/-- R122: sticky rounding is the ceiling. -/
theorem stickyShifted_eq_ceil_or_floor {m : Nat} (roundUp : Bool) (n : Nat) (hm : m < 2 ^ 127) :
    stickyShifted roundUp m n = if roundUp then (m + (2 ^ n - 1)) / 2 ^ n else m / 2 ^ n := by
  rw [stickyShifted_eq roundUp n hm]
  cases roundUp with
  | true => simp only [Bool.true_and, bne_iff_ne, if_true, add_pred_div_eq_ite m (Nat.two_pow_pos n)]
  | false => rfl

/-- R122: a magnitude written with the sign of `b` never has the opposite sign. -/
theorem val_enc_sign_mul_val_nonneg (b : Dec) {m : Nat} (hm : m < 2 ^ 127) : 0 ≤ val (enc (sign b) m) * val b := by
  rw [val_enc _ _ hm, val]
  cases sign b with
  | true => exact mul_nonneg_of_nonpos_of_nonpos (by simp) (by simp)
  | false => exact mul_nonneg (by simp) (by simp)

/-! ### Limbs of a wide register (R29, R123, R124) -/

theorem toNat_limb (v : Wide) (j : Nat) : (limb v j).toNat = v.toNat / 2 ^ (32 * j) % 2 ^ 32 := by
  rw [limb, BitVec.extractLsb'_toNat, Nat.shiftRight_eq_div_pow]

/-- A wide register whose limbs below `c` are replaced by the number `L`: its limbs, one by one. -/
theorem toNat_limb_replaceLow (v : Wide) {c L j : Nat} (hL : L < 2 ^ (32 * c)) (hj : j < 8) :
    (limb (BitVec.ofNat 256 (v.toNat / 2 ^ (32 * c) * 2 ^ (32 * c) + L)) j).toNat
      = if j < c then L / 2 ^ (32 * j) % 2 ^ 32 else (limb v j).toNat := by
  rw [toNat_limb, toNat_limb, BitVec.toNat_ofNat, Nat.mul_comm, ← apply_ite (· / 2 ^ (32 * j) % 2 ^ 32)]
  apply Nat.eq_of_testBit_eq
  intro i
  simp only [Nat.testBit_mod_two_pow, Nat.testBit_div_two_pow, Nat.testBit_two_pow_mul_add _ hL]
  by_cases hi : i < 32
  · have hbit : i + 32 * j < 256 := by omega
    by_cases hjc : j < c
    · have hlow : i + 32 * j < 32 * c := by omega
      simp [hi, hbit, hlow, hjc]
    · have hhigh : ¬ i + 32 * j < 32 * c := by omega
      have hback : i + 32 * j - 32 * c + 32 * c = i + 32 * j := by omega
      simp [hi, hbit, hhigh, hjc, hback]
  · simp [hi]

/-- R123: the limbs a left shift adds have room for the bits it adds. -/
theorem mod_mul_two_pow_lt (u len n : Nat) : u % 2 ^ (32 * len) * 2 ^ n < 2 ^ (32 * (len + limbsFor n)) := by
  have hn : n ≤ 32 * limbsFor n := by unfold limbsFor; omega
  calc u % 2 ^ (32 * len) * 2 ^ n
      < 2 ^ (32 * len) * 2 ^ n := Nat.mul_lt_mul_of_pos_right (Nat.mod_lt _ (Nat.two_pow_pos _)) (Nat.two_pow_pos n)
    _ ≤ 2 ^ (32 * len) * 2 ^ (32 * limbsFor n) := Nat.mul_le_mul_left _ (Nat.pow_le_pow_right (by decide) hn)
    _ = 2 ^ (32 * (len + limbsFor n)) := by rw [← Nat.pow_add, Nat.mul_add]

theorem toNat_limb_limbsShiftedLeft (v : Wide) (len n : Nat) {j : Nat} (hj : j < 8) :
    (limb (limbsShiftedLeft v len n) j).toNat
      = if j < len + limbsFor n then v.toNat % 2 ^ (32 * len) * 2 ^ n / 2 ^ (32 * j) % 2 ^ 32
        else (limb v j).toNat :=
  toNat_limb_replaceLow v (mod_mul_two_pow_lt _ _ _) hj

/-- R124: a count that reaches past the used limbs leaves nothing of them, as the division says. -/
theorem limbsShiftedRight_eq (v : Wide) (len n : Nat) :
    limbsShiftedRight v len n
      = BitVec.ofNat 256 (v.toNat / 2 ^ (32 * len) * 2 ^ (32 * len) + v.toNat % 2 ^ (32 * len) / 2 ^ n) := by
  unfold limbsShiftedRight
  split
  · next hn =>
    have hlt : v.toNat % 2 ^ (32 * len) < 2 ^ n :=
      (Nat.mod_lt _ (Nat.two_pow_pos _)).trans_le (Nat.pow_le_pow_right (by decide) hn)
    rw [Nat.div_eq_of_lt hlt]
  · rfl

theorem toNat_limb_limbsShiftedRight (v : Wide) (len n : Nat) {j : Nat} (hj : j < 8) :
    (limb (limbsShiftedRight v len n) j).toNat
      = if j < len then v.toNat % 2 ^ (32 * len) / 2 ^ n / 2 ^ (32 * j) % 2 ^ 32 else (limb v j).toNat := by
  rw [limbsShiftedRight_eq]
  exact toNat_limb_replaceLow v ((Nat.div_le_self _ _).trans_lt (Nat.mod_lt _ (Nat.two_pow_pos _))) hj

/-! ### The commands (R120, R121, R123, R124) -/

section
variable {s : State} (hs : s.err = false)
include hs

theorem exec_shld_of_le {dd : DReg} {xn : XReg} {b : Dec} (hb : s.dv dd = .ok b)
    (h : mag b * 2 ^ (s.x xn).toNat ≤ maxUnscaled) :
    exec (.shld dd xn) s = .next (s.setD dd (enc (sign b) (mag b * 2 ^ (s.x xn).toNat))) := by
  rw [exec, execShld, hb, ok_bind, shiftedMag_eq_checked, checked_ok.2 ⟨h, rfl⟩, ok_bind, perform_ok hs]

theorem exec_shld_of_lt {dd : DReg} {xn : XReg} {b : Dec} (hb : s.dv dd = .ok b)
    (h : maxUnscaled < mag b * 2 ^ (s.x xn).toNat) :
    exec (.shld dd xn) s = .next (s.raise .overflow (encode (.shld dd xn))) := by
  rw [exec, execShld, hb, ok_bind, shiftedMag_eq_checked, checked_error.2 ⟨h, rfl⟩, error_bind, perform_error hs]

theorem exec_shlp (dd ds : DReg) (xn : XReg) :
    exec (.shlp dd ds xn) s = .next (s.setD dd (patternShifted (s.d ds) (s.x xn).toNat)) := perform_ok hs _ _

theorem exec_shlmp_of_le (wd : WReg) (xnew : XReg) {xlen xn : XReg}
    (h : (s.x xlen).toNat + limbsFor (s.x xn).toNat ≤ 8) :
    exec (.shlmp wd xnew xlen xn) s
      = .next ((s.setW wd (limbsShiftedLeft (s.w wd) (s.x xlen).toNat (s.x xn).toNat)).setX xnew
          (BitVec.ofNat 64 ((s.x xlen).toNat + limbsFor (s.x xn).toNat))) := by
  have hlen : (s.x xlen).toNat ≤ 8 := (Nat.le_add_right _ _).trans h
  rw [exec, execShlmp, unsignedInRange_ok.2 ⟨hlen, rfl⟩, ok_bind, if_neg h.not_gt, perform_ok hs]

/-- R123: a length above 8 and a result above 8 limbs raise the same fault. -/
theorem exec_shlmp_of_lt (wd : WReg) (xnew : XReg) {xlen xn : XReg}
    (h : 8 < (s.x xlen).toNat + limbsFor (s.x xn).toNat) :
    exec (.shlmp wd xnew xlen xn) s = .next (s.raise .operandRange (encode (.shlmp wd xnew xlen xn))) := by
  rw [exec, execShlmp]
  by_cases hlen : (s.x xlen).toNat ≤ 8
  · rw [unsignedInRange_ok.2 ⟨hlen, rfl⟩, ok_bind, if_pos h, perform_error hs]
  · rw [unsignedInRange_error.2 ⟨Nat.lt_of_not_le hlen, rfl⟩, error_bind, perform_error hs]

theorem exec_shrmp_of_le (wd : WReg) {xlen : XReg} (xn : XReg) (h : (s.x xlen).toNat ≤ 8) :
    exec (.shrmp wd xlen xn) s
      = .next (s.setW wd (limbsShiftedRight (s.w wd) (s.x xlen).toNat (s.x xn).toNat)) := by
  rw [exec, execShrmp, unsignedInRange_ok.2 ⟨h, rfl⟩, ok_bind, perform_ok hs]

theorem exec_shrmp_of_lt (wd : WReg) {xlen : XReg} (xn : XReg) (h : 8 < (s.x xlen).toNat) :
    exec (.shrmp wd xlen xn) s = .next (s.raise .operandRange (encode (.shrmp wd xlen xn))) := by
  rw [exec, execShrmp, unsignedInRange_error.2 ⟨h, rfl⟩, error_bind, perform_error hs]

end

/-! ### The statements -/

/-- Settles O30: the guarded shift is the checked product, whose sign is the source's. -/
theorem shldMultipliesByAPowerOfTwo : Obligations.ShldMultipliesByAPowerOfTwo := by
  refine fun dd xn s hs => ⟨fun b hb => ⟨fun h => ?_, fun h => ?_⟩, readFaultsOf_bind hs rfl⟩
  · rw [natAbs_val_mul_two_pow] at h
    have hlt : mag b * 2 ^ (s.x xn).toNat < 2 ^ 127 := h.trans_lt (by decide)
    refine ⟨_, exec_shld_of_le hs hb h, changesOnly_setD s dd _, ?_⟩
    rw [State.d_setD_self, val_enc_sign_mul hlt, Nat.cast_pow]
    exact ⟨rfl, enc_ne_negativeZero _ _ hlt⟩
  · rw [natAbs_val_mul_two_pow] at h
    exact ⟨_, exec_shld_of_lt hs hb h, raise_faultEntered s _ _⟩

/-- Settles O31: SHLP writes the shifted pattern. -/
theorem shlpShiftsTheWholePattern : Obligations.ShlpShiftsTheWholePattern := by
  refine fun dd ds xn s hs => ⟨_, exec_shlp hs dd ds xn, changesOnly_setD s dd _, ?_⟩
  rw [State.d_setD_self, toNat_patternShifted]

/-- Settles O32: sticky rounding is the ceiling, and the result keeps within 127 bits. -/
theorem shrFloorsOrCeilsTheMagnitude : Obligations.ShrFloorsOrCeilsTheMagnitude := by
  refine fun roundUp dd ds xn s hs => ⟨fun b hb => ?_, readFaultsOf_bind hs rfl⟩
  have hlt : stickyShifted roundUp (mag b) (s.x xn).toNat < 2 ^ 127 :=
    (stickyShifted_le roundUp (mag_lt b) _).trans_lt (by decide)
  refine ⟨_, exec_shr roundUp hs hb, changesOnly_setD s dd _, ?_⟩
  rw [State.d_setD_self]
  refine ⟨enc_ne_negativeZero _ _ hlt, ?_, val_enc_sign_mul_val_nonneg b hlt⟩
  rw [natAbs_val, natAbs_val, mag_enc _ _ hlt, stickyShifted_eq_ceil_or_floor _ _ (mag_lt b)]

/-- Settles O33, by the limbs of the shifted register. -/
theorem shlmpShiftsTheUsedLimbsLeft : Obligations.ShlmpShiftsTheUsedLimbsLeft := by
  refine fun wd xnew xlen xn s hs => ⟨fun h => ?_, fun h => ?_⟩
  · refine ⟨_, exec_shlmp_of_le hs wd xnew h, ?_, ?_, fun j hj => ?_⟩
    · exact ((ChangesOnly.refl s _ _ _).setW _ (List.mem_singleton_self wd)).setX _ (List.mem_singleton_self xnew)
    · rw [State.x_setX_self, BitVec.toNat_ofNat]
      exact Nat.mod_eq_of_lt (h.trans_lt (by decide))
    · rw [State.w_setX, State.w_setW_self]
      exact toNat_limb_limbsShiftedLeft _ _ _ hj
  · exact ⟨_, exec_shlmp_of_lt hs wd xnew h, raise_faultEntered s _ _⟩

/-- Settles O34, by the limbs of the shifted register. -/
theorem shrmpShiftsTheUsedLimbsRight : Obligations.ShrmpShiftsTheUsedLimbsRight := by
  refine fun wd xlen xn s hs => ⟨fun h => ?_, fun h => ?_⟩
  · refine ⟨_, exec_shrmp_of_le hs wd xn h, ?_, fun j hj => ?_⟩
    · exact (ChangesOnly.refl s _ _ _).setW _ (List.mem_singleton_self wd)
    · rw [State.w_setW_self]
      exact toNat_limb_limbsShiftedRight _ _ _ hj
  · exact ⟨_, exec_shrmp_of_lt hs wd xn h, raise_faultEntered s _ _⟩

end Sys2Proof.Machine
end

section
/-! PROOFS. The additive commands (spec/42_additive.md R140 to R145) and the two-half adder (R146): the rules of a
two-source read and of the wrapped sum, one equation per command, and the adder's output as the exact sum. -/

namespace Sys2Proof.Machine

/-! ### Faults of a two-source read (R13, R23) -/

theorem valueRead_error {p : NegzeroPolicy} {b : Dec} {F : FaultKind} (h : valueRead p b = .error F) :
    F = .operandRange := by
  rcases valueRead_cases p b with ⟨-, -, -, hv⟩ | ⟨-, -, -, hv⟩ | ⟨-, hv⟩ <;> rw [hv] at h <;> cases h
  rfl

/-- A command whose meaning begins with the value reads of its two sources enters the fault of either read: a read has
only one fault, so it does not matter which source is at fault first. -/
theorem readFaultsOf_bind_bind {i : Instr} {q r : DReg} {s : State} {f : Dec → Dec → Except FaultKind State}
    (hs : s.err = false) (h : exec i s = perform i s (s.dv q >>= fun a => s.dv r >>= f a)) :
    ReadFaultsOf i [q, r] s := by
  have hfault : ∀ F, (s.dv q >>= fun a => s.dv r >>= f a) = .error F →
      ∃ t, exec i s = .next t ∧ FaultEntered s t F (encode i) := fun F hF =>
    ⟨_, by rw [h, hF, perform_error hs], raise_faultEntered s F _⟩
  intro r' hr' F hF
  apply hfault F
  rcases List.mem_pair.1 hr' with rfl | rfl
  · rw [hF, error_bind]
  · cases hq : s.dv q with
    | ok a => rw [ok_bind, hF, error_bind]
    | error G => rw [error_bind, valueRead_error hq, valueRead_error hF]

/-! ### Answers as words (R28, R143) -/

theorem val_eq_zero_iff (b : Dec) : val b = 0 ↔ mag b = 0 := by rw [← natAbs_val, Int.natAbs_eq_zero]

theorem toInt_orderWord (x y : Int) : (orderWord x y).toInt = (x - y).sign := by
  unfold orderWord
  rcases lt_trichotomy x y with h | h | h
  · rw [if_pos h, Int.sign_eq_neg_one_of_neg (by omega)]; rfl
  · rw [if_neg h.not_lt, if_pos h, h, Int.sub_self]; rfl
  · rw [if_neg h.not_gt, if_neg h.ne', Int.sign_eq_one_of_pos (by omega)]; rfl

/-! ### Sign and magnitude as an integer (R12) -/

/-- The integer of a sign and a magnitude, as a pattern, the delta of ADDO and the adder's output each give them. -/
def signedInt (sg : Bool) (m : Nat) : Int := if sg then -(m : Int) else m

theorem val_eq_signedInt (b : Dec) : val b = signedInt (sign b) (mag b) := rfl

theorem val_enc_eq_signedInt (sg : Bool) {m : Nat} (hm : m < 2 ^ 127) : val (enc sg m) = signedInt sg m :=
  val_enc sg m hm

theorem signedInt_natAbs (z : Int) : signedInt (decide (z < 0)) z.natAbs = z := by
  unfold signedInt
  simp only [decide_eq_true_eq]
  split <;> omega

theorem natAbs_signedInt (sg : Bool) (m : Nat) : (signedInt sg m).natAbs = m := by
  cases sg <;> simp [signedInt]

theorem signedInt_tdiv (sg : Bool) (m n : Nat) : (signedInt sg m).tdiv n = signedInt sg (m / n) := by
  cases sg with
  | true => exact Int.neg_tdiv ..
  | false => rfl

theorem signedInt_tmod (sg : Bool) (m n : Nat) : (signedInt sg m).tmod n = signedInt sg (m % n) := by
  cases sg with
  | true => exact Int.neg_tmod ..
  | false => rfl

theorem signedInt_mul_nonneg (sg : Bool) (m n : Nat) : 0 ≤ signedInt sg m * signedInt sg n := by
  cases sg <;> simp [signedInt] <;> positivity

/-! ### The sum wrapped at 2^127 (R141)

The two results of ADDO are the truncated division of the sum by 2^127: out is the remainder, delta the quotient. -/

theorem natAbs_val_add_val_lt (a b : Dec) : (val a + val b).natAbs < 2 ^ 128 := by
  have ha := natAbs_val_lt a
  have hb := natAbs_val_lt b
  omega

theorem mod_two_pow_127_lt (m : Nat) : m % 2 ^ 127 < 2 ^ 127 := Nat.mod_lt _ (by decide)

theorem val_enc_mod (sg : Bool) (m : Nat) : val (enc sg (m % 2 ^ 127)) = (signedInt sg m).tmod (2 ^ 127) :=
  (val_enc_eq_signedInt sg (mod_two_pow_127_lt m)).trans (signedInt_tmod sg m (2 ^ 127)).symm

theorem deltaWord_div (sg : Bool) (m : Nat) : deltaWord sg (m / 2 ^ 127) = u64 ((signedInt sg m).tdiv (2 ^ 127)) :=
  congrArg u64 (signedInt_tdiv sg m (2 ^ 127)).symm

theorem natAbs_tdiv_two_pow (z : Int) : (z.tdiv (2 ^ 127)).natAbs = z.natAbs / 2 ^ 127 := Int.natAbs_tdiv z _

theorem toInt_u64_tdiv {z : Int} (hz : z.natAbs < 2 ^ 128) : (u64 (z.tdiv (2 ^ 127))).toInt = z.tdiv (2 ^ 127) := by
  have h := natAbs_tdiv_two_pow z
  rw [← s64_eq_toInt, s64_u64 _ (by omega)]

/-- The remainder has the sign of the sum. -/
theorem tmod_mul_self_nonneg (z : Int) (n : Nat) : 0 ≤ z.tmod n * z := by
  rw [← signedInt_natAbs z, signedInt_tmod]
  exact signedInt_mul_nonneg _ _ _

/-! ### The commands (R141, R143 to R145) -/

section
variable {s : State} (hs : s.err = false)
include hs

theorem exec_addo (dd : DReg) (xdelta : XReg) {da db : DReg} {a b : Dec} (ha : s.dv da = .ok a) (hb : s.dv db = .ok b) :
    exec (.addo dd xdelta da db) s
      = .next ((s.setD dd (enc (decide (val a + val b < 0)) ((val a + val b).natAbs % 2 ^ 127))).setX xdelta
          (u64 ((val a + val b).tdiv (2 ^ 127)))) := by
  rw [exec, execAddo, ha, ok_bind, hb, ok_bind, perform_ok hs, deltaWord_div, signedInt_natAbs]

theorem exec_cmp (xd : XReg) {da db : DReg} {a b : Dec} (ha : s.dv da = .ok a) (hb : s.dv db = .ok b) :
    exec (.cmp xd da db) s = .next (s.setX xd (orderWord (val a) (val b))) := by
  rw [exec, execCmp, ha, ok_bind, hb, ok_bind, perform_ok hs]

theorem exec_isneg (xd : XReg) {ds : DReg} {b : Dec} (hb : s.dv ds = .ok b) :
    exec (.isneg xd ds) s = .next (s.setX xd (boolWord (isneg b))) := by
  rw [exec, execIsneg, hb, ok_bind, perform_ok hs]

theorem exec_iszero (xd : XReg) {ds : DReg} {b : Dec} (hb : s.dv ds = .ok b) :
    exec (.iszero xd ds) s = .next (s.setX xd (boolWord (mag b == 0))) := by
  rw [exec, execIszero, hb, ok_bind, perform_ok hs]

end

/-! ### The commands' statements -/

/-- Settles O35: the check is on the exact sum, which `encz` then writes. -/
theorem addWritesTheExactSumOrOverflows : Obligations.AddWritesTheExactSumOrOverflows := by
  refine fun dd da db s hs => ⟨fun a b ha hb => ⟨fun h => ?_, fun h => ?_⟩, readFaultsOf_bind_bind hs rfl⟩
  · have hlt : (val a + val b).natAbs < 2 ^ 127 := h.trans_lt (by decide)
    refine ⟨_, exec_add_of_le hs ha hb h, changesOnly_setD s dd _, ?_⟩
    rw [State.d_setD_self]
    exact ⟨val_encz _ hlt, encz_ne_negativeZero hlt⟩
  · exact ⟨_, exec_add_of_lt hs ha hb h, raise_faultEntered s _ _⟩

/-- Settles O36: out and delta are the remainder and the quotient of the truncated division of the sum by 2^127. -/
theorem addoReportsTheCarryAsADelta : Obligations.AddoReportsTheCarryAsADelta := by
  refine fun dd xdelta da db s hs => ⟨fun a b ha hb => ⟨_, exec_addo hs dd xdelta ha hb, ?_, ?_⟩,
    readFaultsOf_bind_bind hs rfl⟩
  · exact ((ChangesOnly.refl s _ _ _).setD _ (List.mem_singleton_self dd)).setX _ (List.mem_singleton_self xdelta)
  · have hlt := natAbs_val_add_val_lt a b
    have hquot := natAbs_tdiv_two_pow (val a + val b)
    rw [State.d_setX, State.d_setD_self, State.x_setX_self, val_enc_mod, signedInt_natAbs,
      toInt_u64_tdiv hlt]
    exact ⟨enc_ne_negativeZero _ _ (mod_two_pow_127_lt _), Int.tmod_add_tdiv_mul _ _, by omega, by omega,
      tmod_mul_self_nonneg _ (2 ^ 127)⟩

/-- Settles O37: toggling the sign negates the integer, and `enc` clears the sign of zero. -/
theorem negNegatesTheValue : Obligations.NegNegatesTheValue := by
  refine fun dd ds s hs => ⟨fun b hb => ⟨_, exec_neg hs hb, changesOnly_setD s dd _, ?_⟩, readFaultsOf_bind hs rfl⟩
  rw [State.d_setD_self]
  exact ⟨val_enc_not_sign b, enc_ne_negativeZero _ _ (mag_lt b)⟩

/-- Settles O38: the word of the order is the sign of the difference. -/
theorem cmpOrdersByValue : Obligations.CmpOrdersByValue := by
  refine fun xd da db s hs => ⟨fun a b ha hb => ⟨_, exec_cmp hs xd ha hb, changesOnly_setX s xd _, ?_⟩,
    readFaultsOf_bind_bind hs rfl⟩
  rw [State.x_setX_self, toInt_orderWord]

/-- Settles O39: `isneg` and a zero magnitude are tests of the value. -/
theorem isnegAndIszeroAnswerWithAWord : Obligations.IsnegAndIszeroAnswerWithAWord := by
  refine fun xd ds s hs => ⟨fun b hb => ⟨⟨_, exec_isneg hs xd hb, changesOnly_setX s xd _, ?_⟩,
    ⟨_, exec_iszero hs xd hb, changesOnly_setX s xd _, ?_⟩⟩, readFaultsOf_bind hs rfl, readFaultsOf_bind hs rfl⟩
  · simp only [State.x_setX_self, toNat_boolWord, val_lt_zero_iff]
  · simp only [State.x_setX_self, toNat_boolWord, val_eq_zero_iff, beq_iff_eq]

/-! ### The adder on two halves (R146) -/

theorem lowHalf_lt (b : Dec) : lowHalf b < 2 ^ 64 := Nat.mod_lt _ (by decide)

theorem mag_eq_halves (b : Dec) : mag b = highHalf b * 2 ^ 64 + lowHalf b := by
  unfold mag highHalf lowHalf
  omega

/-- R146, same sign: the carry between the halves makes this the sum of the whole magnitudes. -/
theorem addHalves_eq (a b : Dec) :
    addHalves a b = ⟨sign a, (mag a + mag b) % 2 ^ 127, (mag a + mag b) / 2 ^ 127⟩ := by
  rw [addHalves, AdderResult.mk.injEq, mag_eq_halves, mag_eq_halves]
  have ha := lowHalf_lt a
  have hb := lowHalf_lt b
  exact ⟨rfl, by omega, by omega⟩

/-- R146, opposite signs: the borrow between the halves makes this the difference of the whole magnitudes. -/
theorem subHalves_eq {big small : Dec} (h : mag small ≤ mag big) :
    subHalves big small = ⟨sign big, (mag big - mag small) % 2 ^ 127, (mag big - mag small) / 2 ^ 127⟩ := by
  have hlt := mag_lt big
  have hmag := mag_eq_halves big
  have hmag' := mag_eq_halves small
  have hlow := lowHalf_lt big
  have hlow' := lowHalf_lt small
  rw [subHalves, AdderResult.mk.injEq]
  refine ⟨rfl, ?_, by omega⟩
  split <;> omega

theorem val_add_val_of_sign_eq {a b : Dec} (h : sign a = sign b) :
    val a + val b = signedInt (sign a) (mag a + mag b) := by
  rw [val_eq_signedInt, val_eq_signedInt, ← h]
  cases sign a <;> simp only [signedInt, Bool.false_eq_true, if_true, if_false] <;> omega

theorem val_add_val_of_sign_ne {big small : Dec} (h : sign big ≠ sign small) (hle : mag small ≤ mag big) :
    val big + val small = signedInt (sign big) (mag big - mag small) := by
  rw [val_eq_signedInt, val_eq_signedInt, Bool.eq_not_of_ne h.symm]
  cases sign big <;> simp [signedInt] <;> omega

/-- The adder's output is the sign and the magnitude of the exact sum, cut at bit 127. Of a zero sum the sign is either
one. -/
theorem adder_eq_exactSum (a b : Dec) :
    ∃ sg m, adder a b = ⟨sg, m % 2 ^ 127, m / 2 ^ 127⟩ ∧ signedInt sg m = val a + val b := by
  unfold adder
  split
  case isTrue heq => exact ⟨_, _, addHalves_eq a b, (val_add_val_of_sign_eq heq).symm⟩
  case isFalse hne =>
    split
    case isTrue hle => exact ⟨_, _, subHalves_eq hle, (val_add_val_of_sign_ne hne hle).symm⟩
    case isFalse hnle =>
      have hle := (Nat.lt_of_not_le hnle).le
      exact ⟨_, _, subHalves_eq hle, (val_add_val_of_sign_ne (Ne.symm hne) hle).symm.trans (Int.add_comm _ _)⟩

/-- R146: the carry and the check on 127 bits together test the whole magnitude. -/
theorem adderAdd_eq (a b : Dec) :
    adderAdd a b = if (val a + val b).natAbs ≤ maxUnscaled then .ok (encz (val a + val b)) else .error .overflow := by
  obtain ⟨sg, m, hadder, hsum⟩ := adder_eq_exactSum a b
  have hm := natAbs_val_add_val_lt a b
  rw [← hsum, natAbs_signedInt] at hm
  rw [adderAdd, hadder, ← hsum, natAbs_signedInt]
  have hfit : (m / 2 ^ 127 = 1 ∨ m % 2 ^ 127 > maxUnscaled) ↔ ¬m ≤ maxUnscaled := by
    unfold maxUnscaled
    omega
  simp only [hfit, ite_not]
  split
  · next hle =>
    have hlt : m < 2 ^ 127 := hle.trans_lt (by decide)
    have hz : (signedInt sg m).natAbs < 2 ^ 127 := (natAbs_signedInt sg m).trans_lt hlt
    have hval : val (enc sg m) = val (encz (signedInt sg m)) := by rw [val_enc_eq_signedInt sg hlt, val_encz _ hz]
    rw [Nat.mod_eq_of_lt hlt, val_injective (enc_ne_negativeZero sg m hlt) (encz_ne_negativeZero hz) hval]
  · rfl

theorem adderAddo_eq (a b : Dec) :
    adderAddo a b = (enc (decide (val a + val b < 0)) ((val a + val b).natAbs % 2 ^ 127),
      u64 ((val a + val b).tdiv (2 ^ 127))) := by
  obtain ⟨sg, m, hadder, hsum⟩ := adder_eq_exactSum a b
  rw [adderAddo, hadder, ← hsum, deltaWord_div, Prod.mk.injEq]
  refine ⟨val_injective (enc_ne_negativeZero _ _ (mod_two_pow_127_lt _))
    (enc_ne_negativeZero _ _ (mod_two_pow_127_lt _)) ?_, rfl⟩
  rw [val_enc_mod, val_enc_mod, signedInt_natAbs]

/-- Settles O57: the adder's output is the exact sum, which determines both commands' results. -/
theorem adderDeliversTheContracts : Obligations.AdderDeliversTheContracts :=
  fun a b _ _ => ⟨adderAdd_eq a b, adderAddo_eq a b⟩

end Sys2Proof.Machine
end

section
/-! PROOFS. The multiplicative commands (spec/43_multiplicative.md R160 to R162): MUL and MULL are one checked product
of two signed magnitudes, MUL256 the product of two naturals that fits the wide register. -/

namespace Sys2Proof.Machine

/-! ### Products of signed magnitudes (R160, R161) -/

theorem signedInt_mul (sx sy : Bool) (m n : Nat) : signedInt sx m * signedInt sy n = signedInt (sx ^^ sy) (m * n) := by
  cases sx <;> cases sy <;> simp [signedInt]

theorem val_mul_val (a b : Dec) : val a * val b = signedInt (sign a ^^ sign b) (mag a * mag b) :=
  signedInt_mul _ _ _ _

theorem val_mul_toInt (a : Dec) (p : Scalar) :
    val a * p.toInt = signedInt (sign a ^^ decide (s64 p < 0)) (mag a * (s64 p).natAbs) := by
  rw [← signedInt_mul, signedInt_natAbs, s64_eq_toInt, ← val_eq_signedInt]

/-- R160: a command that checks a magnitude and then writes it under a sign delivers the integer they stand for, or
raises Overflow. -/
theorem exec_checked_write {i : Instr} {s : State} {dd : DReg} {sg : Bool} {m : Nat} {z : Int} (hs : s.err = false)
    (hexec : exec i s = perform i s (checked m >>= fun p => .ok (s.setD dd (enc sg p)))) (hz : z = signedInt sg m) :
    (z.natAbs ≤ maxUnscaled →
      ∃ t, exec i s = .next t ∧ ChangesOnly s t [dd] [] [] ∧ val (t.d dd) = z ∧ t.d dd ≠ negativeZero)
    ∧ (maxUnscaled < z.natAbs → ∃ t, exec i s = .next t ∧ FaultEntered s t .overflow (encode i)) := by
  rw [hexec, hz, natAbs_signedInt]
  refine ⟨fun hle => ?_, fun hlt => ?_⟩
  · have hm : m < 2 ^ 127 := hle.trans_lt (by decide)
    rw [checked_ok.2 ⟨hle, rfl⟩, ok_bind, perform_ok hs]
    refine ⟨_, rfl, changesOnly_setD s dd _, ?_⟩
    rw [State.d_setD_self]
    exact ⟨val_enc_eq_signedInt sg hm, enc_ne_negativeZero _ _ hm⟩
  · rw [checked_error.2 ⟨hlt, rfl⟩, error_bind, perform_error hs]
    exact ⟨_, rfl, raise_faultEntered s _ _⟩

/-! ### The commands' statements -/

/-- Settles O40: the product of the magnitudes under the XOR of the signs is the product of the values. -/
theorem mulWritesTheExactProductOrOverflows : Obligations.MulWritesTheExactProductOrOverflows := by
  refine fun dd da db s hs => ⟨fun a b ha hb => ?_, readFaultsOf_bind_bind hs rfl⟩
  refine exec_checked_write hs ?_ (val_mul_val a b)
  rw [exec, execMul, ha, ok_bind, hb, ok_bind]

/-- Settles O41: the signed word enters with its own sign and magnitude. -/
theorem mullMultipliesByASignedWord : Obligations.MullMultipliesByASignedWord := by
  refine fun dd da xk s hs => ⟨fun a ha => ?_, readFaultsOf_bind hs rfl⟩
  refine exec_checked_write hs ?_ (val_mul_toInt a (s.x xk))
  rw [exec, execMull, ha, ok_bind]

/-- Settles O42: the product of two 128-bit naturals fits the register whole. -/
theorem mul256WritesTheWideProduct : Obligations.Mul256WritesTheWideProduct := by
  refine fun wd db s hs => ⟨_, perform_ok hs _ _, ?_, ?_⟩
  · exact (ChangesOnly.refl s _ _ _).setW _ (List.mem_singleton_self wd)
  · have hleft : (s.w wd).toNat % 2 ^ 128 < 2 ^ 128 := Nat.mod_lt _ (by decide)
    have hfit : (s.w wd).toNat % 2 ^ 128 * (s.d db).toNat < 2 ^ 256 :=
      (Nat.mul_lt_mul'' hleft (s.d db).isLt).trans_le (by decide)
    rw [State.w_setW_self, BitVec.toNat_ofNat, Nat.mod_eq_of_lt hfit]

end Sys2Proof.Machine
end

section
/-! PROOFS. The limb multiplier (spec/43_multiplicative.md R163): the invariant of its passes, the array they leave,
and MUL's check on the limbs of the product (R160). -/

namespace Sys2Proof.Machine

/-! ### The passes (R163) -/

/-- R163, the loop invariant: once the passes for the limbs from i up are done, the limbs below i are still the left
operand's, and the limbs from i up hold its limbs from there times the right operand. -/
structure PassesDone (left r : List Nat) (i : Nat) (l : List Nat) : Prop where
  length_eq : l.length = 8
  limb_lt : ∀ x ∈ l, x < limbBase
  low_kept : l.take i = left.take i
  high_product : fromLimbs (l.drop i) = fromLimbs (left.drop i) * fromLimbs r

section
variable {left r : List Nat} (hleft : ∀ x ∈ left, x < limbBase) (hr : ∀ x ∈ r, x < limbBase) (hrl : r.length = 4)
include hleft

theorem passesDone_start (r : List Nat) (hl : left.length = 4) : PassesDone left r 4 (left ++ [0, 0, 0, 0]) where
  length_eq := by rw [List.length_append, hl]; rfl
  limb_lt x hx := by
    rcases List.mem_append.1 hx with hx | hx
    · exact hleft x hx
    · rw [List.eq_of_mem_replicate (n := 4) hx]
      exact limbBase_pos
  low_kept := by rw [List.take_left' hl, List.take_of_length_le hl.le]
  high_product := by rw [List.drop_left' hl, List.drop_of_length_le hl.le]; simp

include hr hrl

/-- The product of the limbs of left from i up with right has room above position i. -/
theorem fromLimbs_drop_mul_lt {i : Nat} (hl : left.length = 4) (hi : i < 4) :
    fromLimbs (left.drop i) * fromLimbs r < limbBase ^ (8 - i) := by
  have hhigh := fromLimbs_lt fun x hx => hleft x (List.mem_of_mem_drop (i := i) hx)
  have hright := fromLimbs_lt hr
  rw [List.length_drop, hl] at hhigh
  rw [hrl] at hright
  calc fromLimbs (left.drop i) * fromLimbs r < limbBase ^ (4 - i) * limbBase ^ 4 := Nat.mul_lt_mul'' hhigh hright
    _ = limbBase ^ (8 - i) := by rw [← pow_add]; congr 1; omega

/-- R163: the pass for limb i takes the invariant from i + 1 to i. -/
theorem PassesDone.pass {i : Nat} {l : List Nat} (h : PassesDone left r (i + 1) l) (hl : left.length = 4) (hi : i < 4) :
    PassesDone left r i (multiplyPass r l i) := by
  obtain ⟨hlen, hlimb, hlow, hhigh⟩ := h
  obtain ⟨plen, plimb, plow, phigh⟩ := multiplyPass_spec r hlimb (i := i) (by omega) (by omega)
  have hget : l.getD i 0 = left.getD i 0 := by
    have hopt := congrArg (·[i]?) hlow
    simp only [List.getElem?_take_of_lt (Nat.lt_succ_self i)] at hopt
    rw [List.getD_eq_getElem?_getD, List.getD_eq_getElem?_getD, hopt]
  have hsplit : fromLimbs (left.drop i) = left.getD i 0 + limbBase * fromLimbs (left.drop (i + 1)) := by
    rw [List.drop_eq_getElem_cons (by omega), fromLimbs_cons, List.getD_eq_getElem _ _ (by omega)]
  refine ⟨plen.trans hlen, plimb, ?_, ?_⟩
  · rw [plow]
    simpa [List.take_take] using congrArg (List.take i) hlow
  · have hsum : left.getD i 0 * fromLimbs r + limbBase * (fromLimbs (left.drop (i + 1)) * fromLimbs r)
        = fromLimbs (left.drop i) * fromLimbs r := by rw [hsplit]; ring
    rw [phigh, hlen, hget, hhigh, hsum, Nat.mod_eq_of_lt (fromLimbs_drop_mul_lt hleft hr hrl hl hi)]

end

theorem limbMultiply_passesDone {l r : List Nat} (hl : ∀ x ∈ l, x < limbBase) (hr : ∀ x ∈ r, x < limbBase)
    (hll : 4 ≤ l.length) (hrl : r.length = 4) : PassesDone (l.take 4) r 0 (limbMultiply l r) := by
  have hleft : ∀ x ∈ l.take 4, x < limbBase := fun x hx => hl x (List.mem_of_mem_take hx)
  have hlen : (l.take 4).length = 4 := by rw [List.length_take, Nat.min_eq_left hll]
  have h3 := (passesDone_start hleft r hlen).pass hleft hr hrl hlen (by decide : 3 < 4)
  have h2 := h3.pass hleft hr hrl hlen (by decide : 2 < 4)
  have h1 := h2.pass hleft hr hrl hlen (by decide : 1 < 4)
  exact h1.pass hleft hr hrl hlen (by decide : 0 < 4)

/-! ### The product (R162, R163) -/

theorem mul_lt_limbBase_pow_eight {m k : Nat} (hm : m < limbBase ^ 4) (hk : k < limbBase ^ 4) : m * k < limbBase ^ 8 :=
  (Nat.mul_lt_mul'' hm hk).trans_eq (Nat.pow_add limbBase 4 4).symm

/-- R163: the passes leave the limbs of the product of limbs 0..3 of the left number and the right one. -/
theorem limbMultiply_toLimbs (m k : Nat) :
    limbMultiply (toLimbs 8 m) (toLimbs 4 k) = toLimbs 8 (m % limbBase ^ 4 * (k % limbBase ^ 4)) := by
  obtain ⟨hlen, hlimb, -, hprod⟩ := limbMultiply_passesDone (toLimbs_lt 8 m) (toLimbs_lt 4 k) (by simp) (by simp)
  rw [List.drop_zero, List.drop_zero, take_toLimbs _ _ _ (by decide), fromLimbs_toLimbs, fromLimbs_toLimbs] at hprod
  have hpos : 0 < limbBase ^ 4 := by decide
  have hfit := mul_lt_limbBase_pow_eight (Nat.mod_lt m hpos) (Nat.mod_lt k hpos)
  refine fromLimbs_injective hlimb (toLimbs_lt _ _) (by rw [hlen, length_toLimbs]) ?_
  rw [hprod, fromLimbs_toLimbs_of_lt hfit]

/-- R163 on operands of four limbs each. -/
theorem limbMultiply_toLimbs_of_lt {m k : Nat} (hm : m < limbBase ^ 4) (hk : k < limbBase ^ 4) :
    limbMultiply (toLimbs 8 m) (toLimbs 4 k) = toLimbs 8 (m * k) := by
  rw [limbMultiply_toLimbs, Nat.mod_eq_of_lt hm, Nat.mod_eq_of_lt hk]

/-- Settles O58: the passes leave the limbs of the product, which eight limbs hold whole. -/
theorem limbMultiplierIsExact : Obligations.LimbMultiplierIsExact := by
  intro v r
  have hr : r.toNat < limbBase ^ 4 := r.isLt
  have hleft : v.toNat % limbBase ^ 4 < limbBase ^ 4 := Nat.mod_lt _ (by decide)
  simp only [limbMultiply_toLimbs, Nat.mod_eq_of_lt hr]
  exact ⟨fromLimbs_toLimbs_of_lt (mul_lt_limbBase_pow_eight hleft hr), length_toLimbs _ _, toLimbs_lt _ _⟩

/-! ### MUL's check on the limbs (R160) -/

theorem any_ne_zero_iff (xs : List Nat) : xs.any (· != 0) = true ↔ fromLimbs xs ≠ 0 := by
  have hB : limbBase ≠ 0 := limbBase_pos.ne'
  induction xs with
  | nil => simp
  | cons x xs ih =>
    simp only [List.any_cons, Bool.or_eq_true, bne_iff_ne, ih, fromLimbs_cons, ne_eq, Nat.add_eq_zero_iff,
      Nat.mul_eq_zero, hB, false_or, not_and_or]

theorem checked_eq_ite (m : Nat) : checked m = if m ≤ maxUnscaled then .ok m else .error .overflow := by
  simp only [checked, gt_iff_lt, ← not_le, ite_not]

/-- R160: limbs 4..7 are 0 and the low four at most MAX_UNSCALED exactly when the whole product is. -/
theorem limbProduct_eq_checked {m k : Nat} (hm : m < limbBase ^ 4) (hk : k < limbBase ^ 4) :
    limbProduct m k = checked (m * k) := by
  have hfit : m * k < limbBase ^ 4 * limbBase ^ 4 := Nat.mul_lt_mul'' hm hk
  have hhigh : fromLimbs ((toLimbs 8 (m * k)).drop 4) = m * k / limbBase ^ 4 := by
    rw [drop_toLimbs _ _ _ (by decide), fromLimbs_toLimbs_of_lt (Nat.div_lt_of_lt_mul hfit)]
  have hlow : fromLimbs ((toLimbs 8 (m * k)).take 4) = m * k % limbBase ^ 4 := by
    rw [take_toLimbs _ _ _ (by decide), fromLimbs_toLimbs]
  have hover : (m * k / limbBase ^ 4 ≠ 0 ∨ m * k % limbBase ^ 4 > maxUnscaled) ↔ m * k > maxUnscaled := by
    generalize m * k = p
    unfold limbBase maxUnscaled
    omega
  simp only [limbProduct, limbMultiply_toLimbs_of_lt hm hk, any_ne_zero_iff, hhigh, hlow, hover, checked]
  split
  · rfl
  · next hle =>
    have hlt : m * k < limbBase ^ 4 := (Nat.le_of_not_lt hle).trans_lt (by decide)
    rw [Nat.mod_eq_of_lt hlt]

end Sys2Proof.Machine
end

section
/-! PROOFS. The limb divider's three paths (spec/44_division.md R183 to R185) as one exact division, and the datapaths of
MUL, DIV and RESCALE (spec/43_multiplicative.md R160, spec/44_division.md R182, spec/45_rescale_range.md R200). -/

namespace Sys2Proof.Machine

/-! ### The divider (R183 to R185) -/

/-- A number that its low k limbs can hold is in them. -/
theorem fromLimbs_take_of_lt {l : List Nat} {k : Nat} (hk : k ≤ l.length) (h : fromLimbs l < limbBase ^ k) :
    fromLimbs (l.take k) = fromLimbs l := by
  have hsplit := fromLimbs_take_drop l k hk
  have hhigh : fromLimbs (l.drop k) = 0 := by
    by_contra h0
    have := Nat.le_mul_of_pos_right (limbBase ^ k) (Nat.pos_of_ne_zero h0)
    omega
  rw [hsplit, hhigh, Nat.mul_zero, Nat.add_zero]

theorem significantLimbs_eq_zero_iff {xs : List Nat} (h : ∀ x ∈ xs, x < limbBase) :
    significantLimbs xs = 0 ↔ fromLimbs xs = 0 := by
  obtain ⟨-, hlt, hle⟩ := significantLimbs_spec h
  constructor
  · intro h0
    rw [h0, Nat.pow_zero] at hlt
    omega
  · intro h0
    by_contra hne
    have hpos := Nat.pow_pos (n := significantLimbs xs - 1) limbBase_pos
    have := hle hne
    omega

/-- R183: the single-limb pass over the dividend's significant limbs. -/
theorem divideByLimb_eq {v0 : Nat} (hv : v0 ≠ 0) (us : List Nat) :
    fromLimbs (divideByLimb v0 us).1 = fromLimbs us / v0 ∧ (divideByLimb v0 us).2 = fromLimbs us % v0 := by
  obtain ⟨hsum, hrem⟩ := divideByLimb_spec hv us
  rw [Nat.add_comm, Nat.mul_comm] at hsum
  obtain ⟨hq, hr⟩ := (Nat.div_mod_unique (Nat.pos_of_ne_zero hv)).2 ⟨hsum.symm, hrem⟩
  exact ⟨hq.symm, hr.symm⟩

/-- R183: the lowest limb is all of a number of one significant limb. -/
theorem getD_zero_of_lt {v : List Nat} (h : fromLimbs v < limbBase) : v.getD 0 0 = fromLimbs v := by
  cases v with
  | nil => rfl
  | cons x xs =>
    rw [fromLimbs_cons] at h ⊢
    have h0 : fromLimbs xs = 0 := by
      by_contra h0
      have := Nat.le_mul_of_pos_right limbBase (Nat.pos_of_ne_zero h0)
      omega
    rw [h0, List.getD_cons_zero, Nat.mul_zero, Nat.add_zero]

/-- R183 to R185: each of the divider's three paths gives the exact quotient and remainder. -/
theorem limbDivide_eq {u v : List Nat} (hl : u.length = v.length) (hu : ∀ x ∈ u, x < limbBase)
    (hv : ∀ x ∈ v, x < limbBase) (h0 : fromLimbs v ≠ 0) :
    limbDivide u v = (fromLimbs u / fromLimbs v, fromLimbs u % fromLimbs v) := by
  obtain ⟨huL, huB, -⟩ := significantLimbs_spec hu
  obtain ⟨hvn, hvB, hvtop⟩ := significantLimbs_spec hv
  have hn0 : significantLimbs v ≠ 0 := mt (significantLimbs_eq_zero_iff hv).1 h0
  have hvle := hvtop hn0
  unfold limbDivide
  by_cases hbelow : limbsBelow u v = true
  case pos =>
    have hlt := (limbsBelow_iff hl hu hv).1 hbelow
    rw [if_pos hbelow, Nat.div_eq_of_lt hlt, Nat.mod_eq_of_lt hlt]
  case neg =>
    have hge : fromLimbs v ≤ fromLimbs u := Nat.le_of_not_lt (mt (limbsBelow_iff hl hu hv).2 hbelow)
    rw [if_neg hbelow]
    by_cases hone : significantLimbs v = 1
    case pos =>
      rw [hone, Nat.pow_one] at hvB
      obtain ⟨hq, hr⟩ := divideByLimb_eq h0 (u.take (significantLimbs u))
      rw [fromLimbs_take_of_lt huL huB] at hq hr
      rw [if_pos hone, getD_zero_of_lt hvB]
      exact Prod.ext hq hr
    case neg =>
      have hnL : significantLimbs v - 1 < significantLimbs u :=
        (Nat.pow_lt_pow_iff_right (by decide)).1 ((hvle.trans hge).trans_lt huB)
      rw [if_neg hone]
      exact divideGeneral_spec (by omega) (by omega) huB hv hvn hvB hvle

theorem limbDivide_toLimbs {n U V : Nat} (hU : U < limbBase ^ n) (hV : V < limbBase ^ n) (h0 : V ≠ 0) :
    limbDivide (toLimbs n U) (toLimbs n V) = (U / V, U % V) := by
  have hUn := fromLimbs_toLimbs_of_lt hU
  have hVn := fromLimbs_toLimbs_of_lt hV
  have heq := limbDivide_eq (by simp) (toLimbs_lt n U) (toLimbs_lt n V) (by rwa [hVn])
  rwa [hUn, hVn] at heq

/-! ### DIV (R180, R182) -/

theorem pow10_lt {e : Nat} (he : e ≤ 38) : pow10 e < limbBase ^ 4 :=
  (Nat.pow_le_pow_right (by decide) he).trans_lt (by decide)

section
variable {m e : Nat} (hm : m < 2 ^ 127) (he : e ≤ 38)
include hm

theorem lt_limbBase_pow_four : m < limbBase ^ 4 := hm.trans (by decide)

include he

/-- R182: a rescaled operand is its exact product in eight limbs. -/
theorem rescaledLimbs_eq : rescaledLimbs m e = toLimbs 8 (m * 10 ^ e) :=
  limbMultiply_toLimbs_of_lt (lt_limbBase_pow_four hm) (pow10_lt he)

theorem mul_ten_pow_lt : m * 10 ^ e < limbBase ^ 8 :=
  mul_lt_limbBase_pow_eight (lt_limbBase_pow_four hm) (pow10_lt he)

end

/-- R182 to R185: the divider on the rescaled operands, with DIV's two checks. -/
theorem datapathDivide_eq {ma ea mb eb : Nat} (hma : ma < 2 ^ 127) (hmb : mb < 2 ^ 127) (hea : ea ≤ 38) (heb : eb ≤ 38) :
    datapathDivide ma ea mb eb = divideMags (ma * 10 ^ ea) (mb * 10 ^ eb) := by
  have hU := mul_ten_pow_lt hma hea
  have hV := mul_ten_pow_lt hmb heb
  simp only [datapathDivide, rescaledLimbs_eq hma hea, rescaledLimbs_eq hmb heb,
    significantLimbs_eq_zero_iff (toLimbs_lt _ _), fromLimbs_toLimbs_of_lt hV, divideMags]
  split
  · rfl
  · next h0 => rw [limbDivide_toLimbs hU hV h0]

/-! ### RESCALE (R200) -/

theorem scaledUp_eq_checked {m e : Nat} (he : e ≤ 38) : scaledUp m e = checked (m * pow10 e) := by
  unfold scaledUp
  split
  · next h0 => rw [h0, Nat.zero_mul]; rfl
  · rw [if_neg he.not_gt]

/-- R200, R204 (b): the comparison of twice the remainder with the divisor rounds to the nearest, half up. -/
theorem half_up_div (m : Nat) {d : Nat} (hd : 0 < d) :
    (if 2 * (m % d) ≥ d then m / d + 1 else m / d) = (2 * m + d) / (2 * d) := by
  have hdm := Nat.div_add_mod m d
  have hr := Nat.mod_lt m hd
  generalize m / d = q at *
  generalize m % d = r at *
  have hsum : 2 * m + d = 2 * r + d + 2 * d * q := by rw [← hdm]; ring
  rw [hsum, Nat.add_mul_div_left _ _ (by omega)]
  split
  · next hup => rw [Nat.div_eq_of_lt_le (k := 1) (by omega) (by omega), Nat.add_comm]
  · next hdown => rw [Nat.div_eq_of_lt (by omega), Nat.zero_add]

theorem datapathScaleDown_eq {m k : Nat} (hm : m < 2 ^ 127) (hk : k ≤ 38) :
    datapathScaleDown m k = (2 * m + 10 ^ k) / (2 * 10 ^ k) := by
  have hd : 0 < pow10 k := Nat.pow_pos (by decide)
  have hdiv := limbDivide_toLimbs (n := 8) (hm.trans (by decide)) ((pow10_lt hk).trans (by decide)) hd.ne'
  rw [datapathScaleDown, hdiv]
  exact half_up_div m hd

/-- Settles O60, one datapath at a time. -/
theorem datapathsDeliverTheContracts : Obligations.DatapathsDeliverTheContracts := by
  refine ⟨fun m k hm hk => ?_, fun ma ea mb eb hma hmb hea heb => datapathDivide_eq hma hmb hea heb,
    fun m e hm _ he => ?_, fun m k hm _ hk => datapathScaleDown_eq hm hk⟩
  · rw [limbProduct_eq_checked (lt_limbBase_pow_four hm) (lt_limbBase_pow_four hk), checked_eq_ite, maxUnscaled_eq]
  · rw [datapathScaleUp, limbProduct_eq_checked (lt_limbBase_pow_four hm) (pow10_lt he), scaledUp_eq_checked he]

end Sys2Proof.Machine
end

section
/-! PROOFS. The division command (spec/44_division.md R180, R181): truncated division of signed magnitudes, one equation
per outcome of the command, the laws that determine quotient and remainder; and the divider on eight limbs (R186). -/

namespace Sys2Proof.Machine

/-! ### Truncated division of signed magnitudes (R180) -/

theorem signedInt_not (sg : Bool) (m : Nat) : signedInt (!sg) m = -signedInt sg m := by
  cases sg <;> simp [signedInt]

/-- "Quotient sign is the XOR of operand signs." -/
theorem signedInt_tdiv_signedInt (sx sy : Bool) (m n : Nat) :
    (signedInt sx m).tdiv (signedInt sy n) = signedInt (sx ^^ sy) (m / n) := by
  cases sy with
  | true => rw [Bool.xor_true, signedInt_not, ← signedInt_tdiv]; exact Int.tdiv_neg _ _
  | false => rw [Bool.xor_false]; exact signedInt_tdiv sx m n

/-- "The remainder takes the dividend's sign." -/
theorem signedInt_tmod_signedInt (sx sy : Bool) (m n : Nat) :
    (signedInt sx m).tmod (signedInt sy n) = signedInt sx (m % n) := by
  rw [← signedInt_tmod]
  cases sy with
  | true => exact Int.tmod_neg _ _
  | false => rfl

/-- R180: rescaling an operand scales its magnitude and keeps its sign. -/
theorem val_mul_ten_pow (b : Dec) (e : Nat) : val b * 10 ^ e = signedInt (sign b) (mag b * 10 ^ e) := by
  rw [val_eq_signedInt]
  cases sign b <;> simp [signedInt]

/-- R180: "since 10^eb ≠ 0 the rescaled divisor is zero exactly when the divisor is". -/
theorem mag_mul_ten_pow_eq_zero_iff (b : Dec) (e : Nat) : mag b * 10 ^ e = 0 ↔ val b = 0 := by
  rw [val_eq_zero_iff, Nat.mul_eq_zero, or_iff_left (Nat.pow_pos (by decide)).ne']

/-! ### The outcomes of the magnitudes' division (R180) -/

theorem divideMags_zero (U : Nat) : divideMags U 0 = .error .divisionByZero := rfl

theorem divideMags_of_lt {U V : Nat} (hV : V ≠ 0) (hq : U / V < 10 ^ 38) (hr : U % V < 10 ^ 38) :
    divideMags U V = .ok (U / V, U % V) := by
  rw [divideMags, if_neg hV, if_neg (not_or.2 ⟨hq.not_ge, hr.not_ge⟩)]

theorem divideMags_of_le {U V : Nat} (hV : V ≠ 0) (h : 10 ^ 38 ≤ U / V ∨ 10 ^ 38 ≤ U % V) :
    divideMags U V = .error .overflow := by
  rw [divideMags, if_neg hV, if_pos h]

/-! ### The rescale amounts (R28, R180) -/

theorem signedInRange_of_mem {p : Scalar} {hi : Nat} (h : 0 ≤ p.toInt ∧ p.toInt ≤ hi) :
    signedInRange p 0 hi = .ok p.toInt.toNat := by
  rw [signedInRange_ok, s64_eq_toInt]
  exact ⟨h.1, h.2, (Int.toNat_of_nonneg h.1).symm⟩

theorem signedInRange_of_not_mem {p : Scalar} {hi : Nat} (h : ¬(0 ≤ p.toInt ∧ p.toInt ≤ hi)) :
    signedInRange p 0 hi = .error .operandRange := by
  rw [signedInRange, s64_eq_toInt, if_pos (by omega)]

/-! ### The command (R180) -/

section
variable {dq dr da db : DReg} {xa xb : XReg} {s : State} {a b : Dec}
  (hs : s.err = false) (hne : dq ≠ dr) (ha : s.dv da = .ok a) (hb : s.dv db = .ok b)
include hne ha hb

/-- R180: past the checks of both rescale amounts, DIV is the division of the rescaled magnitudes. -/
theorem exec_div_eq_perform
    (hin : 0 ≤ (s.x xa).toInt ∧ (s.x xa).toInt ≤ 38 ∧ 0 ≤ (s.x xb).toInt ∧ (s.x xb).toInt ≤ 38) :
    exec (.div dq dr da xa db xb) s = perform (.div dq dr da xa db xb) s
      (divideMags (mag a * 10 ^ (s.x xa).toInt.toNat) (mag b * 10 ^ (s.x xb).toInt.toNat) >>= fun qr =>
        .ok ((s.setD dq (enc (sign a ^^ sign b) qr.1)).setD dr (enc (sign a) qr.2))) := by
  obtain ⟨ha0, ha38, heb⟩ := hin
  rw [exec, execDiv, if_neg hne, ha, ok_bind, hb, ok_bind, signedInRange_of_mem ⟨ha0, ha38⟩, ok_bind,
    signedInRange_of_mem heb, ok_bind]
  rfl

include hs

/-- R180: either rescale amount out of range is OperandRange, whatever the divisor. -/
theorem exec_div_of_not_mem
    (h : ¬(0 ≤ (s.x xa).toInt ∧ (s.x xa).toInt ≤ 38 ∧ 0 ≤ (s.x xb).toInt ∧ (s.x xb).toInt ≤ 38)) :
    exec (.div dq dr da xa db xb) s = .next (s.raise .operandRange (encode (.div dq dr da xa db xb))) := by
  rw [exec, execDiv, if_neg hne, ha, ok_bind, hb, ok_bind]
  by_cases hea : 0 ≤ (s.x xa).toInt ∧ (s.x xa).toInt ≤ 38
  · have heb : ¬(0 ≤ (s.x xb).toInt ∧ (s.x xb).toInt ≤ 38) := fun heb => h ⟨hea.1, hea.2, heb⟩
    rw [signedInRange_of_mem hea, ok_bind, signedInRange_of_not_mem heb, error_bind, perform_error hs]
  · rw [signedInRange_of_not_mem hea, error_bind, perform_error hs]

variable (hin : 0 ≤ (s.x xa).toInt ∧ (s.x xa).toInt ≤ 38 ∧ 0 ≤ (s.x xb).toInt ∧ (s.x xb).toInt ≤ 38)
  {U V : Nat} (hU : mag a * 10 ^ (s.x xa).toInt.toNat = U) (hV : mag b * 10 ^ (s.x xb).toInt.toNat = V)
include hin hU hV

theorem exec_div_of_lt (h0 : V ≠ 0) (hQ : U / V < 10 ^ 38) (hR : U % V < 10 ^ 38) :
    exec (.div dq dr da xa db xb) s
      = .next ((s.setD dq (enc (sign a ^^ sign b) (U / V))).setD dr (enc (sign a) (U % V))) := by
  rw [exec_div_eq_perform hne ha hb hin, hU, hV, divideMags_of_lt h0 hQ hR, ok_bind, perform_ok hs]

theorem exec_div_of_eq_zero (h0 : V = 0) :
    exec (.div dq dr da xa db xb) s = .next (s.raise .divisionByZero (encode (.div dq dr da xa db xb))) := by
  rw [exec_div_eq_perform hne ha hb hin, hU, hV, h0, divideMags_zero, error_bind, perform_error hs]

theorem exec_div_of_le (h0 : V ≠ 0) (h : 10 ^ 38 ≤ U / V ∨ 10 ^ 38 ≤ U % V) :
    exec (.div dq dr da xa db xb) s = .next (s.raise .overflow (encode (.div dq dr da xa db xb))) := by
  rw [exec_div_eq_perform hne ha hb hin, hU, hV, divideMags_of_le h0 h, error_bind, perform_error hs]

end

/-- R180: what is left in two destinations written one after the other, each by a sign and a magnitude below 10^38. -/
theorem setD_enc_setD_enc_spec (s : State) {dq dr : DReg} (hne : dq ≠ dr) (sq sr : Bool) {Q R : Nat}
    (hQ : Q < 10 ^ 38) (hR : R < 10 ^ 38) :
    let t := (s.setD dq (enc sq Q)).setD dr (enc sr R)
    ChangesOnly s t [dq, dr] [] [] ∧ val (t.d dq) = signedInt sq Q ∧ t.d dq ≠ negativeZero
      ∧ val (t.d dr) = signedInt sr R ∧ t.d dr ≠ negativeZero := by
  have hQ' : Q < 2 ^ 127 := hQ.trans (by decide)
  have hR' : R < 2 ^ 127 := hR.trans (by decide)
  refine ⟨((ChangesOnly.refl s _ _ _).setD _ (by simp)).setD _ (by simp), ?_⟩
  rw [State.d_setD_self, State.d_setD, if_neg hne.symm, State.d_setD_self]
  exact ⟨val_enc_eq_signedInt sq hQ', enc_ne_negativeZero _ _ hQ', val_enc_eq_signedInt sr hR',
    enc_ne_negativeZero _ _ hR'⟩

/-- Settles O43, one outcome at a time: the magnitudes of the truncated quotient and remainder are those of the
division of the rescaled magnitudes. -/
theorem divWritesQuotientAndRemainder : Obligations.DivWritesQuotientAndRemainder := by
  refine fun dq dr da xa db xb s hne hs => ⟨fun a b ha hb => ?_, ?_⟩
  · have hzero := mag_mul_ten_pow_eq_zero_iff b (s.x xb).toInt.toNat
    dsimp only
    rw [val_mul_ten_pow, val_mul_ten_pow, signedInt_tdiv_signedInt, signedInt_tmod_signedInt, natAbs_signedInt,
      natAbs_signedInt]
    refine ⟨fun hin hb0 hQ hR => ?_, fun hout => ?_, fun hin hb0 => ?_, fun hin hb0 hbig => ?_⟩
    · exact ⟨_, exec_div_of_lt hs hne ha hb hin rfl rfl (mt hzero.1 hb0) hQ hR,
        setD_enc_setD_enc_spec s hne _ _ hQ hR⟩
    · exact ⟨_, exec_div_of_not_mem hs hne ha hb hout, raise_faultEntered s _ _⟩
    · exact ⟨_, exec_div_of_eq_zero hs hne ha hb hin rfl rfl (hzero.2 hb0), raise_faultEntered s _ _⟩
    · exact ⟨_, exec_div_of_le hs hne ha hb hin rfl rfl (mt hzero.1 hb0) hbig, raise_faultEntered s _ _⟩
  · exact readFaultsOf_bind_bind hs (congrArg (perform _ s) (if_neg hne))

/-! ### The laws of a DIV that completes (R181) -/

theorem not_faultEntered_of_err_eq_false {i : Instr} {s t : State} {F : FaultKind} (h : exec i s = .next t)
    (ht : t.err = false) : ¬∃ u, exec i s = .next u ∧ FaultEntered s u F (encode i) := by
  rintro ⟨u, hu, herr, -⟩
  obtain rfl : t = u := Host.Outcome.next.inj (h.symm.trans hu)
  exact Bool.false_ne_true (ht.symm.trans herr)

/-- R180, R181: a DIV that completes had a nonzero divisor and wrote the truncated quotient and remainder, both in
range: every other operand ends in a fault. -/
theorem div_of_completes {dq dr da db : DReg} {xa xb : XReg} {s t : State} {a b : Dec} (hne : dq ≠ dr)
    (hs : s.err = false) (ha : s.dv da = .ok a) (hb : s.dv db = .ok b)
    (h : exec (.div dq dr da xa db xb) s = .next t) (ht : t.err = false) :
    val b ≠ 0 ∧ val (t.d dq) = (val a * 10 ^ (s.x xa).toInt.toNat).tdiv (val b * 10 ^ (s.x xb).toInt.toNat)
      ∧ val (t.d dr) = (val a * 10 ^ (s.x xa).toInt.toNat).tmod (val b * 10 ^ (s.x xb).toInt.toNat)
      ∧ (val (t.d dq)).natAbs < 10 ^ 38 ∧ (val (t.d dr)).natAbs < 10 ^ 38 := by
  obtain ⟨hok, hrange, hzero, hover⟩ := (divWritesQuotientAndRemainder dq dr da xa db xb s hne hs).1 a b ha hb
  have noFault : ∀ {F}, ¬∃ u, exec (.div dq dr da xa db xb) s = .next u ∧ FaultEntered s u F _ :=
    not_faultEntered_of_err_eq_false h ht
  have hin := not_not.1 (mt hrange noFault)
  have hb0 := mt (hzero hin) noFault
  obtain ⟨hQ, hR⟩ := not_or.1 (mt (hover hin hb0) noFault)
  rw [Nat.not_le] at hQ hR
  obtain ⟨u, hu, -, hq, -, hr, -⟩ := hok hin hb0 hQ hR
  obtain rfl : t = u := Host.Outcome.next.inj (h.symm.trans hu)
  exact ⟨hb0, hq, hr, hq ▸ hQ, hr ▸ hR⟩

theorem tmod_eq_zero_or_sign_eq (A B : Int) : A.tmod B = 0 ∨ (A.tmod B).sign = A.sign := by
  by_cases h : B ∣ A
  · exact .inl (Int.tmod_eq_zero_of_dvd h)
  · exact .inr (by rw [Int.sign_tmod, if_neg h])

theorem tdiv_eq_zero_or_sign_eq (A B : Int) : A.tdiv B = 0 ∨ (A.tdiv B).sign = (A * B).sign := by
  by_cases h : A.natAbs < B.natAbs
  · exact .inl (Int.sign_eq_zero_iff_zero.1 (by rw [Int.sign_tdiv, if_pos h]))
  · exact .inr (by rw [Int.sign_tdiv, if_neg h, Int.sign_mul])

/-- R181: "truncated division is the only quotient and remainder meeting (a) to (c)". -/
theorem tdiv_tmod_unique_of_sign {A B q r : Int} (hsum : A = q * B + r) (hlt : r.natAbs < B.natAbs)
    (hsign : r = 0 ∨ r.sign = A.sign) : q = A.tdiv B ∧ r = A.tmod B := by
  have hB : B ≠ 0 := by rintro rfl; exact Nat.not_lt_zero _ hlt
  have hsum' : r + B * q = A := by rw [hsum]; ring
  rcases Int.le_total 0 A with hA | hA
  · have hr : 0 ≤ r := hsign.elim Eq.ge fun h => Int.sign_nonneg_iff.1 (h ▸ Int.sign_nonneg_iff.2 hA)
    obtain ⟨hq, hm⟩ := (Int.tdiv_tmod_unique hA hB).2 ⟨hsum', hr, by omega⟩
    exact ⟨hq.symm, hm.symm⟩
  · have hr : r ≤ 0 := hsign.elim Eq.le fun h => Int.sign_nonpos_iff.1 (h ▸ Int.sign_nonpos_iff.2 hA)
    obtain ⟨hq, hm⟩ := (Int.tdiv_tmod_unique' hA hB).2 ⟨hsum', by omega, hr⟩
    exact ⟨hq.symm, hm.symm⟩

/-- Settles O44: the outputs are the truncated quotient and remainder, which have the laws and alone have (a) to (c). -/
theorem divObeysItsLaws : Obligations.DivObeysItsLaws := by
  intro dq dr da xa db xb s t a b hne hs ha hb h ht
  obtain ⟨hb0, hq, hr, hqB, hrB⟩ := div_of_completes hne hs ha hb h ht
  have hB : val b * 10 ^ (s.x xb).toInt.toNat ≠ 0 := mul_ne_zero hb0 (pow_ne_zero _ (by decide))
  dsimp only
  rw [hq] at hqB ⊢
  rw [hr] at hrB ⊢
  generalize val a * 10 ^ (s.x xa).toInt.toNat = A at *
  generalize val b * 10 ^ (s.x xb).toInt.toNat = B at *
  refine ⟨(Int.tdiv_mul_add_tmod A B).symm, ?_, tmod_eq_zero_or_sign_eq A B, tdiv_eq_zero_or_sign_eq A B,
    Nat.le_pred_of_lt hqB, Nat.le_pred_of_lt hrB, fun _ _ => tdiv_tmod_unique_of_sign⟩
  rw [Int.natAbs_tmod]
  exact Nat.mod_lt _ (Int.natAbs_pos.2 hB)

/-! ### The divider (R183 to R186) -/

/-- Settles O59, by the exactness of the divider's three paths on eight limbs. -/
theorem limbDividerIsExact : Obligations.LimbDividerIsExact := fun _ _ hU hV h0 =>
  limbDivide_toLimbs (hU.trans_eq (by decide)) (hV.trans_eq (by decide)) h0

end Sys2Proof.Machine
end

section
/-! PROOFS. RESCALE and the range checks (spec/45_rescale_range.md R200 to R204): the rescaled magnitude as a checked
product or a half-up quotient, the precision OVF accepts, TIO and TIO2 as one check, and that the three agree. -/

namespace Sys2Proof.Machine

/-! ### The rescaled magnitude (R200, R204 (b)) -/

/-- R200: above exponent 38 a nonzero magnitude is out of range, so the guard only spares indexing POW10. -/
theorem scaledUp_eq_checked_mul (m e : Nat) : scaledUp m e = checked (m * 10 ^ e) := by
  rcases Nat.lt_or_ge 38 e with he | he
  · by_cases h0 : m = 0
    · rw [h0, Nat.zero_mul]; rfl
    · have hpow : 10 ^ 39 ≤ 10 ^ e := Nat.pow_le_pow_right (by decide) he
      have hlt : maxUnscaled < 10 ^ e := lt_of_lt_of_le (by decide) hpow
      have hle : 10 ^ e ≤ m * 10 ^ e := Nat.le_mul_of_pos_left _ (Nat.pos_of_ne_zero h0)
      rw [scaledUp, if_neg h0, if_pos he, checked_error.2 ⟨hlt.trans_le hle, rfl⟩]
  · exact scaledUp_eq_checked he

/-- R200: twice a 127-bit magnitude is below 10^39, so from there on the quotient rounds to 0. -/
theorem scaledDown_eq {m : Nat} (k : Nat) (hm : m < 2 ^ 127) : scaledDown m k = (2 * m + 10 ^ k) / (2 * 10 ^ k) := by
  unfold scaledDown
  split
  · next hk =>
    have hpow : 10 ^ 39 ≤ 10 ^ k := Nat.pow_le_pow_right (by decide) hk
    exact (Nat.div_eq_of_lt (by omega)).symm
  · exact half_up_div m (Nat.pow_pos (by decide))

theorem rescaledMag_zero (m : Nat) : rescaledMag m 0 = .ok m := rfl

theorem rescaledMag_of_pos (m : Nat) {e : Int} (he : 0 < e) : rescaledMag m e = checked (m * 10 ^ e.toNat) := by
  rw [rescaledMag, if_neg he.ne', if_pos he, scaledUp_eq_checked_mul]

theorem rescaledMag_of_neg {m : Nat} {e : Int} (hm : m < 2 ^ 127) (he : e < 0) :
    rescaledMag m e = .ok ((2 * m + 10 ^ (-e).toNat) / (2 * 10 ^ (-e).toNat)) := by
  rw [rescaledMag, if_neg he.ne, if_neg he.not_gt, scaledDown_eq _ hm]

theorem rescaledMag_lt {m q : Nat} {e : Int} (hm : m < 2 ^ 127) (h : rescaledMag m e = .ok q) : q < 2 ^ 127 := by
  refine (rescaledMag_le hm h).trans_lt ?_
  split
  · exact hm
  · decide

/-! ### Signs, precisions and words (R13, R28, R201, R203) -/

/-- R13: a value read never answers negative zero, so its sign bit is that of its value. -/
theorem signedInt_sign_eq_ite {b : Dec} (hb : b ≠ negativeZero) (q : Nat) :
    signedInt (sign b) q = if val b < 0 then -(q : Int) else q := by
  have hsign : val b < 0 ↔ sign b = true := by
    rw [val_lt_zero_iff, isneg, Bool.and_eq_true, and_iff_left_of_imp]
    exact fun hs => bne_iff_ne.2 fun hm => hb ((eq_negativeZero_iff b).2 ⟨hs, hm⟩)
  simp only [signedInt, hsign]

/-- R28, at any lower bound, by the signed reading of the word. -/
theorem signedInRange_eq_ok {p : Scalar} {lo hi : Nat} (h : lo ≤ p.toInt ∧ p.toInt ≤ hi) :
    signedInRange p lo hi = .ok p.toInt.toNat := by
  rw [signedInRange_ok, s64_eq_toInt]
  omega

theorem signedInRange_eq_error {p : Scalar} {lo hi : Nat} (h : p.toInt < lo ∨ hi < p.toInt) :
    signedInRange p lo hi = .error .operandRange := by
  rw [signedInRange, s64_eq_toInt, if_pos h]

theorem boolWord_eq_one_iff (p : Bool) : boolWord p = 1 ↔ p = true := by cases p <;> decide

/-- R203: the two words of SPLIT make up the magnitude of the pattern. -/
theorem pairMag_words (b : Dec) : pairMag (b.extractLsb' 0 64) (b.extractLsb' 64 64) = mag b := by
  rw [pairMag, toNat_highWord, toNat_lowWord]
  exact (mag_eq_halves b).symm

/-! ### The commands (R200 to R203) -/

/-- R202, R203: a command that only checks a magnitude changes nothing or raises Overflow. -/
theorem exec_checked_only {i : Instr} {s : State} {m : Nat} (hs : s.err = false)
    (h : exec i s = perform i s (checked m >>= fun _ => .ok s)) :
    (m ≤ maxUnscaled → exec i s = .next s)
      ∧ (maxUnscaled < m → ∃ t, exec i s = .next t ∧ FaultEntered s t .overflow (encode i)) := by
  rw [h]
  refine ⟨fun hle => ?_, fun hlt => ?_⟩
  · rw [checked_ok.2 ⟨hle, rfl⟩, ok_bind, perform_ok hs]
  · rw [checked_error.2 ⟨hlt, rfl⟩, error_bind, perform_error hs]
    exact ⟨_, rfl, raise_faultEntered s _ _⟩

/-- R202: "its whole result is whether STATUS.ERR is set afterwards". -/
theorem exec_checked_only_err {i : Instr} {s : State} {m : Nat} (hs : s.err = false)
    (h : exec i s = perform i s (checked m >>= fun _ => .ok s)) :
    ∃ t, exec i s = .next t ∧ (t.err = true ↔ maxUnscaled < m) := by
  obtain ⟨hok, hfault⟩ := exec_checked_only hs h
  rcases Nat.lt_or_ge maxUnscaled m with hlt | hle
  · obtain ⟨t, ht, herr, -⟩ := hfault hlt
    exact ⟨t, ht, iff_of_true herr hlt⟩
  · exact ⟨s, hok hle, iff_of_false (Bool.eq_false_iff.1 hs) hle.not_gt⟩

section
variable {s : State} {ds : DReg} {b : Dec} (hb : s.dv ds = .ok b)
include hb

theorem exec_rescale_eq_perform (dd : DReg) (xe : XReg) :
    exec (.rescale dd ds xe) s = perform (.rescale dd ds xe) s
      (rescaledMag (mag b) (s.x xe).toInt >>= fun q => .ok (s.setD dd (enc (sign b) q))) := by
  rw [exec, execRescale, hb, ok_bind, s64_eq_toInt]

theorem exec_tio_eq_perform : exec (.tio ds) s = perform (.tio ds) s (checked (mag b) >>= fun _ => .ok s) := by
  rw [exec, execTio, hb, ok_bind]

variable (hs : s.err = false)
include hs

/-- R200: where the rescaled magnitude has a value, RESCALE writes it under the source's sign. -/
theorem exec_rescale_of_ok (dd : DReg) {xe : XReg} {q : Nat} (hq : rescaledMag (mag b) (s.x xe).toInt = .ok q) :
    ∃ t, exec (.rescale dd ds xe) s = .next t ∧ ChangesOnly s t [dd] [] [] ∧ val (t.d dd) = signedInt (sign b) q
      ∧ t.d dd ≠ negativeZero := by
  have hlt := rescaledMag_lt (mag_lt b) hq
  rw [exec_rescale_eq_perform hb, hq, ok_bind, perform_ok hs]
  refine ⟨_, rfl, changesOnly_setD s dd _, ?_⟩
  rw [State.d_setD_self]
  exact ⟨val_enc_eq_signedInt _ hlt, enc_ne_negativeZero _ _ hlt⟩

theorem exec_ovf_of_mem (xd : XReg) {xp : XReg} (h : 1 ≤ (s.x xp).toInt ∧ (s.x xp).toInt ≤ 38) :
    exec (.ovf xd ds xp) s = .next (s.setX xd (boolWord (decide (10 ^ (s.x xp).toInt.toNat ≤ mag b)))) := by
  rw [exec, execOvf, hb, ok_bind, signedInRange_eq_ok h, ok_bind, perform_ok hs]
  rfl

theorem exec_ovf_of_not_mem (xd : XReg) {xp : XReg} (h : (s.x xp).toInt < 1 ∨ 38 < (s.x xp).toInt) :
    exec (.ovf xd ds xp) s = .next (s.raise .operandRange (encode (.ovf xd ds xp))) := by
  rw [exec, execOvf, hb, ok_bind, signedInRange_eq_error h, error_bind, perform_error hs]

/-- R204 (e): after SPLIT, TIO2 checks the magnitude of the value read, whatever the sign bit of the pattern. -/
theorem execAll_split_tio2_err {xlo xhi : XReg} (hne : xlo ≠ xhi) :
    ∃ t, execAll [.split xlo xhi ds, .tio2 xlo xhi] s = .next t ∧ (t.err = true ↔ maxUnscaled < mag b) := by
  rw [execAll_pair (exec_split hs ds hne), mag_of_valueRead_ok hb, ← pairMag_words (s.d ds)]
  refine exec_checked_only_err (by simpa using hs) ?_
  rw [exec, execTio2, State.x_setX_self, State.x_setX, if_neg hne.symm, State.x_setX_self]

end

/-! ### The statements -/

/-- Settles O45, by the sign of the exponent: a copy, a checked product, a half-up quotient. -/
theorem rescaleMultipliesOrRoundsHalfUp : Obligations.RescaleMultipliesOrRoundsHalfUp := by
  refine fun dd ds xe s hs => ⟨fun b hb => ?_, readFaultsOf_bind hs rfl⟩
  have hproduct (he : 0 < (s.x xe).toInt) :=
    exec_checked_write hs ((exec_rescale_eq_perform hb dd xe).trans (by rw [rescaledMag_of_pos _ he]))
      (val_mul_ten_pow b (s.x xe).toInt.toNat)
  refine ⟨fun he => ?_, fun he => (hproduct he).1, fun he => (hproduct he).2, fun he => ?_⟩
  · exact exec_rescale_of_ok hb hs dd (he ▸ rescaledMag_zero (mag b))
  · rw [← signedInt_sign_eq_ite (valueRead_ne_negativeZero hb), natAbs_val]
    exact exec_rescale_of_ok hb hs dd (rescaledMag_of_neg (mag_lt b) he)

/-- Settles O46: the precision's range decides between the answer and the fault. -/
theorem ovfTestsThePrecision : Obligations.OvfTestsThePrecision := by
  refine fun xd ds xp s hs => ⟨fun b hb => ⟨fun hp => ?_, fun hp => ?_⟩, readFaultsOf_bind hs rfl⟩
  · refine ⟨_, exec_ovf_of_mem hb hs xd hp, changesOnly_setX s xd _, ?_⟩
    simp only [State.x_setX_self, toNat_boolWord, decide_eq_true_eq, natAbs_val]
  · exact ⟨_, exec_ovf_of_not_mem hb hs xd hp, raise_faultEntered s _ _⟩

/-- Settles O47: TIO and TIO2 are one check, of the value read and of the two words. -/
theorem tioAndTio2OnlyTestTheRange : Obligations.TioAndTio2OnlyTestTheRange := by
  refine fun s hs => ⟨fun ds => ⟨fun b hb => ?_, readFaultsOf_bind hs rfl⟩, fun xlo xhi => exec_checked_only hs rfl⟩
  rw [natAbs_val]
  exact exec_checked_only hs (exec_tio_eq_perform hb)

/-- Settles O48: each of the three answers whether the magnitude read exceeds MAX_UNSCALED. -/
theorem rangeChecksAgree : Obligations.RangeChecksAgree := by
  intro ds xd xp xlo xhi s b hs hb hp hne
  obtain ⟨t1, ht1, htio⟩ := exec_checked_only_err hs (exec_tio_eq_perform hb)
  obtain ⟨t3, ht3, htio2⟩ := execAll_split_tio2_err hb hs hne
  have hp38 : (s.x xp).toInt = 38 := by rw [hp]; rfl
  refine ⟨t1, _, t3, ht1, exec_ovf_of_mem hb hs xd (by omega), ht3, ?_, htio.trans htio2.symm⟩
  rw [htio, State.x_setX_self, boolWord_eq_one_iff, decide_eq_true_eq, hp38]
  exact Nat.lt_iff_add_one_le

end Sys2Proof.Machine
end

section
/-! PROOFS. The text (spec/46_text.md R220, R221): that the string buffer and its length change by TOSTR and by reset
alone, and what TOSTR writes there: the shortest decimal text of the magnitude, and zero bytes after it. -/

namespace Sys2Proof.Machine

/-! ### What leaves the text alone (R31, R58, R221) -/

theorem SameText.refl (s : State) : SameText s s := ⟨rfl, rfl⟩

theorem command_error_sameText (s : State) (w : Word) (F : FaultKind) : SameText s (s.command w (.error F)) := by
  cases hs : s.err with
  | true => rw [State.command_of_err hs]; exact .refl s
  | false => rw [State.command_error hs]; exact ⟨rfl, rfl⟩

/-- Every command but TOSTR is one performed effect, and an effect that completes has written no text. -/
theorem exec_textEffect {i : Instr} (hi : writesText i = false) (s : State) :
    ∃ e, exec i s = perform i s e ∧ ∀ u, e = .ok u → SameText s u := by
  cases i with
  | tostr => cases hi
  | zero | empty | fromlong | pack | li | shlp | mul256 => exact ⟨_, rfl, onOk_ok ⟨rfl, rfl⟩⟩
  | split => exact ⟨_, rfl, onOk_ite (onOk_ok ⟨rfl, rfl⟩)⟩
  | tobig | shr | shrmp | neg | isneg | iszero | tio2 => exact ⟨_, rfl, onOk_bind fun _ => onOk_ok ⟨rfl, rfl⟩⟩
  | tolong | shlmp => exact ⟨_, rfl, onOk_bind fun _ => onOk_ite (onOk_ok ⟨rfl, rfl⟩)⟩
  | frombig | shld | addo | cmp | mull | rescale | ovf | tio =>
    exact ⟨_, rfl, onOk_bind fun _ => onOk_bind fun _ => onOk_ok ⟨rfl, rfl⟩⟩
  | add | mul => exact ⟨_, rfl, onOk_bind fun _ => onOk_bind fun _ => onOk_bind fun _ => onOk_ok ⟨rfl, rfl⟩⟩
  | div =>
    exact ⟨_, rfl, onOk_ite (onOk_bind fun _ => onOk_bind fun _ => onOk_bind fun _ => onOk_bind fun _ =>
      onOk_bind fun _ => onOk_ok ⟨rfl, rfl⟩)⟩

/-- R31: TOSTR is the one command that writes S and SLEN. -/
theorem exec_sameText {i : Instr} {s t : State} (hi : writesText i = false) (h : exec i s = .next t) :
    SameText s t := by
  obtain ⟨e, he, hw⟩ := exec_textEffect hi s
  rcases perform_cases (he ▸ h) with ⟨-, rfl⟩ | ⟨-, hok⟩ | ⟨-, F, -, rfl⟩
  · exact .refl t
  · exact hw t hok
  · exact ⟨rfl, rfl⟩

theorem writesText_eq_false {i : Instr} (h : ∀ ds, i ≠ .tostr ds) : writesText i = false := by
  cases i with
  | tostr ds => exact absurd rfl (h ds)
  | _ => rfl

theorem execute_sameText {w : Word} {s t : State} (hw : ∀ ds, decode w ≠ .ok (.tostr ds))
    (h : execute w s = .next t) : SameText s t := by
  rcases execute_cases w s with ⟨i, hi, he⟩ | ⟨-, he⟩
  · refine exec_sameText (writesText_eq_false ?_) (he ▸ h)
    rintro ds rfl
    exact hw ds hi
  · obtain rfl : s.command w (.error .illegalCommand) = t := by simpa [he] using h
    exact command_error_sameText s w _

theorem clearFault_sameText (s : State) (w : Word) : SameText s (s.clearFault w) := by
  rcases s.clearFault_cases w with ⟨-, -, h⟩ | ⟨-, h⟩ <;> rw [h]
  · exact ⟨rfl, rfl⟩
  · exact .refl s

/-- R58: no window write reaches S or SLEN. -/
theorem winWrite_sameText (s : State) (a n : Nat) (v : BitVec 64) : SameText s (s.winWrite a n v) := by
  unfold State.winWrite
  cases controlReg a with
  | none => exact writeBytes_sameText s a v n
  | some c =>
    cases c with
    | status => exact clearFault_sameText s _
    | slen | cmd | cause | ecmd => exact .refl s

/-- Settles O19: of the host's steps only reset and a write to CMD can touch the text, and an admitted write to CMD has
four bytes (R55). -/
theorem onlyTostrAndResetChangeTheText : Obligations.OnlyTostrAndResetChangeTheText := by
  intro s t h hreset htostr
  rcases step_cases h with ⟨-, rfl⟩ | ⟨k, rest, hhost, hk⟩
  · exact .refl t
  rcases hostStep_cases hk with ⟨rfl, -⟩ | ⟨a, n, -, -, rfl⟩ | ⟨a, n, v, rfl, hadm, rfl, he⟩ | ⟨a, n, v, -, -, -, rfl⟩
  · exact absurd hhost (hreset rest)
  · exact ⟨rfl, rfl⟩
  · obtain rfl : n = 4 := size_eq_of_admittedBySpec (admitted_iff.1 hadm) (by decide)
    exact execute_sameText (s := { s with host := rest }) (fun ds => htostr v rest ds hhost) he
  · exact winWrite_sameText { s with host := rest } a n v

/-! ### The number of digits (R220) -/

/-- R220: the digits of a 127-bit magnitude, one at least, are the fewest that it fits in. -/
theorem digitCount_spec {m : Nat} (hm : m < 2 ^ 127) :
    1 ≤ digitCount m ∧ m < 10 ^ digitCount m ∧ (1 < digitCount m → 10 ^ (digitCount m - 1) ≤ m) := by
  unfold digitCount
  cases h : (List.range' 1 39).find? (fun k => decide (m < 10 ^ k)) with
  | none =>
    have h39 := List.find?_eq_none.1 h 39 (by decide)
    have hlt : m < 10 ^ 39 := hm.trans (by decide)
    exact absurd hlt (by simpa using h39)
  | some k =>
    obtain ⟨hlt, hmem, hleast⟩ := List.find?_range'_eq_some.1 h
    rw [Option.getD_some]
    refine ⟨(List.mem_range'_1.1 hmem).1, of_decide_eq_true hlt, fun hk => ?_⟩
    simpa using hleast (k - 1) (by omega) (by omega)

/-! ### The digits (R220) -/

theorem toNat_digitCode {c : Nat} (hc : c < 10) : (digitCode c).toNat = 0x30 + c := by
  rw [digitCode, BitVec.toNat_ofNat]
  omega

theorem digit_lt (m i : Nat) : digit m i < 10 := Nat.mod_lt _ (by decide)

/-- The characters of the k lowest digits of m, the most significant first. -/
def lowDigitCodes (m k : Nat) : List Byte := (List.range k).map fun j => digitCode (digit m (k - 1 - j))

theorem digitCodes_eq (m : Nat) : digitCodes m = lowDigitCodes m (digitCount m) := rfl

/-- The last character is the digit of the units, and those before it are the digits of m / 10. -/
theorem lowDigitCodes_succ (m k : Nat) :
    lowDigitCodes m (k + 1) = lowDigitCodes (m / 10) k ++ [digitCode (m % 10)] := by
  have hshift : ∀ j ∈ List.range k, digit m (k - j) = digit (m / 10) (k - 1 - j) := by
    intro j hj
    have hjk : j < k := List.mem_range.1 hj
    have hpow : k - j = k - 1 - j + 1 := by omega
    rw [digit, digit, hpow, Nat.pow_succ', Nat.div_div_eq_div_mul]
  simp only [lowDigitCodes, List.range_succ, List.map_append, List.map_singleton, Nat.add_sub_cancel, Nat.sub_self]
  rw [List.map_congr_left fun j hj => congrArg digitCode (hshift j hj), digit, Nat.pow_zero, Nat.div_one]

theorem head?_lowDigitCodes_succ (m k : Nat) : (lowDigitCodes m (k + 1)).head? = some (digitCode (digit m k)) := by
  simp [lowDigitCodes, List.range_succ_eq_map]

theorem readDigits_append_singleton (cs : List Byte) (c : Byte) :
    readDigits (cs ++ [c]) = readDigits cs * 10 + (c.toNat - 0x30) := by simp [readDigits]

/-- The k lowest digits of m spell m mod 10^k. -/
theorem readDigits_lowDigitCodes (m k : Nat) : readDigits (lowDigitCodes m k) = m % 10 ^ k := by
  induction k generalizing m with
  | zero => rw [Nat.pow_zero, Nat.mod_one]; rfl
  | succ k ih =>
    rw [lowDigitCodes_succ, readDigits_append_singleton, ih, toNat_digitCode (Nat.mod_lt _ (by decide)), Nat.pow_succ',
      Nat.mod_mul]
    omega

theorem digitCodes_ne_nil {m : Nat} (hm : m < 2 ^ 127) : digitCodes m ≠ [] := by
  obtain ⟨hpos, -⟩ := digitCount_spec hm
  exact List.ne_nil_of_length_pos (by rwa [length_digitCodes])

theorem toNat_range_of_mem_digitCodes {m : Nat} {c : Byte} (hc : c ∈ digitCodes m) :
    0x30 ≤ c.toNat ∧ c.toNat ≤ 0x39 := by
  obtain ⟨j, -, rfl⟩ := List.mem_map.1 hc
  have hlt := digit_lt m (digitCount m - 1 - j)
  rw [toNat_digitCode hlt]
  omega

/-- The digits of the text spell the whole magnitude, since it is below 10^k. -/
theorem readDigits_digitCodes {m : Nat} (hm : m < 2 ^ 127) : readDigits (digitCodes m) = m := by
  obtain ⟨-, hlt, -⟩ := digitCount_spec hm
  rw [digitCodes_eq, readDigits_lowDigitCodes, Nat.mod_eq_of_lt hlt]

/-- A text of two digits or more begins with a digit other than 0, since k is the least. -/
theorem digitCodes_eq_zero_of_head? {m : Nat} (hm : m < 2 ^ 127) (h : (digitCodes m).head? = some 0x30) :
    digitCodes m = [0x30] := by
  obtain ⟨hpos, hlt, hleast⟩ := digitCount_spec hm
  obtain ⟨k, hk⟩ := Nat.exists_eq_add_of_le' hpos
  rw [digitCodes_eq, hk] at h ⊢
  rw [head?_lowDigitCodes_succ] at h
  have hcode : digitCode (digit m k) = 0x30 := Option.some.inj h
  have hzero : digit m k = 0 := by
    have hnat := congrArg BitVec.toNat hcode
    rw [toNat_digitCode (digit_lt m k)] at hnat
    exact Nat.add_left_cancel hnat
  cases k with
  | zero => exact congrArg (fun c => [c]) hcode
  | succ k =>
    rw [hk] at hlt hleast
    have htop : m / 10 ^ (k + 1) < 10 := Nat.div_lt_of_lt_mul (by rwa [← Nat.pow_succ])
    have htop_pos : 0 < m / 10 ^ (k + 1) := Nat.div_pos (hleast (by omega)) (Nat.pow_pos (by decide))
    rw [digit, Nat.mod_eq_of_lt htop] at hzero
    omega

/-! ### The buffer and its length (R31, R220) -/

theorem toList_textBuffer {cs : List Byte} (h : cs.length ≤ 40) :
    (textBuffer cs).toList = cs ++ List.replicate (40 - cs.length) 0 := by
  refine List.ext_getElem (by simp; omega) fun i _ _ => ?_
  by_cases hi : i < cs.length
  · simp [textBuffer, hi]
  · simp [textBuffer, List.getElem_append, hi]

theorem toNat_ofNat_length_textOf (b : Dec) : (BitVec.ofNat 32 (textOf b).length).toNat = (textOf b).length := by
  have hle := length_textOf_le b
  rw [BitVec.toNat_ofNat]
  omega

/-- R220: the sign is that of the value, so a negative zero has none. -/
theorem textOf_eq (b : Dec) : textOf b = (if val b < 0 then [0x2D] else []) ++ digitCodes (mag b) := by
  simp only [textOf, val_lt_zero_iff, minusCode]

theorem length_textOf (b : Dec) :
    (textOf b).length = (digitCodes (mag b)).length + if val b < 0 then 1 else 0 := by
  rw [textOf_eq]
  split <;> simp [Nat.add_comm]

/-! ### The command (R220) -/

theorem exec_tostr {s : State} {ds : DReg} {b : Dec} (hs : s.err = false) (hb : s.dv ds = .ok b) :
    exec (.tostr ds) s = .next (s.setText (textBuffer (textOf b)) (BitVec.ofNat 32 (textOf b).length)) := by
  rw [exec, execTostr, hb, ok_bind, perform_ok hs]

/-- R264: a write of the text changes no register, no control register and nothing outside the unit. -/
theorem setText_frame (s : State) (b : Vector Byte 40) (n : Word) :
    SameRegistersExcept s (s.setText b n) [] [] [] ∧ SameControl s (s.setText b n) ∧ SameOutside s (s.setText b n) :=
  ⟨⟨fun _ _ => rfl, fun _ _ => rfl, fun _ _ => rfl⟩, ⟨rfl, rfl, rfl⟩, rfl, rfl, rfl, rfl⟩

/-- Settles O49: the digits of the text are those of `digitCodes`, after the sign and before the zero bytes. -/
theorem tostrWritesTheDecimalText : Obligations.TostrWritesTheDecimalText := by
  refine fun ds s hs => ⟨fun b hb => ?_, readFaultsOf_bind hs rfl⟩
  have hm := mag_lt b
  have hslen := toNat_ofNat_length_textOf b
  obtain ⟨hregs, hcontrol, houtside⟩ := setText_frame s (textBuffer (textOf b)) (BitVec.ofNat 32 (textOf b).length)
  refine ⟨_, digitCodes (mag b), exec_tostr hs hb, hregs, hcontrol, houtside, digitCodes_ne_nil hm,
    fun _ => toNat_range_of_mem_digitCodes, digitCodes_eq_zero_of_head? hm, ?_, ?_, ?_, ?_⟩
  · rw [readDigits_digitCodes hm, natAbs_val]
  · exact hslen.trans (length_textOf b)
  · exact toNat_ofNat_length_textOf_le b
  · rw [State.setText_str, State.setText_slen, hslen, ← textOf_eq]
    exact toList_textBuffer (length_textOf_le b)

end Sys2Proof.Machine
end

section
/-! PROOFS. What a command and a step may do and what they leave alone (spec/70_reset_and_hazards.md R260, R264, R266):
the frame of every command, that every command completes, and the reset event. -/

namespace Sys2Proof.Machine

/-! ### The registers a command writes (R78, R264) -/

/-- Every command is one performed effect, and an effect that completes writes no register but the destinations. -/
theorem exec_registerEffect (i : Instr) (s : State) :
    ∃ e, exec i s = perform i s e ∧
      ∀ u, e = .ok u → SameRegistersExcept s u (decDests i) (scalarDests i) (wideDests i) := by
  have frame := ChangesOnly.refl s (decDests i) (scalarDests i) (wideDests i)
  cases i with
  | zero | empty | fromlong | pack | shlp => exact ⟨_, rfl, onOk_ok (frame.setD _ (.head _)).1⟩
  | li => exact ⟨_, rfl, onOk_ok (frame.setX _ (.head _)).1⟩
  | mul256 => exact ⟨_, rfl, onOk_ok (frame.setW _ (.head _)).1⟩
  | split =>
    exact ⟨_, rfl, onOk_ite (onOk_ok ((frame.setX _ (.head _)).setX _ (.tail _ (.head _))).1)⟩
  | neg | shr => exact ⟨_, rfl, onOk_bind fun _ => onOk_ok (frame.setD _ (.head _)).1⟩
  | isneg | iszero => exact ⟨_, rfl, onOk_bind fun _ => onOk_ok (frame.setX _ (.head _)).1⟩
  | tolong => exact ⟨_, rfl, onOk_bind fun _ => onOk_ite (onOk_ok (frame.setX _ (.head _)).1)⟩
  | tobig => exact ⟨_, rfl, onOk_bind fun _ => onOk_ok ((frame.setW _ (.head _)).setX _ (.head _)).1⟩
  | shrmp => exact ⟨_, rfl, onOk_bind fun _ => onOk_ok (frame.setW _ (.head _)).1⟩
  | shlmp =>
    exact ⟨_, rfl, onOk_bind fun _ => onOk_ite (onOk_ok ((frame.setW _ (.head _)).setX _ (.head _)).1)⟩
  | tio2 => exact ⟨_, rfl, onOk_bind fun _ => onOk_ok frame.1⟩
  | tostr => exact ⟨_, rfl, onOk_bind fun _ => onOk_ok (setText_frame s _ _).1⟩
  | frombig | shld | rescale | mull =>
    exact ⟨_, rfl, onOk_bind fun _ => onOk_bind fun _ => onOk_ok (frame.setD _ (.head _)).1⟩
  | cmp | ovf => exact ⟨_, rfl, onOk_bind fun _ => onOk_bind fun _ => onOk_ok (frame.setX _ (.head _)).1⟩
  | addo =>
    exact ⟨_, rfl, onOk_bind fun _ => onOk_bind fun _ => onOk_ok ((frame.setD _ (.head _)).setX _ (.head _)).1⟩
  | tio => exact ⟨_, rfl, onOk_bind fun _ => onOk_bind fun _ => onOk_ok frame.1⟩
  | add | mul =>
    exact ⟨_, rfl, onOk_bind fun _ => onOk_bind fun _ => onOk_bind fun _ => onOk_ok (frame.setD _ (.head _)).1⟩
  | div =>
    exact ⟨_, rfl, onOk_ite (onOk_bind fun _ => onOk_bind fun _ => onOk_bind fun _ => onOk_bind fun _ =>
      onOk_bind fun _ => onOk_ok ((frame.setD _ (.head _)).setD _ (.tail _ (.head _))).1)⟩

/-- R234, R264: a command that is dropped or faults writes no register at all. -/
theorem exec_sameRegistersExcept {i : Instr} {s t : State} (h : exec i s = .next t) :
    SameRegistersExcept s t (decDests i) (scalarDests i) (wideDests i) := by
  obtain ⟨e, he, hw⟩ := exec_registerEffect i s
  rcases perform_cases (he ▸ h) with ⟨-, rfl⟩ | ⟨-, hok⟩ | ⟨-, F, -, rfl⟩
  · exact (ChangesOnly.refl t _ _ _).1
  · exact hw t hok
  · exact ⟨fun _ _ => rfl, fun _ _ => rfl, fun _ _ => rfl⟩

/-! ### The control registers under a command (R234, R235) -/

theorem SameControl.err_eq {s t : State} (h : SameControl s t) : t.err = s.err := by
  obtain ⟨hstatus, -, -⟩ := h
  rw [State.err, hstatus, State.err]

/-- R234: a command leaves STATUS, CAUSE and ECMD as they were, or sets ERR by fault entry. -/
theorem exec_sameControl_or_raise {i : Instr} {s t : State} (h : exec i s = .next t) :
    SameControl s t ∨ (s.err = false ∧ ∃ F, t = s.raise F (encode i)) := by
  rcases exec_cases h with ⟨-, rfl⟩ | ⟨-, hw⟩ | hraise
  · exact .inl ⟨rfl, rfl, rfl⟩
  · exact .inl hw.sameControl
  · exact .inr hraise

theorem exec_sameControl {i : Instr} {s t : State} (h : exec i s = .next t) (herr : t.err = s.err) :
    SameControl s t := by
  rcases exec_sameControl_or_raise h with hc | ⟨hs, F, rfl⟩
  · exact hc
  · rw [State.err_raise, hs] at herr
    cases herr

/-- Settles O20: the registers by the command's effect, the rest by the frames of the text, the outside and the control
registers. -/
theorem commandChangesOnlyItsDestinations : Obligations.CommandChangesOnlyItsDestinations := fun _ _ _ h =>
  ⟨exec_sameRegistersExcept h, fun hi => exec_sameText hi h, exec_sameOutside h, exec_sameControl h⟩

/-! ### Steps (R56, R260, R266) -/

theorem step_of_idle {s : State} (h : s.host = []) : step s = .next s := by simp [step, advance, h]

theorem admitted_eq_false {a n : Nat} (h : ¬admittedBySpec a n) : admitted a n = false :=
  Bool.eq_false_of_not_eq_true (mt admitted_iff.1 h)

theorem step_of_reset {s : State} {rest : List HostStep} (h : s.host = .reset :: rest) :
    step s = .next ({ s with host := rest } : State).hardReset :=
  step_of_host h

/-- Settles O9: a host step other than an access that is not admitted has a next state, a write to CMD because every
command word has one. -/
theorem everyCommandCompletesAndOnlyAccessErrorsAreRefused :
    Obligations.EveryCommandCompletesAndOnlyAccessErrorsAreRefused := by
  refine ⟨exec_next, fun s => ⟨step_of_idle, ?_⟩⟩
  cases hs : s.host with
  | nil => exact .inl ⟨s, step_of_idle hs⟩
  | cons k rest =>
    cases k with
    | reset => exact .inl ⟨_, step_of_reset hs⟩
    | read a n =>
      by_cases h : admittedBySpec a n
      · exact .inl ⟨_, step_of_read hs h⟩
      · exact .inr ⟨step_of_read_refused hs h, a, n, rest, admitted_eq_false h, .inl rfl⟩
    | write a n v =>
      by_cases h : admittedBySpec a n
      · exact .inl (step_of_write_next hs h)
      · exact .inr ⟨step_of_write_refused hs h, a, n, rest, admitted_eq_false h, .inr ⟨v, rfl⟩⟩

/-- Settles O17: the reset event sets up the control invariant, whose bound on SLEN is R40's. -/
theorem resetEventClearsTheControlRegisters : Obligations.ResetEventClearsTheControlRegisters := fun s rest h =>
  ⟨_, step_of_reset h, rfl, rfl, rfl, State.err_hardReset _,
    (hardReset_controlInvariant { s with host := rest }).slen_range, rfl, rfl⟩

end Sys2Proof.Machine
end

section
/-! PROOFS. Faults (spec/60_exceptions.md R230 to R236): that a fault is precise, which commands cannot fault, the
negative-zero operand under `reject`, and the fault state, in which the host is served until it clears STATUS. -/

namespace Sys2Proof.Machine

/-! ### Faults of a command (R231 to R234) -/

/-- Settles O10: a command that does not enter a fault leaves ERR as it was. -/
theorem commandFaultIsPrecise : Obligations.CommandFaultIsPrecise := by
  intro i s t hs h ht
  rcases exec_sameControl_or_raise h with hc | ⟨-, F, rfl⟩
  · rw [hc.err_eq, hs] at ht
    cases ht
  · exact ⟨F, raise_faultEntered s F _⟩

/-- R13: under `canonicalise` every value read has an answer. -/
theorem exists_dv_eq_ok {s : State} (h : s.cfg.negzeroPolicy = .canonicalise) (r : DReg) : ∃ b, s.dv r = .ok b := by
  by_cases hz : s.d r = negativeZero
  · exact ⟨_, (valueReadCanonicalisesOrRejects s r).2.1 hz h⟩
  · exact ⟨_, (valueReadCanonicalisesOrRejects s r).1 hz⟩

theorem exec_mul256 {s : State} (hs : s.err = false) (wd : WReg) (db : DReg) :
    exec (.mul256 wd db) s
      = .next (s.setW wd (BitVec.ofNat 256 ((s.w wd).toNat % 2 ^ 128 * (s.d db).toNat))) :=
  perform_ok hs _ _

/-- Settles O11: once its operands are read, each of these commands only writes registers or the text. -/
theorem commandsThatNeverFault : Obligations.CommandsThatNeverFault := by
  intro i s hi hwf hs hp
  have hread := exists_dv_eq_ok hp
  cases i with
  | tolong | frombig | shld | shlmp | shrmp | add | mul | mull | div | rescale | ovf | tio | tio2 => cases hi
  | zero => exact ⟨_, exec_zero hs _, hs⟩
  | empty => exact ⟨_, exec_empty hs _, hs⟩
  | fromlong => exact ⟨_, exec_fromlong hs _ _, hs⟩
  | pack => exact ⟨_, exec_pack hs _ _ _, hs⟩
  | split xlo xhi ds => exact ⟨_, exec_split hs ds (bne_iff_ne.1 hwf), hs⟩
  | li => exact ⟨_, exec_li hs _ _, hs⟩
  | shlp => exact ⟨_, exec_shlp hs _ _ _, hs⟩
  | mul256 => exact ⟨_, exec_mul256 hs _ _, hs⟩
  | tobig wd xsign ds =>
    obtain ⟨b, hb⟩ := hread ds
    exact ⟨_, exec_tobig hs hb, hs⟩
  | shr roundUp dd ds xn =>
    obtain ⟨b, hb⟩ := hread ds
    exact ⟨_, exec_shr roundUp hs hb, hs⟩
  | neg dd ds =>
    obtain ⟨b, hb⟩ := hread ds
    exact ⟨_, exec_neg hs hb, hs⟩
  | isneg xd ds =>
    obtain ⟨b, hb⟩ := hread ds
    exact ⟨_, exec_isneg hs xd hb, hs⟩
  | iszero xd ds =>
    obtain ⟨b, hb⟩ := hread ds
    exact ⟨_, exec_iszero hs xd hb, hs⟩
  | tostr ds =>
    obtain ⟨b, hb⟩ := hread ds
    exact ⟨_, exec_tostr hs hb, (s.err_setText _ _).trans hs⟩
  | addo dd xdelta da db =>
    obtain ⟨a, ha⟩ := hread da
    obtain ⟨b, hb⟩ := hread db
    exact ⟨_, exec_addo hs dd xdelta ha hb, hs⟩
  | cmp xd da db =>
    obtain ⟨a, ha⟩ := hread da
    obtain ⟨b, hb⟩ := hread db
    exact ⟨_, exec_cmp hs xd ha hb, hs⟩

/-- R231, R233: a well-formed command reads its value operands before anything else that can fault, so the fault of such
a read is the command's. -/
theorem readFaultsOf_valueSources {i : Instr} {s : State} (hwf : i.wellFormed = true) (hs : s.err = false) :
    ReadFaultsOf i (valueSources i) s := by
  cases i with
  | tolong | tobig | shld | shr | neg | isneg | iszero | mull | rescale | ovf | tio | tostr =>
    exact readFaultsOf_bind hs rfl
  | add | addo | cmp | mul => exact readFaultsOf_bind_bind hs rfl
  | div => exact readFaultsOf_bind_bind hs (congrArg (perform _ s) (if_neg (bne_iff_ne.1 hwf)))
  | zero | empty | fromlong | frombig | pack | split | li | shlp | shlmp | shrmp | mul256 | tio2 =>
    exact fun r hr => absurd hr List.not_mem_nil

/-- Settles O12: under `reject` the value read of negative zero is OperandRange, which is then the command's fault. -/
theorem negativeZeroOperandIsRejected : Obligations.NegativeZeroOperandIsRejected := fun _ s r hwf hs hp hr hz =>
  readFaultsOf_valueSources hwf hs r hr _ ((valueReadCanonicalisesOrRejects s r).2.2 hz hp)

/-! ### The fault state (R235, R236) -/

/-- R235: in the fault state every command word is dropped, legal or not. -/
theorem execute_dropped (w : Word) {s : State} (h : s.err = true) : execute w s = .next s := by
  rcases execute_cases w s with ⟨i, -, he⟩ | ⟨-, he⟩ <;> rw [he]
  · exact exec_dropped i h
  · rw [State.command_of_err h]

/-- R55: an admitted access that begins below S ends below it. -/
theorem add_le_of_admittedBySpec {a n : Nat} (h : admittedBySpec a n) (ha : a < 0x140) : a + n ≤ 0x140 := by
  obtain ⟨-, -, hplace⟩ := h
  omega

/-- Settles O8: a write to CMD is a dropped word, and the window serves reads and writes whatever ERR is. -/
theorem faultStateDropsCommandsAndServesTheHost : Obligations.FaultStateDropsCommandsAndServesTheHost := by
  refine fun s rest hs => ⟨fun v hhost => ?_, fun a n hhost h => step_of_read hhost (admitted_iff.1 h),
    fun a n v hhost hadm ha => ?_⟩
  · exact (step_of_commandWrite hhost admittedBySpec_cmd).trans (execute_dropped _ hs)
  · have h := admitted_iff.1 hadm
    have hend := add_le_of_admittedBySpec h ha
    obtain ⟨t, hstep, htext, hcontrol, -, hbytes, hothers⟩ :=
      writeStoresExactlyItsBytes s rest a n v hhost h (ha.trans (by decide))
    exact ⟨t, hstep, hcontrol, htext, fun k hk => hbytes k hk (by omega), fun b hb => hothers b (by omega)⟩

theorem step_of_statusWrite {s : State} {rest : List HostStep} {v : BitVec 64} (h : s.host = .write 0x174 4 v :: rest) :
    step s = .next (({ s with host := rest } : State).clearFault (v.setWidth 32)) :=
  step_of_write h (admitted_iff.1 (by decide)) (by decide)

/-- R236: a write with bit 0 set leaves the fault state, with CAUSE and ECMD 0 and every register as it was. -/
theorem clearFault_of_set {s : State} {w : Word} (hs : s.err = true) (hw : w.getLsbD 0 = true) :
    (s.clearFault w).err = false ∧ (s.clearFault w).cause = 0 ∧ (s.clearFault w).ecmd = 0
      ∧ SameRegistersExcept s (s.clearFault w) [] [] [] := by
  rcases s.clearFault_cases w with ⟨-, -, h⟩ | ⟨hoff | hoff, -⟩
  · rw [h]
    exact ⟨by simp [State.err], rfl, rfl, fun _ _ => rfl, fun _ _ => rfl, fun _ _ => rfl⟩
  · cases hs.symm.trans hoff
  · cases hw.symm.trans hoff

/-- R236: "A write with bit 0 = 0, or any write while ERR = 0, does nothing." -/
theorem clearFault_of_clear {s : State} {w : Word} (h : s.err = false ∨ w.getLsbD 0 = false) : s.clearFault w = s := by
  rcases s.clearFault_cases w with ⟨hs, hw, -⟩ | ⟨-, hc⟩
  · rcases h with h | h
    · cases hs.symm.trans h
    · cases hw.symm.trans h
  · exact hc

/-- Settles O14: the step is the clear with the low word of the data, whose bit 0 is that of the data. -/
theorem hostClearLeavesTheFaultState : Obligations.HostClearLeavesTheFaultState := by
  intro s rest v hhost
  have hstep := step_of_statusWrite hhost
  have hbit : (v.setWidth 32).getLsbD 0 = v.getLsbD 0 := by simp
  refine ⟨fun hs hv => ?_, fun hoff => ?_⟩
  · obtain ⟨herr, hcause, hecmd, hregs⟩ := clearFault_of_set (s := { s with host := rest }) hs (hbit.trans hv)
    exact ⟨_, hstep, herr, State.clearFault_status_shiftRight _ _, hcause, hecmd, hregs, clearFault_sameText _ _,
      clearFault_sameOutside _ _⟩
  · exact hstep.trans (congrArg _ (clearFault_of_clear (hbit ▸ hoff)))

end Sys2Proof.Machine
end
